-- ==== Sys2Proof/Word.lean ====
section
/-! DEFINITION. The word types of DHC (spec/00_scope.md R13, R14, R15): unsigned integers of a stated width, bytes,
byte sequences, and the opaque clock value `TIME` (R11, R147). -/

namespace Sys2Proof

/-- One 8-bit byte (R15). -/
abbrev Byte := BitVec 8

/-- R13: `U4`. -/
abbrev U4 := BitVec 4

/-- R13: `U8`. -/
abbrev U8 := BitVec 8

/-- R13: `U16`. -/
abbrev U16 := BitVec 16

/-- R13: `U32`. -/
abbrev U32 := BitVec 32

/-- R15: a finite sequence of bytes, byte 0 first on the wire. Its length is not bounded. -/
abbrev Bytes := List Byte

/-- R13: `U256` "is a string of 32 bytes". The length 32 is checked by `WellFormed` where a host supplies one and holds by
construction where DHC makes one. -/
abbrev U256 := Bytes

/-- R147: a value of the opaque type `TIME`. The token tells two clock values apart and means nothing else: no operation
computes with it (log entry 4). -/
structure Time where
  token : Nat
deriving DecidableEq, Repr

/-- R33: a SecurityLevel, a "small integer" no operation computes with; its width is the parameter `LEVEL`. -/
abbrev Level := Nat

/-- R33, R135: the contents of a policy table, a finite partial function: its (key, level) pairs in strictly ascending order of the
keys. So a key has one level, a table with two cannot be constructed, and one function is one list (log entry 8). -/
structure PolicyTable where
  rows : List (U32 × Level)
  ascending : (rows.map Prod.fst).Pairwise (· < ·)
deriving DecidableEq, Repr

/-- R33: whether every level of a table has this width in bits. -/
def PolicyTable.fits (t : PolicyTable) (width : Nat) : Bool := t.rows.all fun row => decide (row.2 < 2 ^ width)

end Sys2Proof
end

