-- ==== Sys2Proof/Machine/Bytes.lean ====
section
/-! DEFINITION. Reading and writing the bytes of a buffer (spec/00_scope.md R15, R16; spec/20_memory.md R60; spec/45 R230,
R235). Everything is big-endian and nothing wraps: offsets and lengths are natural numbers. -/

namespace Sys2Proof.Machine

/-- R16: the unsigned integer whose big-endian encoding is the whole of `bs`. -/
def beNat (bs : Bytes) : Nat := bs.foldl (fun acc b => acc * 256 + b.toNat) 0

/-- R230: the `n`-byte big-endian encoding of `v`; byte k is `(v >> (8 × (n − 1 − k))) & 0xFF`. -/
def beBytes : Nat → Nat → Bytes
  | 0, _ => []
  | n + 1, v => BitVec.ofNat 8 (v / 256 ^ n) :: beBytes n v

/-- R15: `B[i:j]`. -/
def slice (B : Bytes) (i j : Nat) : Bytes := (B.drop i).take (j - i)

/-- R16: `MemRead(B + o, n)`. Every rule that uses it has checked the length first. -/
def memRead (B : Bytes) (o n : Nat) : Nat := beNat (slice B o (o + n))

/-- R16: `MemWrite(B + o, n, v)` on a buffer under construction. -/
def memWrite (B : Bytes) (o n v : Nat) : Bytes := B.take o ++ beBytes n v ++ B.drop (o + n)

/-- R15: `B[i]`, read only where the rule has checked `i < len(B)`. -/
def byteAt (B : Bytes) (i : Nat) : Byte := B.getD i 0

/-- R66: the 2-byte field at offset `o`. -/
def read16 (B : Bytes) (o : Nat) : U16 := BitVec.ofNat 16 (memRead B o 2)

/-- R66: the 4-byte field at offset `o`. -/
def read32 (B : Bytes) (o : Nat) : U32 := BitVec.ofNat 32 (memRead B o 4)

/-- R16: `be16(v)`. -/
def be16 (v : U16) : Bytes := beBytes 2 v.toNat

/-- R16: `be32(v)`. -/
def be32 (v : U32) : Bytes := beBytes 4 v.toNat

/-- R13: `ceil_div(a, b)`, which R230 gives as `(a + b − 1) div b` in naturals. -/
def ceilDiv (a b : Nat) : Nat := (a + b - 1) / b

end Sys2Proof.Machine
end

