-- ==== Sys2Proof/Config.lean ====
section
/-! DEFINITION. The constants the spec hardwires (spec/00_scope.md R10) and the one value it leaves open to every
implementation, the digest function (R11, R161). -/

namespace Sys2Proof.Config

/-- R10: the only admission-header version that ADMIT forwards. -/
def protocolVersion : U4 := 1

/-- R10: the admission header's length in bytes. -/
def admHdrLen : Nat := 16

/-- R10: the segment header's length in bytes. -/
def segHdrLen : Nat := 56

/-- R10, R61: the magic "D2" as the bytes 0x44, 0x32 (PRESUMED by the spec from general knowledge; log entry 9). -/
def segMagic : Bytes := [0x44, 0x32]

/-- R10: a chunk that starts below this byte offset is tagged LegalProhibited. -/
def tagThreshold : Nat := 131072

/-- R10: the sensitivity at or above which an external node drops. -/
def filterThreshold : U8 := 0x02

/-- R10: the segment size of a SPLIT whose host names none. -/
def defaultSegmentSize : Nat := 65536

/-- R10, R33: the source's default table. -/
def defaultPolicyTable : PolicyTable where
  rows := [(0x01, 0), (0x02, 1), (0x03, 2), (0x04, 3)]
  ascending := by decide

/-- R11: the default width of a SecurityLevel, in bits. -/
def defaultLevelWidth : Nat := 8

/-- R13, R166, R194: the largest value a 32-bit wire field holds. -/
def maxU32 : Nat := 2 ^ 32 - 1

/-- R47: the sensitivity value LegalProhibited. -/
def legalProhibited : U8 := 0x02

/-- R47: the sensitivity value Restricted. -/
def restricted : U8 := 0x01

/-- R47: the sensitivity value Public. -/
def publicLevel : U8 := 0x00

/-- R48: the operation hint Store. -/
def hintStore : U8 := 0x00

/-- R48: the operation hint Compute. -/
def hintCompute : U8 := 0x01

/-- R48: the operation hint Inspect. -/
def hintInspect : U8 := 0x02

/-- R161: the digest functions the spec leaves OPEN, told apart by a number. It has no body: a total function from byte
sequences to exactly 32 bytes, about which nothing else can be proved (free value; log entry 3). -/
opaque openDigest : Nat → Bytes → Vector Byte 32

end Sys2Proof.Config
end

