-- ==== Sys2Proof/Syntax.lean ====
section
/-! DEFINITION. The operations of DHC as syntax (spec/00_scope.md R22, spec/30_encoding.md R115): one constructor per row of
spec/opcode_table.json, with the operands of the operation's own rule in that rule's order. -/

namespace Sys2Proof

/-- R44: the six fields of an admission header; the reserved bits are not among them. -/
structure AdmissionHeader where
  version : U4
  /-- R44: the field the spec calls `type`. -/
  pktType : U4
  sequence : U32
  timestamp : U32
  policyId : U32
  checksum : U16
deriving DecidableEq, Repr

/-- R45: the fields of a segment header; the magic is not among them. -/
structure SegmentHeader where
  segmentId : U32
  seqNum : U32
  totalSegments : U32
  sensitivity : U8
  opHint : U8
  policyId : U32
  payloadLength : U32
  checksum : U256
deriving DecidableEq, Repr

/-- The formats of spec/opcode_table.json (R121): a command (the code, then its operands), or one wire-format word. -/
inductive Format where
  | cmd8 | wire128 | wire128Low | wire448
deriving DecidableEq, Repr

/-- The rows of spec/opcode_table.json. The first sixteen are the operations of R22; the last three are the wire-format rows
(R96, R104), each a word of that format handed to DHC by itself (log entry 2). -/
inductive Instr where
  /-- R131. -/
  | ptLookup (policyId : U32)
  /-- R141. -/
  | admDecode (buf : Bytes)
  /-- R142. -/
  | admEncode (h : AdmissionHeader)
  /-- R144: ADMIT; `now` is the clock draw (R147). -/
  | admitPacket (pkt : Bytes) (now : Time)
  /-- R162. -/
  | digestGen (p : Bytes)
  /-- R163. -/
  | digestVerify (p : Bytes) (c : U256)
  /-- R165. -/
  | segEncode (segmentId seqNum totalSegments : U32) (sensitivity opHint : U8) (policyId : U32) (payload : Bytes)
  /-- R167. -/
  | segDecode (buf : Bytes)
  /-- R191. -/
  | segTag (offset : Nat)
  /-- R193: `segSize` is `none` when the host names no segment size (then 65536); `segmentId` is a draw (R195). -/
  | split (data : Bytes) (segSize : Option Nat) (policyId segmentId : U32)
  /-- R197: `ext` is 1 when the node classification is "external" (R119). -/
  | filterOne (buf : Bytes) (ext : Bool)
  /-- R199. -/
  | enforce (segments : List Bytes) (ext : Bool)
  /-- R214. -/
  | rsmStart
  /-- R215. -/
  | rsmPush (buf : Bytes)
  /-- R217. -/
  | rsmFinish
  /-- R220. -/
  | reassemble (segs : List Bytes)
  /-- R96, row ADMISSION_HEADER: a 128-bit word in layout HIGH; `rsv` are its eight reserved bits (R91). -/
  | admissionHeader (h : AdmissionHeader) (rsv : U8)
  /-- R96, row ADMISSION_HEADER_LOW: the same in layout LOW. -/
  | admissionHeaderLow (h : AdmissionHeader) (rsv : U8)
  /-- R104, row SEGMENT_HEADER: a 448-bit word whose first 16 bits are the magic. -/
  | segmentHeader (h : SegmentHeader)
deriving DecidableEq, Repr

end Sys2Proof
end

