-- ==== Sys2Proof/WellFormed.lean ====
section
/-! DEFINITION. Which terms of `Instr` are requests a host can make. The operand types already bound every integer field
(spec/00_scope.md R13); what is left is that a `U256` is a string of exactly 32 bytes (R13, spec/42_segment_codec.md R163,
spec/10_state.md R45). Operand values an operation refuses (R166, R194) are well formed: the operation runs and answers so. -/

namespace Sys2Proof

/-- R13: a `U256` has 32 bytes. -/
def U256.wf (c : U256) : Bool := c.length == 32

/-- The operand `c` of DIGEST_VERIFY and the checksum field of a segment header are 32 bytes. -/
def Instr.wf : Instr → Bool
  | .ptLookup _ => true
  | .admDecode _ => true
  | .admEncode _ => true
  | .admitPacket _ _ => true
  | .digestGen _ => true
  | .digestVerify _ c => U256.wf c
  | .segEncode _ _ _ _ _ _ _ => true
  | .segDecode _ => true
  | .segTag _ => true
  | .split _ _ _ _ => true
  | .filterOne _ _ => true
  | .enforce _ _ => true
  | .rsmStart => true
  | .rsmPush _ => true
  | .rsmFinish => true
  | .reassemble _ => true
  | .admissionHeader _ _ => true
  | .admissionHeaderLow _ _ => true
  | .segmentHeader h => U256.wf h.checksum

end Sys2Proof
end

