-- ==== Sys2Proof/Decode.lean ====
section
/-! DEFINITION. From the bytes of a request to an operation, and back (spec/30_encoding.md R96, R104, R115, R116, R121).
The command codes are the spec's (R115); how the operands follow the code "by value" is the model's own framing (log entry 1):
an integer of stated width is big-endian in the least whole number of bytes, a bit is one byte 0 or 1, a natural number is in
base 128 with the least group first and 0x80 added to every group but the last, a byte sequence is its length and its bytes, a
list is its count and its items, an optional operand is one byte 0 or 1 and then the value, a record is its fields in order. -/

namespace Sys2Proof

open Machine

/-- Why the bytes of a request are no operation. Raised by `decodeRequest`; `illegalCommand` and `notASegment` have an answer in
the spec (R116, R101), the rest are requests the model's own framing cannot read (safe: the step stops). -/
inductive DecodeError where
  /-- A request without a command byte. -/
  | emptyRequest
  /-- R116: a command code outside the table of R115. -/
  | illegalCommand (code : Byte)
  /-- The request ends inside an operand. -/
  | truncatedOperand
  /-- An operand byte outside its type: a U4 above 15, a bit above 1, a natural number with a useless last group. -/
  | badOperand
  /-- Bytes left over after the last operand. -/
  | trailingBytes
  /-- A wire-format word of the wrong length. -/
  | wireLength
  /-- R101, R104: a 448-bit word whose first two bytes are not the magic. -/
  | notASegment
deriving DecidableEq, Repr

/-- R22: the sixteen operations that a command code selects. -/
inductive Opcode where
  | ptLookup | admDecode | admEncode | admitPacket | digestGen | digestVerify | segEncode | segDecode
  | segTag | split | filterOne | enforce | rsmStart | rsmPush | rsmFinish | reassemble
deriving DecidableEq, Repr

/-- R115: the table of command codes. -/
def opcodeTable : List (Byte × Opcode) :=
  [(0x01, .ptLookup), (0x10, .admDecode), (0x11, .admEncode), (0x12, .admitPacket)]
  ++ [(0x20, .digestGen), (0x21, .digestVerify), (0x22, .segEncode), (0x23, .segDecode)]
  ++ [(0x30, .segTag), (0x31, .split), (0x32, .filterOne), (0x33, .enforce)]
  ++ [(0x40, .rsmStart), (0x41, .rsmPush), (0x42, .rsmFinish), (0x43, .reassemble)]

/-- R115, R116: the operation a command code selects, if any. -/
def Opcode.ofCode (code : Byte) : Option Opcode := (opcodeTable.find? fun row => row.1 == code).map Prod.snd

/-! ### Reading operands -/

/-- An operand read off the front of the bytes, with the bytes after it. -/
abbrev Parsed (α : Type) := Except DecodeError (α × Bytes)

/-- Go on with what is left after an operand. -/
def andThen {α β : Type} (r : Parsed α) (f : α → Bytes → Parsed β) : Parsed β :=
  match r with
  | .ok (a, bs) => f a bs
  | .error e => .error e

/-- The next `n` bytes. -/
def takeRaw (n : Nat) (bs : Bytes) : Parsed Bytes :=
  if bs.length < n then .error .truncatedOperand else .ok (bs.take n, bs.drop n)

/-- A U8 operand. -/
def takeU8 : Bytes → Parsed U8
  | [] => .error .truncatedOperand
  | b :: bs => .ok (b, bs)

/-- A U16 operand, big-endian. -/
def takeU16 (bs : Bytes) : Parsed U16 := andThen (takeRaw 2 bs) fun f rest => .ok (BitVec.ofNat 16 (beNat f), rest)

/-- A U32 operand, big-endian. -/
def takeU32 (bs : Bytes) : Parsed U32 := andThen (takeRaw 4 bs) fun f rest => .ok (BitVec.ofNat 32 (beNat f), rest)

/-- A U4 operand, in one byte whose high four bits are 0. -/
def takeU4 (bs : Bytes) : Parsed U4 :=
  andThen (takeU8 bs) fun b rest => if b.toNat < 16 then .ok (BitVec.ofNat 4 b.toNat, rest) else .error .badOperand

/-- A one-bit operand. -/
def takeBit (bs : Bytes) : Parsed Bool :=
  andThen (takeU8 bs) fun b rest =>
    if b = 0 then .ok (false, rest) else if b = 1 then .ok (true, rest) else .error .badOperand

/-- A natural-number operand of any size; a last group of 0 after another group is refused, so a number has one encoding. -/
def takeNat : Bytes → Parsed Nat
  | [] => .error .truncatedOperand
  | b :: bs =>
    if b.toNat < 128 then .ok (b.toNat, bs)
    else andThen (takeNat bs) fun n rest =>
      if n = 0 then .error .badOperand else .ok (n * 128 + (b.toNat - 128), rest)

/-- A byte-sequence operand. -/
def takeBytes (bs : Bytes) : Parsed Bytes := andThen (takeNat bs) fun n rest => takeRaw n rest

/-- `n` byte-sequence operands. -/
def takeItems : Nat → Bytes → Parsed (List Bytes)
  | 0, bs => .ok ([], bs)
  | n + 1, bs => andThen (takeBytes bs) fun b rest => andThen (takeItems n rest) fun l rest => .ok (b :: l, rest)

/-- A list-of-byte-sequences operand. -/
def takeList (bs : Bytes) : Parsed (List Bytes) := andThen (takeNat bs) fun n rest => takeItems n rest

/-- The segment size of SPLIT: absent, or a natural number. -/
def takeSize (bs : Bytes) : Parsed (Option Nat) :=
  andThen (takeBit bs) fun present rest =>
    if present then andThen (takeNat rest) fun n rest => .ok (some n, rest) else .ok (none, rest)

/-- R44: an admission header given as a record. -/
def takeHeader (bs : Bytes) : Parsed AdmissionHeader :=
  andThen (takeU4 bs) fun version bs => andThen (takeU4 bs) fun pktType bs => andThen (takeU32 bs) fun sequence bs =>
  andThen (takeU32 bs) fun timestamp bs => andThen (takeU32 bs) fun policyId bs => andThen (takeU16 bs) fun checksum bs =>
  .ok (⟨version, pktType, sequence, timestamp, policyId, checksum⟩, bs)

/-- R115: the operands of an operation, "by value in the order each operation's rule lists them". -/
def decodeOperands : Opcode → Bytes → Parsed Instr
  | .ptLookup, bs => andThen (takeU32 bs) fun id bs => .ok (.ptLookup id, bs)
  | .admDecode, bs => andThen (takeBytes bs) fun b bs => .ok (.admDecode b, bs)
  | .admEncode, bs => andThen (takeHeader bs) fun h bs => .ok (.admEncode h, bs)
  | .admitPacket, bs => andThen (takeBytes bs) fun p bs => andThen (takeNat bs) fun t bs => .ok (.admitPacket p ⟨t⟩, bs)
  | .digestGen, bs => andThen (takeBytes bs) fun p bs => .ok (.digestGen p, bs)
  | .digestVerify, bs => andThen (takeBytes bs) fun p bs => andThen (takeRaw 32 bs) fun c bs => .ok (.digestVerify p c, bs)
  | .segEncode, bs =>
    andThen (takeU32 bs) fun segmentId bs => andThen (takeU32 bs) fun seqNum bs => andThen (takeU32 bs) fun total bs =>
    andThen (takeU8 bs) fun sens bs => andThen (takeU8 bs) fun hint bs => andThen (takeU32 bs) fun policyId bs =>
    andThen (takeBytes bs) fun payload bs => .ok (.segEncode segmentId seqNum total sens hint policyId payload, bs)
  | .segDecode, bs => andThen (takeBytes bs) fun b bs => .ok (.segDecode b, bs)
  | .segTag, bs => andThen (takeNat bs) fun n bs => .ok (.segTag n, bs)
  | .split, bs =>
    andThen (takeBytes bs) fun data bs => andThen (takeSize bs) fun size bs => andThen (takeU32 bs) fun policyId bs =>
    andThen (takeU32 bs) fun segmentId bs => .ok (.split data size policyId segmentId, bs)
  | .filterOne, bs => andThen (takeBytes bs) fun b bs => andThen (takeBit bs) fun ext bs => .ok (.filterOne b ext, bs)
  | .enforce, bs => andThen (takeList bs) fun l bs => andThen (takeBit bs) fun ext bs => .ok (.enforce l ext, bs)
  | .rsmStart, bs => .ok (.rsmStart, bs)
  | .rsmPush, bs => andThen (takeBytes bs) fun b bs => .ok (.rsmPush b, bs)
  | .rsmFinish, bs => .ok (.rsmFinish, bs)
  | .reassemble, bs => andThen (takeList bs) fun l bs => .ok (.reassemble l, bs)

/-- R115, R116: a command code and its operands, with the bytes after them. -/
def decodeCommand : Bytes → Parsed Instr
  | [] => .error .emptyRequest
  | code :: bs =>
    match Opcode.ofCode code with
    | some op => decodeOperands op bs
    | none => .error (.illegalCommand code)

/-! ### Wire-format words, read by the bit patterns of the table -/

/-- R96: the fields of a 128-bit word of layout HIGH, first transmitted bit leftmost. -/
def decodeWire128 (w : BitVec 128) : Instr :=
  .admissionHeader
    ⟨w.extractLsb' 124 4, w.extractLsb' 120 4, w.extractLsb' 80 32, w.extractLsb' 48 32, w.extractLsb' 16 32, w.extractLsb' 0 16⟩
    (w.extractLsb' 112 8)

/-- R96: the same for layout LOW, where the reserved bits come first. -/
def decodeWire128Low (w : BitVec 128) : Instr :=
  .admissionHeaderLow
    ⟨w.extractLsb' 116 4, w.extractLsb' 112 4, w.extractLsb' 80 32, w.extractLsb' 48 32, w.extractLsb' 16 32, w.extractLsb' 0 16⟩
    (w.extractLsb' 120 8)

/-- R104: the magic of a 448-bit word, read as an integer. -/
def wireMagic : U16 := 0x4432

/-- R104: the fields of a 448-bit word; its only fixed bits are the 16 of the magic. -/
def decodeWire448 (w : BitVec 448) : Except DecodeError Instr :=
  if w.extractLsb' 432 16 = wireMagic then
    .ok (.segmentHeader
      ⟨w.extractLsb' 400 32, w.extractLsb' 368 32, w.extractLsb' 336 32, w.extractLsb' 328 8, w.extractLsb' 320 8,
       w.extractLsb' 288 32, w.extractLsb' 256 32, beBytes 32 (w.extractLsb' 0 256).toNat⟩)
  else .error .notASegment

/-- The operation that the bytes of one request ask for. Total on any bytes. -/
def decodeRequest (fmt : Format) (bs : Bytes) : Except DecodeError Instr :=
  match fmt with
  | .cmd8 =>
    match decodeCommand bs with
    | .ok (i, rest) => if rest = [] then .ok i else .error .trailingBytes
    | .error e => .error e
  | .wire128 => if bs.length = 16 then .ok (decodeWire128 (BitVec.ofNat 128 (beNat bs))) else .error .wireLength
  | .wire128Low => if bs.length = 16 then .ok (decodeWire128Low (BitVec.ofNat 128 (beNat bs))) else .error .wireLength
  | .wire448 => if bs.length = 56 then decodeWire448 (BitVec.ofNat 448 (beNat bs)) else .error .wireLength

/-! ### The encoder -/

/-- A natural number in base 128, with `fuel` groups at most. -/
def putNatFuel : Nat → Nat → Bytes
  | 0, _ => []
  | fuel + 1, n =>
    if n < 128 then [BitVec.ofNat 8 n] else BitVec.ofNat 8 (n % 128 + 128) :: putNatFuel fuel (n / 128)

/-- A natural-number operand. -/
def putNat (n : Nat) : Bytes := putNatFuel (Nat.log2 n + 1) n

/-- A U4 operand. -/
def putU4 (v : U4) : Bytes := [BitVec.ofNat 8 v.toNat]

/-- A one-bit operand. -/
def putBit (b : Bool) : Bytes := [if b then 1 else 0]

/-- A byte-sequence operand. -/
def putBytes (b : Bytes) : Bytes := putNat b.length ++ b

/-- The items of a list operand. -/
def putItems : List Bytes → Bytes
  | [] => []
  | b :: l => putBytes b ++ putItems l

/-- A list-of-byte-sequences operand. -/
def putList (l : List Bytes) : Bytes := putNat l.length ++ putItems l

/-- The segment size of SPLIT. -/
def putSize : Option Nat → Bytes
  | none => putBit false
  | some n => putBit true ++ putNat n

/-- R44: an admission header given as a record. -/
def putHeader (h : AdmissionHeader) : Bytes :=
  putU4 h.version ++ putU4 h.pktType ++ be32 h.sequence ++ be32 h.timestamp ++ be32 h.policyId ++ be16 h.checksum

/-- R96, R104: a bit pattern as a number, its fields given as (width, value) with the first transmitted field leftmost. -/
def packBits (fields : List (Nat × Nat)) : Nat := fields.foldl (fun acc f => acc * 2 ^ f.1 + f.2) 0

/-- R96: the 128-bit word of a header in layout HIGH. -/
def encodeWire128 (h : AdmissionHeader) (rsv : U8) : Nat :=
  packBits [(4, h.version.toNat), (4, h.pktType.toNat), (8, rsv.toNat), (32, h.sequence.toNat), (32, h.timestamp.toNat),
    (32, h.policyId.toNat), (16, h.checksum.toNat)]

/-- R96: the 128-bit word of a header in layout LOW. -/
def encodeWire128Low (h : AdmissionHeader) (rsv : U8) : Nat :=
  packBits [(8, rsv.toNat), (4, h.version.toNat), (4, h.pktType.toNat), (32, h.sequence.toNat), (32, h.timestamp.toNat),
    (32, h.policyId.toNat), (16, h.checksum.toNat)]

/-- R104: the 448-bit word of a segment header. -/
def encodeWire448 (h : SegmentHeader) : Nat :=
  packBits [(16, wireMagic.toNat), (32, h.segmentId.toNat), (32, h.seqNum.toNat), (32, h.totalSegments.toNat),
    (8, h.sensitivity.toNat), (8, h.opHint.toNat), (32, h.policyId.toNat), (32, h.payloadLength.toNat), (256, beNat h.checksum)]

/-- The format and bytes of the request for an operation: for a command its code (R115) and its operands. -/
def encodeRequest : Instr → Format × Bytes
  | .ptLookup id => (.cmd8, 0x01 :: be32 id)
  | .admDecode b => (.cmd8, 0x10 :: putBytes b)
  | .admEncode h => (.cmd8, 0x11 :: putHeader h)
  | .admitPacket p now => (.cmd8, 0x12 :: (putBytes p ++ putNat now.token))
  | .digestGen p => (.cmd8, 0x20 :: putBytes p)
  | .digestVerify p c => (.cmd8, 0x21 :: (putBytes p ++ c))
  | .segEncode segmentId seqNum total sens hint policyId payload =>
    (.cmd8, 0x22 :: (be32 segmentId ++ be32 seqNum ++ be32 total ++ [sens] ++ [hint] ++ be32 policyId ++ putBytes payload))
  | .segDecode b => (.cmd8, 0x23 :: putBytes b)
  | .segTag n => (.cmd8, 0x30 :: putNat n)
  | .split data size policyId segmentId => (.cmd8, 0x31 :: (putBytes data ++ putSize size ++ be32 policyId ++ be32 segmentId))
  | .filterOne b ext => (.cmd8, 0x32 :: (putBytes b ++ putBit ext))
  | .enforce l ext => (.cmd8, 0x33 :: (putList l ++ putBit ext))
  | .rsmStart => (.cmd8, [0x40])
  | .rsmPush b => (.cmd8, 0x41 :: putBytes b)
  | .rsmFinish => (.cmd8, [0x42])
  | .reassemble l => (.cmd8, 0x43 :: putList l)
  | .admissionHeader h rsv => (.wire128, beBytes 16 (encodeWire128 h rsv))
  | .admissionHeaderLow h rsv => (.wire128Low, beBytes 16 (encodeWire128Low h rsv))
  | .segmentHeader h => (.wire448, beBytes 56 (encodeWire448 h))

/-! ### Words numbered as the opcode table numbers them -/

/-- The `n` bytes of a word whose first byte holds its bits 7 to 0. The table gives a command word 8 bits; that a wider one is read
lowest byte first is the model's choice (DESIGN CHOICE, unsafe; log entry 16). -/
def tableBytes : Nat → Nat → Bytes
  | 0, _ => []
  | n + 1, w => BitVec.ofNat 8 w :: tableBytes n (w / 256)

/-- The bytes of a command word followed by operand bytes of zero, as many as its operands take. R115 gives the word no operands and
does not say what it does without them: that it is completed so and then run, and that the bytes of a wider word beyond those its operands
take are dropped (where a request with such bytes is refused, `DecodeError.trailingBytes`), is the model's choice (DESIGN CHOICE, unsafe; log
entry 16). -/
def tableCommand (nbits w : Nat) : Bytes :=
  let head := tableBytes (nbits / 8) w
  let padded := head ++ List.replicate 64 0
  match decodeCommand padded with
  | .ok (_, rest) => padded.take (padded.length - rest.length)
  | .error _ => head

/-- The request a table word stands for. A row of 128 or 448 bits is ONE big-endian word, its first transmitted bit the most
significant (R96, R104, and the table's own notes); the two 128-bit rows have the same match and mask, so a word of 128 bits is
taken in the default layout HIGH (log entry 2). -/
def tableRequest (nbits w : Nat) : Format × Bytes :=
  if nbits = 128 then (.wire128, beBytes 16 w)
  else if nbits = 448 then (.wire448, beBytes 56 w)
  else (.cmd8, tableCommand nbits w)

/-- The operation that the decoder reads from a word of the opcode table. -/
def decodeTableWord (nbits w : Nat) : Option Instr :=
  match decodeRequest (tableRequest nbits w).1 (tableRequest nbits w).2 with
  | .ok i => some i
  | .error _ => none

end Sys2Proof
end

