-- ==== Sys2Proof/Machine/State.lean ====
section
/-! DEFINITION. Everything DHC remembers (spec/10_state.md): the parameters fixed at construction (R11, R40), the reassembly
store (R34 to R38), and the two ends of the transaction interface of R9, the requests the host has issued and the last result
record. -/

namespace Sys2Proof.Machine

/-- R11, R92: `ADM_VT_LAYOUT`. -/
inductive VtLayout where
  | high | low
deriving DecidableEq, Repr

/-- R11, R103: `PAYLOAD_SLICE`. -/
inductive PayloadSlice where
  | explicit | remainder
deriving DecidableEq, Repr

/-- R11, R216: `RSM_CORRUPT_POLICY`. -/
inductive CorruptPolicy where
  | abort | skip
deriving DecidableEq, Repr

/-- R11, R161: which function `DIGEST` is: one of those the spec leaves OPEN, or the instantiation it suggests. -/
inductive DigestChoice where
  | unspecified (k : Nat)
  | sha256
deriving DecidableEq, Repr

/-- R11, R40: what the host fixes when it constructs an instance; no operation writes it. -/
structure Params where
  /-- R33: `PT`. -/
  policyTable : PolicyTable
  /-- R33: `LEVEL`, the width of a level in bits. -/
  levelWidth : Nat
  /-- R33: the levels of `PT` have the width `LEVEL`. -/
  levels_fit : policyTable.fits levelWidth = true
  /-- R161: `DIGEST`. -/
  digest : DigestChoice
  /-- R92: `ADM_VT_LAYOUT`. -/
  vtLayout : VtLayout
  /-- R103: `PAYLOAD_SLICE`. -/
  payloadSlice : PayloadSlice
  /-- R216: `RSM_CORRUPT_POLICY`. -/
  corruptPolicy : CorruptPolicy
  /-- R219: `RSM_MAX_SEGMENTS`, `none` when unbounded. -/
  maxSegments : Option Nat
  /-- R219: `RSM_MAX_BYTES`, `none` when unbounded. -/
  maxBytes : Option Nat
deriving DecidableEq, Repr

/-- R11: the default of every parameter. -/
def Params.default : Params where
  policyTable := Config.defaultPolicyTable
  levelWidth := Config.defaultLevelWidth
  levels_fit := by decide
  digest := .unspecified 0
  vtLayout := .high
  payloadSlice := .explicit
  corruptPolicy := .abort
  maxSegments := none
  maxBytes := none

/-- R242: the sub-kinds of FormatError. -/
inductive FormatSub where
  | admLength | segLength | segMagic | segTruncated
deriving DecidableEq, Repr

/-- R37: the failures that `rsm.error` can hold. -/
inductive RsmError where
  | format (sub : FormatSub)
  | integrity (seqNum : U32)
deriving DecidableEq, Repr

/-- R34, R37: `rsm.state`; FAILED carries `rsm.error`, which R37 says is `some` exactly then (log entry 6). -/
inductive RsmPhase where
  | idle
  | collecting
  | failed (error : RsmError)
deriving DecidableEq, Repr

/-- R36: one entry of the reassembly store. -/
structure Entry where
  seqNum : U32
  payload : Bytes
deriving DecidableEq, Repr

/-- R34 to R38: the reassembly store. -/
structure Rsm where
  /-- R34, R37: `rsm.state` and `rsm.error`. -/
  phase : RsmPhase
  /-- R35: `rsm.expected`. -/
  expected : Option U32
  /-- R36: `rsm.entries`. -/
  entries : List Entry
  /-- R38: `rsm.skipped`. -/
  skipped : Nat
deriving DecidableEq, Repr

/-- R53: the store after reset. -/
def Rsm.reset : Rsm where
  phase := .idle
  expected := none
  entries := []
  skipped := 0

/-- R146: why ADMIT dropped a packet. -/
inductive DropReason where
  | tooShort
  | badVersion (version : U4)
  | policyRejected (policyId : U32)
deriving DecidableEq, Repr

/-- R51: the result of ADMIT. -/
inductive Decision where
  | forward (policyId : U32) (observedAt : Time)
  | drop (reason : DropReason)
deriving DecidableEq, Repr

/-- R247: why DHC gives a request no meaning. -/
inductive RefuseReason where
  | illegalCommand | payloadTooLong | segmentSizeZero | segmentSizeTooLarge | tooManySegments | rsmNotStarted | rsmCapacity
deriving DecidableEq, Repr

/-- R245: IncompleteWarning. -/
structure IncompleteWarning where
  expected : U32
  got : Nat
deriving DecidableEq, Repr

/-- R197: the result of FILTER_ONE. -/
inductive FilterVerdict where
  | forward (buf : Bytes)
  | drop
  | malformed (sub : FormatSub)
deriving DecidableEq, Repr

/-- R199: the result of ENFORCE. -/
structure Enforced where
  forwarded : List Bytes
  droppedCount : Nat
  malformedCount : Nat
deriving DecidableEq, Repr

/-- R217: the successful result of RSM_FINISH and REASSEMBLE. -/
structure Reassembled where
  data : Bytes
  warning : Option IncompleteWarning
  skipped : Nat
deriving DecidableEq, Repr

/-- R52, R240: the result record of an operation: a value, a value with a warning, a source-defined error, or `Refused`. All of
them are answers after which the machine goes on (log entry 5). -/
inductive Result where
  /-- RSM_START, RSM_PUSH. -/
  | ok
  /-- PT_LOOKUP. -/
  | level (l : Option Level)
  /-- ADM_DECODE and the admission wire-format words. -/
  | admHeader (h : AdmissionHeader)
  /-- ADM_ENCODE, DIGEST_GEN, SEG_ENCODE. -/
  | bytes (b : Bytes)
  /-- DIGEST_VERIFY. -/
  | bool (b : Bool)
  /-- ADMIT. -/
  | decision (d : Decision)
  /-- SEG_DECODE. -/
  | segment (h : SegmentHeader) (payload : Bytes)
  /-- The segment wire-format word. -/
  | segHeader (h : SegmentHeader)
  /-- SEG_TAG. -/
  | tag (sensitivity opHint : U8)
  /-- SPLIT. -/
  | segments (l : List Bytes)
  /-- FILTER_ONE. -/
  | verdict (v : FilterVerdict)
  /-- ENFORCE. -/
  | enforced (e : Enforced)
  /-- RSM_PUSH under policy SKIP. -/
  | skipped
  /-- RSM_FINISH, REASSEMBLE. -/
  | reassembled (r : Reassembled)
  /-- R242. -/
  | formatError (sub : FormatSub)
  /-- R244. -/
  | integrityError (seqNum : U32)
  /-- R246. -/
  | emptyInput
  /-- R247. -/
  | refused (reason : RefuseReason)
deriving DecidableEq, Repr

/-- What the host can do to an instance: issue a request (R9), or reset it between operations (R281, R282). -/
inductive HostEvent where
  | request (fmt : Format) (bytes : Bytes)
  | reset
deriving DecidableEq, Repr

/-- One DHC instance. -/
structure State where
  /-- R11, R40: fixed at construction. -/
  params : Params
  /-- R34 to R38: the reassembly store. -/
  rsm : Rsm
  /-- R9, R71: what the host has issued and DHC has not yet taken, oldest first (the model's own field; log entry 7). -/
  inbox : List HostEvent
  /-- R9, R52: the last result record, `none` before the first (the model's own field; log entry 7). -/
  result : Option Result
deriving DecidableEq, Repr

/-- R280: an instance right after construction with the given parameters. -/
def State.construct (p : Params) : State where
  params := p
  rsm := Rsm.reset
  inbox := []
  result := none

/-- R53, R280: the machine right after reset, constructed with every default. -/
def State.reset : State := State.construct Params.default

/-- A fault would stop the machine. DHC has none: every operation ends in a result record (R240, R254), so this type has no
constructor. -/
inductive Fault where
deriving DecidableEq, Repr

/-- Why a step has no meaning. -/
inductive Refusal where
  /-- Raised by an arm of `exec` whose operation has no meaning yet (none today). Safe. -/
  | notModelled (mnemonic : String)
  /-- Raised by `step` for request bytes that the model's operand framing cannot read (log entry 1); the spec passes operands by
  value and knows no such request. Safe. -/
  | malformedRequest (why : DecodeError)
deriving DecidableEq, Repr

end Sys2Proof.Machine
end

