-- ==== Sys2Proof/Machine/Flags.lean ====
section
/-! DEFINITION. What behaves like a flag in DHC (spec/10_state.md R39): the sticky fail flag of the reassembly store and the
`warning` of RSM_FINISH; and the numeric codes the spec assigns (R34, R146, R241, R242, R247). DHC has no condition codes. -/

namespace Sys2Proof.Machine

/-- R37: `rsm.error`, which is `some` exactly when `rsm.state = FAILED`. -/
def Rsm.error (r : Rsm) : Option RsmError :=
  match r.phase with
  | .idle => none
  | .collecting => none
  | .failed e => some e

/-- R39: the sticky fail flag, `rsm.state = FAILED`. -/
def Rsm.failFlag (r : Rsm) : Bool := r.error.isSome

/-- R34: the numbering of `rsm.state`. -/
def RsmPhase.code : RsmPhase → Nat
  | .idle => 0
  | .collecting => 1
  | .failed _ => 2

/-- R223: the number of distinct values in a list of sequence numbers. -/
def distinctCount : List U32 → Nat
  | [] => 0
  | q :: qs => (if q ∈ qs then 0 else 1) + distinctCount qs

/-- R223: `got < expected` as an exact unsigned comparison, and the warning it sets. -/
def gapWarning (expected : U32) (got : Nat) : Option IncompleteWarning :=
  if got < expected.toNat then some ⟨expected, got⟩ else none

/-- R242: the sub-kind numbers of FormatError. -/
def FormatSub.code : FormatSub → Nat
  | .admLength => 1
  | .segLength => 2
  | .segMagic => 3
  | .segTruncated => 4

/-- R146: the drop-reason numbers. -/
def DropReason.code : DropReason → Nat
  | .tooShort => 1
  | .badVersion _ => 2
  | .policyRejected _ => 3

/-- R247: the refusal-reason numbers. -/
def RefuseReason.code : RefuseReason → Nat
  | .illegalCommand => 1
  | .payloadTooLong => 2
  | .segmentSizeZero => 3
  | .segmentSizeTooLarge => 4
  | .tooManySegments => 5
  | .rsmNotStarted => 6
  | .rsmCapacity => 7

/-- R240: the four ways an operation can end. -/
inductive OutcomeClass where
  | value | valueWithWarning | sourceError | refused
deriving DecidableEq, Repr

/-- R240: how a result record ends its operation; `Drop`, `DROP`, `MALFORMED` and `false` are values. -/
def Result.outcomeClass : Result → OutcomeClass
  | .ok => .value
  | .level _ => .value
  | .admHeader _ => .value
  | .bytes _ => .value
  | .bool _ => .value
  | .decision _ => .value
  | .segment _ _ => .value
  | .segHeader _ => .value
  | .tag _ _ => .value
  | .segments _ => .value
  | .verdict _ => .value
  | .enforced _ => .value
  | .skipped => .value
  | .reassembled r => if r.warning.isSome then .valueWithWarning else .value
  | .formatError _ => .sourceError
  | .integrityError _ => .sourceError
  | .emptyInput => .sourceError
  | .refused _ => .refused

/-- R241: the taxonomy's number of a result record. A `Drop` for a version or a policy id is PolicyRejected; the third drop
reason, TOO_SHORT, fits neither of its causes (R146, conflict C5) and is counted with the plain values (log entry 11). -/
def Result.code : Result → Nat
  | .ok => 0
  | .level _ => 0
  | .admHeader _ => 0
  | .bytes _ => 0
  | .bool _ => 0
  | .decision (.forward _ _) => 0
  | .decision (.drop .tooShort) => 0
  | .decision (.drop (.badVersion _)) => 2
  | .decision (.drop (.policyRejected _)) => 2
  | .segment _ _ => 0
  | .segHeader _ => 0
  | .tag _ _ => 0
  | .segments _ => 0
  | .verdict _ => 0
  | .enforced _ => 0
  | .skipped => 0
  | .reassembled r => if r.warning.isSome then 4 else 0
  | .formatError _ => 1
  | .integrityError _ => 3
  | .emptyInput => 5
  | .refused _ => 6

end Sys2Proof.Machine
end

