-- ==== Sys2Proof/Machine/Ops.lean ====
section
/-! DEFINITION. The shared ways an operation ends and the named operations over the state (spec/00_scope.md R17, spec/10_state.md
R33 to R38, spec/60_exceptions.md R254, R256). -/

namespace Sys2Proof.Machine

/-- The three outcomes of a step, at this machine's types. -/
abbrev Ends := Host.Outcome State Fault Refusal

/-! ### Ending an operation -/

/-- R17: `return r`, the result record handed to the host; nothing else changes. -/
def answer (r : Result) (s : State) : Ends := .next { s with result := some r }

/-- R17: `raise FormatError(sub)` by an operation outside unit RSM, which changes no state (R254). -/
def raiseFormat (sub : FormatSub) (s : State) : Ends := answer (.formatError sub) s

/-- R17: `refuse(reason)`: the result `Refused(reason)`, no state changed (R247). -/
def refuse (reason : RefuseReason) (s : State) : Ends := answer (.refused reason) s

/-- An operation of unit RSM: its result record, and the store it leaves. -/
def answerRsm (out : Rsm × Result) (s : State) : Ends := .next { s with rsm := out.1, result := some out.2 }

/-- R9: the instance with this queue of host events. -/
def State.withInbox (s : State) (events : List HostEvent) : State := { s with inbox := events }

/-! ### The policy table -/

/-- R132: the level beside the key that equals the operand in all 32 bits. -/
def ptFind : List (U32 × Level) → U32 → Option Level
  | [], _ => none
  | (k, l) :: rows, id => if k = id then some l else ptFind rows id

/-- R33, R132: `PT(id)`. -/
def ptRead (t : PolicyTable) (id : U32) : Option Level := ptFind t.rows id

/-! ### The reassembly store -/

/-- R36, R218: insertion after the last entry whose `seqNum` is not larger, so equal numbers keep their push order. -/
def Rsm.insert (r : Rsm) (e : Entry) : Rsm :=
  let k := (r.entries.filter fun x => x.seqNum ≤ e.seqNum).length
  { r with entries := r.entries.take k ++ [e] ++ r.entries.drop k }

/-- R35: the first buffer that decodes sets `rsm.expected`; later ones leave it. -/
def Rsm.expect (r : Rsm) (total : U32) : Rsm :=
  match r.expected with
  | none => { r with expected := some total }
  | some _ => r

/-- R219: the number of payload bytes the store holds. -/
def payloadBytes (es : List Entry) : Nat := (es.map fun e => e.payload.length).sum

/-- R11: whether a natural number is above a bound; an unbounded parameter is never exceeded. -/
def exceeds (n : Nat) (bound : Option Nat) : Bool :=
  match bound with
  | none => false
  | some m => decide (m < n)

/-- R215, R219: whether one more verified payload would exceed a capacity parameter. -/
def Rsm.overCapacity (p : Params) (r : Rsm) (payload : Bytes) : Bool :=
  exceeds (r.entries.length + 1) p.maxSegments || exceeds (payloadBytes r.entries + payload.length) p.maxBytes

/-! ### Entering and leaving the FAILED state: the only thing DHC has like taking an exception and returning from one -/

/-- R254: a failing push latches its error, moves to FAILED and empties the store. -/
def Rsm.fail (r : Rsm) (e : RsmError) : Rsm := { r with phase := .failed e, entries := [] }

/-- R217, R256: RSM_FINISH leaves FAILED for IDLE; `rsm.error`, `rsm.expected` and `rsm.skipped` are cleared. -/
def Rsm.release (r : Rsm) : Rsm := { r with phase := .idle, expected := none, skipped := 0 }

/-- R37, R241: the error result that reports a latched failure. -/
def RsmError.result : RsmError → Result
  | .format sub => .formatError sub
  | .integrity seqNum => .integrityError seqNum

/-- R217, R220: the store emptied and IDLE, from COLLECTING. -/
def Rsm.clear (r : Rsm) : Rsm := { r with phase := .idle, expected := none, entries := [], skipped := 0 }

/-- R214: the store at the start of a reassembly. -/
def Rsm.started : Rsm where
  phase := .collecting
  expected := none
  entries := []
  skipped := 0

/-- R281: a later reset: the mutable state as after construction, the parameters as constructed. -/
def State.resetInPlace (s : State) : State := { s with rsm := Rsm.reset, result := none }

end Sys2Proof.Machine
end

