-- ==== Sys2Proof/Machine/Admission.lean ====
section
/-! DEFINITION. Units AHC and AG (spec/41_admission.md): ADM_DECODE, ADM_ENCODE and ADMIT. -/

namespace Sys2Proof.Machine

/-- R92: `version` and `type` inside the first 16-bit field. -/
def splitVt (layout : VtLayout) (vt : U16) : U4 × U4 :=
  match layout with
  | .high => (vt.extractLsb' 12 4, vt.extractLsb' 8 4)
  | .low => (vt.extractLsb' 4 4, vt.extractLsb' 0 4)

/-- R93, R142: the first field of an encoded header; its reserved bits are 0. -/
def joinVt (layout : VtLayout) (version pktType : U4) : U16 :=
  match layout with
  | .high => (version.setWidth 16 <<< 12) ||| (pktType.setWidth 16 <<< 8)
  | .low => (version.setWidth 16 <<< 4) ||| pktType.setWidth 16

/-- R94: the six fields of a 16-byte header. -/
def admFields (layout : VtLayout) (B : Bytes) : AdmissionHeader where
  version := (splitVt layout (read16 B 0)).1
  pktType := (splitVt layout (read16 B 0)).2
  sequence := read32 B 2
  timestamp := read32 B 6
  policyId := read32 B 10
  checksum := read16 B 14

/-- R141: the function of ADM_DECODE; with `admEncode` it has the round-trip laws of R143 (`admDecode_admEncode`,
`admEncode_admDecode`). -/
def admDecode (layout : VtLayout) (B : Bytes) : Except FormatSub AdmissionHeader :=
  if B.length ≠ Config.admHdrLen then .error .admLength else .ok (admFields layout B)

/-- R142, R143: the function of ADM_ENCODE. -/
def admEncode (layout : VtLayout) (h : AdmissionHeader) : Bytes :=
  be16 (joinVt layout h.version h.pktType) ++ be32 h.sequence ++ be32 h.timestamp ++ be32 h.policyId ++ be16 h.checksum

/-- R144: the function of ADMIT; its three tests in the order of R250. -/
def admission (p : Params) (P : Bytes) (now : Time) : Decision :=
  if P.length < Config.admHdrLen then .drop .tooShort
  else
    let h := admFields p.vtLayout (slice P 0 16)
    if h.version ≠ Config.protocolVersion then .drop (.badVersion h.version)
    else if ptRead p.policyTable h.policyId = none then .drop (.policyRejected h.policyId)
    else .forward h.policyId now

/-- R141, R143: ADM_DECODE. -/
def execAdmDecode (buf : Bytes) (s : State) : Ends :=
  match admDecode s.params.vtLayout buf with
  | .ok h => answer (.admHeader h) s
  | .error sub => raiseFormat sub s

/-- R142, R143: ADM_ENCODE. -/
def execAdmEncode (h : AdmissionHeader) (s : State) : Ends := answer (.bytes (admEncode s.params.vtLayout h)) s

/-- R144: ADMIT. -/
def execAdmitPacket (pkt : Bytes) (now : Time) (s : State) : Ends := answer (.decision (admission s.params pkt now)) s

end Sys2Proof.Machine
end

