-- ==== Sys2Proof/Machine/Digest.lean ====
section
/-! DEFINITION. The digest function of an instance (spec/42_segment_codec.md R161). The spec leaves `DIGEST` OPEN: an instance so
constructed uses the constant `Config.openDigest`, of which nothing is known. SHA-256 is the instantiation the spec suggests and
computes every printed digest with; it is written here from FIPS 180-4, which is outside the spec (PRESUMED; log entry 3). -/

namespace Sys2Proof.Machine

/-! ### SHA-256 -/

namespace Sha256

/-- The eight working words. -/
structure Words where
  a : U32
  b : U32
  c : U32
  d : U32
  e : U32
  f : U32
  g : U32
  h : U32
deriving DecidableEq, Repr

/-- The initial hash value. -/
def initial : Words :=
  ⟨0x6a09e667, 0xbb67ae85, 0x3c6ef372, 0xa54ff53a, 0x510e527f, 0x9b05688c, 0x1f83d9ab, 0x5be0cd19⟩

/-- The 64 round constants. -/
def roundConstants : List U32 :=
  [0x428a2f98, 0x71374491, 0xb5c0fbcf, 0xe9b5dba5, 0x3956c25b, 0x59f111f1, 0x923f82a4, 0xab1c5ed5]
  ++ [0xd807aa98, 0x12835b01, 0x243185be, 0x550c7dc3, 0x72be5d74, 0x80deb1fe, 0x9bdc06a7, 0xc19bf174]
  ++ [0xe49b69c1, 0xefbe4786, 0x0fc19dc6, 0x240ca1cc, 0x2de92c6f, 0x4a7484aa, 0x5cb0a9dc, 0x76f988da]
  ++ [0x983e5152, 0xa831c66d, 0xb00327c8, 0xbf597fc7, 0xc6e00bf3, 0xd5a79147, 0x06ca6351, 0x14292967]
  ++ [0x27b70a85, 0x2e1b2138, 0x4d2c6dfc, 0x53380d13, 0x650a7354, 0x766a0abb, 0x81c2c92e, 0x92722c85]
  ++ [0xa2bfe8a1, 0xa81a664b, 0xc24b8b70, 0xc76c51a3, 0xd192e819, 0xd6990624, 0xf40e3585, 0x106aa070]
  ++ [0x19a4c116, 0x1e376c08, 0x2748774c, 0x34b0bcb5, 0x391c0cb3, 0x4ed8aa4a, 0x5b9cca4f, 0x682e6ff3]
  ++ [0x748f82ee, 0x78a5636f, 0x84c87814, 0x8cc70208, 0x90befffa, 0xa4506ceb, 0xbef9a3f7, 0xc67178f2]

/-- Rotation right by `n` places, `0 < n < 32`. -/
def rotr (x : U32) (n : Nat) : U32 := (x >>> n) ||| (x <<< (32 - n))

/-- One round with its constant and schedule word. -/
def oneRound (s : Words) (k w : U32) : Words :=
  let bigSigma0 := rotr s.a 2 ^^^ rotr s.a 13 ^^^ rotr s.a 22
  let bigSigma1 := rotr s.e 6 ^^^ rotr s.e 11 ^^^ rotr s.e 25
  let choose := (s.e &&& s.f) ^^^ (~~~s.e &&& s.g)
  let majority := (s.a &&& s.b) ^^^ (s.a &&& s.c) ^^^ (s.b &&& s.c)
  let t1 := s.h + bigSigma1 + choose + k + w
  ⟨t1 + (bigSigma0 + majority), s.a, s.b, s.c, s.d + t1, s.e, s.f, s.g⟩

/-- The schedule word that follows a window of sixteen. -/
def nextWord (win : List U32) : U32 :=
  let x1 := win.getD 1 0
  let x14 := win.getD 14 0
  (rotr x14 17 ^^^ rotr x14 19 ^^^ (x14 >>> 10)) + win.getD 9 0 + (rotr x1 7 ^^^ rotr x1 18 ^^^ (x1 >>> 3)) + win.getD 0 0

/-- The first `n` schedule words, from the window of the next sixteen. -/
def schedule : Nat → List U32 → List U32
  | 0, _ => []
  | n + 1, win => win.getD 0 0 :: schedule n (win.drop 1 ++ [nextWord win])

/-- The sixteen words of a 64-byte block. -/
def blockWords (blk : Bytes) : List U32 := (List.range 16).map fun i => read32 blk (4 * i)

/-- The compression of one block into the hash value. -/
def compress (s : Words) (blk : Bytes) : Words :=
  let r := (roundConstants.zip (schedule 64 (blockWords blk))).foldl (fun s kw => oneRound s kw.1 kw.2) s
  ⟨s.a + r.a, s.b + r.b, s.c + r.c, s.d + r.d, s.e + r.e, s.f + r.f, s.g + r.g, s.h + r.h⟩

/-- The message with its padding: a 1 bit, zeros, and the length in bits as 64 bits. R161 and R162 ask for a digest of every payload,
and FIPS 180-4 defines SHA-256 only below 2^64 bits: that the length field is taken modulo 2^64 for payloads of 2^61 bytes or more is the
model's choice (DESIGN CHOICE, unsafe; log entry 17). -/
def padded (p : Bytes) : Bytes :=
  p ++ [0x80] ++ List.replicate ((119 - p.length % 64) % 64) 0 ++ beBytes 8 (8 * p.length)

/-- The hash value after `n` blocks. -/
def blocks : Nat → Words → Bytes → Words
  | 0, s, _ => s
  | n + 1, s, b => blocks n (compress s (b.take 64)) (b.drop 64)

/-- The 32 bytes of a hash value. -/
def Words.bytes (s : Words) : Bytes :=
  be32 s.a ++ be32 s.b ++ be32 s.c ++ be32 s.d ++ be32 s.e ++ be32 s.f ++ be32 s.g ++ be32 s.h

/-- SHA-256 of a byte sequence. -/
def hash (p : Bytes) : U256 := (blocks ((padded p).length / 64) initial (padded p)).bytes

end Sha256

/-- R18, R161: `Digest(p)`, the configured function applied to a payload; always 32 bytes. -/
def digestOf (d : DigestChoice) (p : Bytes) : U256 :=
  match d with
  | .unspecified k => (Config.openDigest k p).toList
  | .sha256 => Sha256.hash p

/-- R163: all 32 bytes of `Digest(p)` equal the 32 bytes of `c`. -/
def digestVerify (d : DigestChoice) (p : Bytes) (c : U256) : Bool := decide (digestOf d p = c)

end Sys2Proof.Machine
end

