-- ==== Sys2Proof/Machine/SegmentCodec.lean ====
section
/-! DEFINITION. Units SHC and DG (spec/42_segment_codec.md): DIGEST_GEN, DIGEST_VERIFY, SEG_ENCODE and SEG_DECODE. -/

namespace Sys2Proof.Machine

/-- R165: the bytes of a segment, header and payload, for a payload whose length fits its field. -/
def segBuild (d : DigestChoice) (segmentId seqNum totalSegments : U32) (sensitivity opHint : U8) (policyId : U32)
    (payload : Bytes) : Bytes :=
  Config.segMagic ++ be32 segmentId ++ be32 seqNum ++ be32 totalSegments ++ [sensitivity] ++ [opHint] ++ be32 policyId ++
    be32 (BitVec.ofNat 32 payload.length) ++ digestOf d payload ++ payload

/-- R165, R166: the function of SEG_ENCODE. -/
def segEncode (d : DigestChoice) (segmentId seqNum totalSegments : U32) (sensitivity opHint : U8) (policyId : U32)
    (payload : Bytes) : Except RefuseReason Bytes :=
  if payload.length > Config.maxU32 then .error .payloadTooLong
  else .ok (segBuild d segmentId seqNum totalSegments sensitivity opHint policyId payload)

/-- R102: the fields of a segment header. -/
def segFields (B : Bytes) : SegmentHeader where
  segmentId := read32 B 2
  seqNum := read32 B 6
  totalSegments := read32 B 10
  sensitivity := byteAt B 14
  opHint := byteAt B 15
  policyId := read32 B 16
  payloadLength := read32 B 20
  checksum := slice B 24 56

/-- R167, R251: the function of SEG_DECODE; its tests in order: length, magic, truncation. -/
def segDecode (mode : PayloadSlice) (B : Bytes) : Except FormatSub (SegmentHeader × Bytes) :=
  if B.length < Config.segHdrLen then .error .segLength
  else if slice B 0 2 ≠ Config.segMagic then .error .segMagic
  else
    match mode with
    | .explicit =>
      if B.length - 56 < (segFields B).payloadLength.toNat then .error .segTruncated
      else .ok (segFields B, slice B 56 (56 + (segFields B).payloadLength.toNat))
    | .remainder => .ok (segFields B, B.drop 56)

/-- R162: DIGEST_GEN. -/
def execDigestGen (p : Bytes) (s : State) : Ends := answer (.bytes (digestOf s.params.digest p)) s

/-- R163: DIGEST_VERIFY. -/
def execDigestVerify (p : Bytes) (c : U256) (s : State) : Ends := answer (.bool (digestVerify s.params.digest p c)) s

/-- R165: SEG_ENCODE. -/
def execSegEncode (segmentId seqNum totalSegments : U32) (sensitivity opHint : U8) (policyId : U32) (payload : Bytes)
    (s : State) : Ends :=
  match segEncode s.params.digest segmentId seqNum totalSegments sensitivity opHint policyId payload with
  | .ok b => answer (.bytes b) s
  | .error reason => refuse reason s

/-- R167: SEG_DECODE. -/
def execSegDecode (buf : Bytes) (s : State) : Ends :=
  match segDecode s.params.payloadSlice buf with
  | .ok hp => answer (.segment hp.1 hp.2) s
  | .error sub => raiseFormat sub s

end Sys2Proof.Machine
end

