-- ==== Sys2Proof/Machine/Filter.lean ====
section
/-! DEFINITION. Unit GF (spec/43_segmenter_filter.md R197 to R203): FILTER_ONE and ENFORCE. -/

namespace Sys2Proof.Machine

/-- R197, R198: the function of FILTER_ONE. At a node that is not external the buffer is not decoded. -/
def filterOne (mode : PayloadSlice) (B : Bytes) (ext : Bool) : FilterVerdict :=
  if ext = false then .forward B
  else
    match segDecode mode B with
    | .error sub => .malformed sub
    | .ok hp => if hp.1.sensitivity ≥ Config.filterThreshold then .drop else .forward B

/-- R199: one turn of ENFORCE's loop. -/
def enforceOne (mode : PayloadSlice) (ext : Bool) (acc : Enforced) (B : Bytes) : Enforced :=
  match filterOne mode B ext with
  | .forward B' => { acc with forwarded := acc.forwarded ++ [B'] }
  | .drop => { acc with droppedCount := acc.droppedCount + 1 }
  | .malformed _ => { acc with malformedCount := acc.malformedCount + 1 }

/-- R199: the function of ENFORCE, in list order and always to the end (R234). -/
def enforce (mode : PayloadSlice) (segments : List Bytes) (ext : Bool) : Enforced :=
  segments.foldl (enforceOne mode ext) ⟨[], 0, 0⟩

/-- R197: FILTER_ONE. -/
def execFilterOne (buf : Bytes) (ext : Bool) (s : State) : Ends := answer (.verdict (filterOne s.params.payloadSlice buf ext)) s

/-- R199: ENFORCE. -/
def execEnforce (segments : List Bytes) (ext : Bool) (s : State) : Ends :=
  answer (.enforced (enforce s.params.payloadSlice segments ext)) s

end Sys2Proof.Machine
end

