-- ==== Sys2Proof/Machine/Policy.lean ====
section
/-! DEFINITION. Unit PT (spec/40_policy_table.md): PT_LOOKUP. -/

namespace Sys2Proof.Machine

/-- R131: PT_LOOKUP. -/
def execPtLookup (policyId : U32) (s : State) : Ends := answer (.level (ptRead s.params.policyTable policyId)) s

end Sys2Proof.Machine
end

