-- ==== Sys2Proof/Machine/Reassembly.lean ====
section
/-! DEFINITION. Unit RSM (spec/44_reassembly.md): RSM_START, RSM_PUSH, RSM_FINISH and REASSEMBLE, and the source's one-call
function (R212) that they realise (R221). -/

namespace Sys2Proof.Machine

/-- R215: the function of RSM_PUSH on the store. -/
def rsmPush (p : Params) (r : Rsm) (B : Bytes) : Rsm × Result :=
  match r.phase with
  | .idle => (r, .refused .rsmNotStarted)
  | .failed e => (r, e.result)
  | .collecting =>
    match segDecode p.payloadSlice B with
    | .error sub => (r.fail (.format sub), .formatError sub)
    | .ok (h, payload) =>
      if digestVerify p.digest payload h.checksum then
        if r.overCapacity p payload then (r, .refused .rsmCapacity)
        else ((r.expect h.totalSegments).insert ⟨h.seqNum, payload⟩, .ok)
      else
        match p.corruptPolicy with
        | .skip => ({ r.expect h.totalSegments with skipped := r.skipped + 1 }, .skipped)
        | .abort => ((r.expect h.totalSegments).fail (.integrity h.seqNum), .integrityError h.seqNum)

/-- R217: the result of a completed reassembly. -/
def reassembledOf (expected : U32) (entries : List Entry) (skipped : Nat) : Reassembled where
  data := (entries.map Entry.payload).flatten
  warning := gapWarning expected (distinctCount (entries.map Entry.seqNum))
  skipped := skipped

/-- R217: the function of RSM_FINISH on the store. -/
def rsmFinish (r : Rsm) : Rsm × Result :=
  match r.phase with
  | .idle => (r, .refused .rsmNotStarted)
  | .failed e => (r.release, e.result)
  | .collecting =>
    match r.expected with
    | none => ({ r with phase := .idle }, .emptyInput)
    | some expected => (r.clear, .reassembled (reassembledOf expected r.entries r.skipped))

/-- R220: the pushes of a REASSEMBLE in list order: the store after them, and whether one was refused for capacity, which ends
them. -/
def pushAll (p : Params) : Rsm → List Bytes → Rsm × Bool
  | r, [] => (r, false)
  | r, B :: segs =>
    match rsmPush p r B with
    | (r', .refused .rsmCapacity) => (r', true)
    | (r', _) => pushAll p r' segs

/-- R220: the function of REASSEMBLE: RSM_START, a push per element, RSM_FINISH. -/
def reassemble (p : Params) (segs : List Bytes) : Rsm × Result :=
  match pushAll p Rsm.started segs with
  | (r, true) => (r.clear, .refused .rsmCapacity)
  | (r, false) => rsmFinish r

/-- R214: RSM_START, from any state. -/
def execRsmStart (s : State) : Ends := answerRsm (Rsm.started, .ok) s

/-- R215: RSM_PUSH. -/
def execRsmPush (buf : Bytes) (s : State) : Ends := answerRsm (rsmPush s.params s.rsm buf) s

/-- R217: RSM_FINISH. -/
def execRsmFinish (s : State) : Ends := answerRsm (rsmFinish s.rsm) s

/-- R220: REASSEMBLE; a reassembly in progress is discarded. -/
def execReassemble (segs : List Bytes) (s : State) : Ends := answerRsm (reassemble s.params segs) s

/-! ### The source's algorithm as one call (R212) -/

/-- R212, step 3: decode and verify every segment in list order; the first failure ends the call. -/
def verifiedAll (mode : PayloadSlice) (d : DigestChoice) : List Bytes → Except RsmError (List Entry)
  | [] => .ok []
  | B :: segs =>
    match segDecode mode B with
    | .error sub => .error (.format sub)
    | .ok (h, payload) =>
      if digestVerify d payload h.checksum then
        match verifiedAll mode d segs with
        | .ok es => .ok (⟨h.seqNum, payload⟩ :: es)
        | .error e => .error e
      else .error (.integrity h.seqNum)

/-- R212, step 4: the stable sort by `seqNum` ascending. -/
def sortEntries (es : List Entry) : List Entry := es.insertionSort fun a b => a.seqNum ≤ b.seqNum

/-- R212: `Reassemble(segs)`, the reference function of the policy ABORT. -/
def referenceReassemble (mode : PayloadSlice) (d : DigestChoice) : List Bytes → Result
  | [] => .emptyInput
  | first :: segs =>
    match segDecode mode first with
    | .error sub => .formatError sub
    | .ok (h, _) =>
      match verifiedAll mode d (first :: segs) with
      | .error e => e.result
      | .ok es => .reassembled (reassembledOf h.totalSegments (sortEntries es) 0)

end Sys2Proof.Machine
end

