-- ==== Sys2Proof/Machine/Operands.lean ====
section
/-! DEFINITION. Operand forms that are not the value itself (spec/30_encoding.md R119, spec/43_segmenter_filter.md R193). -/

namespace Sys2Proof.Machine

/-- R119: the bit `ext`, 1 exactly when the host's node classification is the string "external". -/
def extBit (nodeClassification : String) : Bool := decide (nodeClassification = "external")

/-- R193: the segment size of a SPLIT, 65536 when the host names none. -/
def segmentSizeOf (segSize : Option Nat) : Nat := segSize.getD Config.defaultSegmentSize

/-- R193, R230: the bytes of chunk `i`, `data[i*S : min((i+1)*S, L)]`. -/
def chunkOf (data : Bytes) (S i : Nat) : Bytes := slice data (i * S) (min ((i + 1) * S) data.length)

end Sys2Proof.Machine
end

