-- ==== Sys2Proof/Machine/Segmenter.lean ====
section
/-! DEFINITION. Unit SG (spec/43_segmenter_filter.md R190 to R196): SEG_TAG and SPLIT. -/

namespace Sys2Proof.Machine

/-- R191: the function of SEG_TAG, `(sensitivity, opHint)`; the comparison is strict and does not wrap. -/
def segTag (offset : Nat) : U8 × U8 :=
  if offset < Config.tagThreshold then (Config.legalProhibited, Config.hintInspect) else (Config.publicLevel, Config.hintStore)

/-- R193: segment `i` of `n`. -/
def splitSegment (d : DigestChoice) (data : Bytes) (S : Nat) (policyId segmentId : U32) (n i : Nat) : Bytes :=
  segBuild d segmentId (BitVec.ofNat 32 i) (BitVec.ofNat 32 n) (segTag (i * S)).1 (segTag (i * S)).2 policyId (chunkOf data S i)

/-- R193: the segments in `seqNum` order. -/
def splitList (d : DigestChoice) (data : Bytes) (S : Nat) (policyId segmentId : U32) : List Bytes :=
  (List.range (ceilDiv data.length S)).map (splitSegment d data S policyId segmentId (ceilDiv data.length S))

/-- R193, R194: the function of SPLIT; the refusals come before anything is produced, so no field is truncated. -/
def split (d : DigestChoice) (data : Bytes) (S : Nat) (policyId segmentId : U32) : Except RefuseReason (List Bytes) :=
  if S = 0 then .error .segmentSizeZero
  else if S > Config.maxU32 then .error .segmentSizeTooLarge
  else if ceilDiv data.length S > Config.maxU32 then .error .tooManySegments
  else .ok (splitList d data S policyId segmentId)

/-- R191: SEG_TAG. -/
def execSegTag (offset : Nat) (s : State) : Ends := answer (.tag (segTag offset).1 (segTag offset).2) s

/-- R193: SPLIT. -/
def execSplit (data : Bytes) (segSize : Option Nat) (policyId segmentId : U32) (s : State) : Ends :=
  match split s.params.digest data (segmentSizeOf segSize) policyId segmentId with
  | .ok l => answer (.segments l) s
  | .error reason => refuse reason s

end Sys2Proof.Machine
end

