-- ==== Sys2Proof/Machine/WireFormats.lean ====
section
/-! DEFINITION. The three wire-format rows of the opcode table (spec/30_encoding.md R96, R104, R121). Such a word carries no
command code: handed to DHC by itself it is assembled into its header record (R94, R102), which is the result, and nothing else
happens (log entry 2). -/

namespace Sys2Proof.Machine

/-- R94, R96: the header record of a 128-bit word in layout HIGH; the reserved bits are ignored (R93). R92 makes the layout a
parameter of the instance and gives a bare word no effect: that the word's own format fixes its layout, so that the word runs so also on
an instance whose `ADM_VT_LAYOUT` is LOW, is the model's choice (DESIGN CHOICE, unsafe; log entry 2). -/
def execAdmissionHeader (h : AdmissionHeader) (_rsv : U8) (s : State) : Ends := answer (.admHeader h) s

/-- R94, R96: the same in layout LOW, also on an instance whose `ADM_VT_LAYOUT` is HIGH (R92; DESIGN CHOICE, unsafe; log entry 2). -/
def execAdmissionHeaderLow (h : AdmissionHeader) (_rsv : U8) (s : State) : Ends := answer (.admHeader h) s

/-- R102, R104: the header record of a 448-bit word. -/
def execSegmentHeader (h : SegmentHeader) (s : State) : Ends := answer (.segHeader h) s

end Sys2Proof.Machine
end

