-- ==== Sys2Proof/Machine/Dispatch.lean ====
section
/-! DEFINITION. One arm per row of spec/opcode_table.json. -/

namespace Sys2Proof.Machine

def exec (i : Instr) (s : State) : Host.Outcome State Fault Refusal :=
  match i with
  | .ptLookup policyId => Sys2Proof.Machine.execPtLookup policyId s
  | .admDecode buf => Sys2Proof.Machine.execAdmDecode buf s
  | .admEncode h => Sys2Proof.Machine.execAdmEncode h s
  | .admitPacket pkt now => Sys2Proof.Machine.execAdmitPacket pkt now s
  | .digestGen p => Sys2Proof.Machine.execDigestGen p s
  | .digestVerify p c => Sys2Proof.Machine.execDigestVerify p c s
  | .segEncode segmentId seqNum totalSegments sensitivity opHint policyId payload => Sys2Proof.Machine.execSegEncode segmentId seqNum totalSegments sensitivity opHint policyId payload s
  | .segDecode buf => Sys2Proof.Machine.execSegDecode buf s
  | .segTag offset => Sys2Proof.Machine.execSegTag offset s
  | .split data segSize policyId segmentId => Sys2Proof.Machine.execSplit data segSize policyId segmentId s
  | .filterOne buf ext => Sys2Proof.Machine.execFilterOne buf ext s
  | .enforce segments ext => Sys2Proof.Machine.execEnforce segments ext s
  | .rsmStart => Sys2Proof.Machine.execRsmStart s
  | .rsmPush buf => Sys2Proof.Machine.execRsmPush buf s
  | .rsmFinish => Sys2Proof.Machine.execRsmFinish s
  | .reassemble segs => Sys2Proof.Machine.execReassemble segs s
  | .admissionHeader h rsv => Sys2Proof.Machine.execAdmissionHeader h rsv s
  | .admissionHeaderLow h rsv => Sys2Proof.Machine.execAdmissionHeaderLow h rsv s
  | .segmentHeader h => Sys2Proof.Machine.execSegmentHeader h s

end Sys2Proof.Machine
end

