-- ==== Sys2Proof/Machine/Fetch.lean ====
section
/-! DEFINITION. Taking the host's next event (spec/00_scope.md R9, spec/20_memory.md R71): what happens when there is none, when
it is a reset, and when its bytes are no operation. -/

namespace Sys2Proof.Machine

/-- R32, R263: with nothing issued DHC waits for the next operation; the state stands still (log entry 7). -/
def idleStep (s : State) : Ends := .next s

/-- R281, R282: a reset between operations. -/
def resetStep (s : State) : Ends := .next s.resetInPlace

/-- Request bytes that are no operation: an unassigned code is `Refused(ILLEGAL_COMMAND)` (R116), a 448-bit word without the magic
is `FormatError(SEG_MAGIC)` (R101), and bytes the model's own operand framing cannot read have no meaning (log entry 1). -/
def rejectRequest (why : DecodeError) (s : State) : Ends :=
  match why with
  | .illegalCommand _ => refuse .illegalCommand s
  | .notASegment => raiseFormat .segMagic s
  | .emptyRequest => .refused (.malformedRequest .emptyRequest)
  | .truncatedOperand => .refused (.malformedRequest .truncatedOperand)
  | .badOperand => .refused (.malformedRequest .badOperand)
  | .trailingBytes => .refused (.malformedRequest .trailingBytes)
  | .wireLength => .refused (.malformedRequest .wireLength)

/-- The event a word of the opcode table stands for. -/
def eventOfWord (nbits w : Nat) : HostEvent := .request (tableRequest nbits w).1 (tableRequest nbits w).2

end Sys2Proof.Machine
end

