-- ==== Sys2Proof/Machine/Step.lean ====
section
/-! DEFINITION. One step of DHC: the oldest event the host has issued is taken and carried out whole (spec/00_scope.md R9,
spec/20_memory.md R71). -/

namespace Sys2Proof.Machine

/-- One step. -/
def step (s : State) : Host.Outcome State Fault Refusal :=
  match s.inbox with
  | [] => idleStep s
  | .reset :: rest => resetStep (s.withInbox rest)
  | .request fmt bytes :: rest =>
    match decodeRequest fmt bytes with
    | .ok i => exec i (s.withInbox rest)
    | .error why => rejectRequest why (s.withInbox rest)

/-- The host issues the request of a table word, ahead of anything it has issued before (log entry 7). -/
def State.withFetchWord (s : State) (nbits w : Nat) : State := s.withInbox (eventOfWord nbits w :: s.inbox)

end Sys2Proof.Machine
end

