-- ==== Sys2Proof/Safety.lean ====
section
/-! DEFINITION. What a sound state and a sound outcome are, in the terms the statements use: the invariant of the reassembly
store (spec/10_state.md R34 to R38), the outcomes each operation can have (spec/60_exceptions.md R248), and which operations touch
mutable state (spec/20_memory.md R72). -/

namespace Sys2Proof.Machine

/-! ### Sound states -/

/-- R36: entries in ascending `seqNum` order. -/
abbrev Sorted (es : List Entry) : Prop := es.Pairwise fun a b => a.seqNum ≤ b.seqNum

/-- What is true of the reassembly store in every state a run reaches. -/
structure Rsm.Inv (p : Params) (r : Rsm) : Prop where
  /-- R36: the store is kept in ascending order. -/
  sorted : Sorted r.entries
  /-- R213, R217: IDLE holds nothing. -/
  idle_empty : r.phase = .idle → r.expected = none ∧ r.entries = [] ∧ r.skipped = 0
  /-- R254: FAILED holds no data. -/
  failed_empty : ∀ e, r.phase = .failed e → r.entries = []
  /-- R215, R248: a latched FormatError is one of SEG_DECODE's. -/
  failed_sub : r.phase ≠ .failed (.format .admLength)
  /-- R215, R216: an IntegrityError is latched only under ABORT and after a buffer decoded. -/
  failed_integrity : ∀ q, r.phase = .failed (.integrity q) → p.corruptPolicy = .abort ∧ r.expected.isSome
  /-- R35, R217: while `rsm.expected` is `none`, nothing decodable was pushed. -/
  nothing_pushed : r.phase = .collecting → r.expected = none → r.entries = [] ∧ r.skipped = 0
  /-- R38: nothing is skipped under ABORT. -/
  abort_skips_none : p.corruptPolicy = .abort → r.skipped = 0
  /-- R219: the number of entries is within its capacity parameter. -/
  within_segments : exceeds r.entries.length p.maxSegments = false
  /-- R219: the payload bytes are within their capacity parameter. -/
  within_bytes : exceeds (payloadBytes r.entries) p.maxBytes = false

/-- The invariant of an instance. That its policy table is a function whose levels fit (R33, R135) needs no mention: `Params` has no
other tables. -/
abbrev State.Inv (s : State) : Prop := s.rsm.Inv s.params

/-! ### Sound outcomes -/

/-- R248: the outcomes an operation can have. -/
def allowedResult : Instr → Result → Bool
  | .ptLookup _, .level _ => true
  | .admDecode _, .admHeader _ => true
  | .admDecode _, .formatError sub => sub == .admLength
  | .admEncode _, .bytes b => b.length == 16
  | .admitPacket _ _, .decision _ => true
  | .digestGen _, .bytes b => b.length == 32
  | .digestVerify _ _, .bool _ => true
  | .segEncode _ _ _ _ _ _ payload, .bytes b => b.length == 56 + payload.length
  | .segEncode _ _ _ _ _ _ _, .refused reason => reason == .payloadTooLong
  | .segDecode _, .segment _ _ => true
  | .segDecode _, .formatError sub => sub != .admLength
  | .segTag _, .tag _ _ => true
  | .split _ _ _ _, .segments _ => true
  | .split _ _ _ _, .refused reason =>
    reason == .segmentSizeZero || reason == .segmentSizeTooLarge || reason == .tooManySegments
  | .filterOne _ _, .verdict _ => true
  | .enforce _ _, .enforced _ => true
  | .rsmStart, .ok => true
  | .rsmPush _, .ok => true
  | .rsmPush _, .skipped => true
  | .rsmPush _, .formatError sub => sub != .admLength
  | .rsmPush _, .integrityError _ => true
  | .rsmPush _, .refused reason => reason == .rsmNotStarted || reason == .rsmCapacity
  | .rsmFinish, .reassembled _ => true
  | .rsmFinish, .emptyInput => true
  | .rsmFinish, .formatError sub => sub != .admLength
  | .rsmFinish, .integrityError _ => true
  | .rsmFinish, .refused reason => reason == .rsmNotStarted
  | .reassemble _, .reassembled _ => true
  | .reassemble _, .emptyInput => true
  | .reassemble _, .formatError sub => sub != .admLength
  | .reassemble _, .integrityError _ => true
  | .reassemble _, .refused reason => reason == .rsmCapacity
  | .admissionHeader _ _, .admHeader _ => true
  | .admissionHeaderLow _ _, .admHeader _ => true
  | .segmentHeader _, .segHeader _ => true
  | _, _ => false

/-- R30, R72: the operations that read or write the reassembly store. -/
def touchesStore : Instr → Bool
  | .ptLookup _ => false
  | .admDecode _ => false
  | .admEncode _ => false
  | .admitPacket _ _ => false
  | .digestGen _ => false
  | .digestVerify _ _ => false
  | .segEncode _ _ _ _ _ _ _ => false
  | .segDecode _ => false
  | .segTag _ => false
  | .split _ _ _ _ => false
  | .filterOne _ _ => false
  | .enforce _ _ => false
  | .rsmStart => true
  | .rsmPush _ => true
  | .rsmFinish => true
  | .reassemble _ => true
  | .admissionHeader _ _ => false
  | .admissionHeaderLow _ _ => false
  | .segmentHeader _ => false

/-- R148: the decision class of ADMIT, the decision without its clock value. -/
def Decision.untimed : Decision → Decision
  | .forward policyId _ => .forward policyId ⟨0⟩
  | .drop reason => .drop reason

/-- R219: a capacity parameter is unbounded. -/
abbrev Params.unbounded (p : Params) : Prop := p.maxSegments = none ∧ p.maxBytes = none

end Sys2Proof.Machine
end

