-- ==== Sys2Proof/Certificates/Slice0/Obligations.lean ====
section
/-! DEFINITION. What is stated of the model for the provers, in the order of the spec: the interface and the encodings, the policy
table, the admission codec and gate, the segment codec, the segmenter, the filter, the reassembly store, and the whole machine. -/

open Sys2Proof Sys2Proof.Machine

namespace Sys2Proof.Machine

/-- The state that differs only in its last result record. -/
abbrev State.answered (s : State) (r : Result) : State := { s with result := some r }

/-- The state that differs only in its reassembly store and its last result record. -/
abbrev State.answeredRsm (s : State) (rsm : Rsm) (r : Result) : State := { s with rsm := rsm, result := some r }

/-- Operations carried out one after another. -/
def runOps : List Instr → State → Ends
  | [], s => .next s
  | i :: is, s =>
    match exec i s with
    | .next t => runOps is t
    | .fault f => .fault f
    | .refused r => .refused r

/-- R18, R90: the 32-bit field whose four bytes, in wire order, are these. -/
abbrev word32 (a b c d : Byte) : U32 := a ++ b ++ c ++ d

/-- R90: the 32-bit field at offset `o`, from its four bytes. -/
abbrev fieldAt (B : Bytes) (o : Nat) : U32 := word32 (byteAt B o) (byteAt B (o + 1)) (byteAt B (o + 2)) (byteAt B (o + 3))

/-- The four bytes of a 32-bit field in wire order. -/
abbrev wireBytes (v : U32) : Bytes := [v.extractLsb' 24 8, v.extractLsb' 16 8, v.extractLsb' 8 8, v.extractLsb' 0 8]

/-- A segment of a header and payload as SEG_ENCODE makes it. -/
abbrev segOf (d : DigestChoice) (h : SegmentHeader) (p : Bytes) : Bytes :=
  segBuild d h.segmentId h.seqNum h.totalSegments h.sensitivity h.opHint h.policyId p

/-- R94: the version nibble of a packet under a layout. -/
abbrev versionOf (layout : VtLayout) (P : Bytes) : U4 :=
  match layout with
  | .high => (byteAt P 0).extractLsb' 4 4
  | .low => (byteAt P 1).extractLsb' 4 4

/-- R223: the sequence numbers of a list of entries, in its order. -/
abbrev seqNumsOf (es : List Entry) : List U32 := es.map Entry.seqNum

/-- R217, R223: the result of a reassembly that ends with these entries. -/
abbrev finishedWith (expected : U32) (es : List Entry) (skipped : Nat) : Result :=
  .reassembled ⟨(es.map Entry.payload).flatten,
    if (seqNumsOf es).toFinset.card < expected.toNat then some ⟨expected, (seqNumsOf es).toFinset.card⟩ else none, skipped⟩

/-- R215, R216: the entries of the buffers that decode and verify, in list order. -/
def soundEntries (mode : PayloadSlice) (d : DigestChoice) (segs : List Bytes) : List Entry :=
  segs.filterMap fun B =>
    match segDecode mode B with
    | .error _ => none
    | .ok (h, p) => if digestVerify d p h.checksum then some ⟨h.seqNum, p⟩ else none

/-- R200: what is left of a list after a chain of hops, each with its node classification. -/
def hopChain (mode : PayloadSlice) (hops : List Bool) (segs : List Bytes) : List Bytes :=
  hops.foldl (fun l ext => (enforce mode l ext).forwarded) segs

end Sys2Proof.Machine

/-! ### Reset, the interface and the encodings -/

/-- R280: reset is construction; the parameters take the values given, or the defaults of R11 (but for DIGEST, whose default the spec
leaves OPEN), and the store is IDLE and empty. -/
def Obligations.ResetIsConstruction : Prop :=
  (∀ p : Params,
    (State.construct p).params = p ∧ (State.construct p).rsm.phase = .idle ∧ (State.construct p).rsm.expected = none ∧
    (State.construct p).rsm.entries = [] ∧ (State.construct p).rsm.error = none ∧ (State.construct p).rsm.skipped = 0) ∧
  State.reset = State.construct State.reset.params ∧
  State.reset.params.policyTable.rows = [(1, 0), (2, 1), (3, 2), (4, 3)] ∧ State.reset.params.levelWidth = 8 ∧
  State.reset.params.vtLayout = .high ∧ State.reset.params.payloadSlice = .explicit ∧ State.reset.params.corruptPolicy = .abort ∧
  State.reset.params.maxSegments = none ∧ State.reset.params.maxBytes = none

/-- The invariant holds right after reset, whatever parameters the instance is constructed with. -/
def Obligations.InvariantHoldsAfterReset : Prop :=
  State.reset.Inv ∧ ∀ p : Params, (State.construct p).Inv

/-- Every step keeps the invariant: the store stays sorted and within capacity, IDLE and FAILED hold no data, an IntegrityError is
latched only under ABORT (R36, R37, R38, R213, R219, R254). -/
def Obligations.StepKeepsInvariant : Prop :=
  ∀ s t : State, s.Inv → step s = .next t → t.Inv

/-- A step carries out exactly the operation its oldest request decodes to, after taking that request from the queue; and a table
word that decodes to an operation is run by the very next step. -/
def Obligations.StepRunsDecodedOperation : Prop :=
  (∀ (s : State) (fmt : Format) (bytes : Bytes) (rest : List HostEvent) (i : Instr),
    s.inbox = .request fmt bytes :: rest → decodeRequest fmt bytes = .ok i → step s = exec i (s.withInbox rest)) ∧
  (∀ (s : State) (nbits w : Nat) (i : Instr), decodeTableWord nbits w = some i → step (s.withFetchWord nbits w) = exec i s)

/-- With no event issued the instance stands still (the model's choice, log entry 7). -/
def Obligations.IdleInstanceStandsStill : Prop :=
  ∀ s : State, s.inbox = [] → step s = .next s

/-- R281: a later reset restores the mutable state of construction and leaves the configuration, as RSM_START and a return to IDLE
would. -/
def Obligations.LaterResetKeepsConfiguration : Prop :=
  ∀ (s : State) (rest : List HostEvent), s.inbox = .reset :: rest →
    ∃ t, step s = .next t ∧ t.params = s.params ∧ t.rsm = (State.construct s.params).rsm ∧
      ∃ u, runOps [.rsmStart, .rsmFinish] s = .next u ∧ u.rsm = t.rsm ∧ u.params = t.params

/-- R116: the 240 command codes outside the table of R115 are `Refused(ILLEGAL_COMMAND)`, whatever follows them, and no state
changes. -/
def Obligations.UnassignedCodeIsIllegalCommand : Prop :=
  (∀ (s : State) (code : Byte) (bs : Bytes) (rest : List HostEvent),
    code ∉ [0x01, 0x10, 0x11, 0x12, 0x20, 0x21, 0x22, 0x23, 0x30, 0x31, 0x32, 0x33, 0x40, 0x41, 0x42, 0x43] →
    s.inbox = .request .cmd8 (code :: bs) :: rest →
    step s = .next ((s.withInbox rest).answered (.refused .illegalCommand))) ∧
  ((List.range 256).filter fun n => Opcode.ofCode (BitVec.ofNat 8 n) = none).length = 240

/-- Words written out from the tables of R96, R104 and R115 decode to the operation they stand for. -/
def Obligations.WrittenOutWordsDecode : Prop :=
  decodeRequest .cmd8 [0x01, 0x00, 0x00, 0x00, 0x04] = .ok (.ptLookup 4) ∧
  decodeRequest .cmd8 [0x23, 0x03, 0x44, 0x32, 0xA1] = .ok (.segDecode [0x44, 0x32, 0xA1]) ∧
  decodeRequest .cmd8 [0x30, 0x80, 0x80, 0x08] = .ok (.segTag 131072) ∧
  decodeRequest .cmd8 [0x32, 0x01, 0x78, 0x01] = .ok (.filterOne [0x78] true) ∧
  decodeRequest .cmd8 [0x40] = .ok .rsmStart ∧
  decodeRequest .cmd8 [0x43, 0x02, 0x01, 0x78, 0x00] = .ok (.reassemble [[0x78], []]) ∧
  decodeRequest .wire128 [0x13, 0, 0, 0, 0, 7, 0x65, 0x4F, 0x8A, 0x10, 0, 0, 0, 1, 0xBE, 0xEF] =
    .ok (.admissionHeader ⟨1, 3, 7, 0x654F8A10, 1, 0xBEEF⟩ 0) ∧
  decodeRequest .wire128Low [0, 0x13, 0, 0, 0, 7, 0x65, 0x4F, 0x8A, 0x10, 0, 0, 0, 1, 0xBE, 0xEF] =
    .ok (.admissionHeaderLow ⟨1, 3, 7, 0x654F8A10, 1, 0xBEEF⟩ 0) ∧
  decodeRequest .wire448
      ([0x44, 0x32, 0x01, 0x02, 0x03, 0x04, 0, 0, 0, 5, 0, 0, 0, 9, 0x01, 0x03, 0, 0, 0, 2, 0, 0, 0, 3] ++ List.replicate 31 0xBA ++ [0xAD]) =
    .ok (.segmentHeader ⟨0x01020304, 5, 9, 1, 3, 2, 3, List.replicate 31 0xBA ++ [0xAD]⟩)

/-- Decoding the encoding of any well-formed operation gives it back, with every operand. -/
def Obligations.DecodeOfEncodeIsIdentity : Prop :=
  ∀ i : Instr, i.wf = true → decodeRequest (encodeRequest i).1 (encodeRequest i).2 = .ok i

/-- A request that decodes has one meaning and one spelling: encoding the decoded operation gives the same bytes, and the operation
is well formed. -/
def Obligations.EncodeOfDecodeIsIdentity : Prop :=
  ∀ (fmt : Format) (bytes : Bytes) (i : Instr), decodeRequest fmt bytes = .ok i → encodeRequest i = (fmt, bytes) ∧ i.wf = true

/-- R96, R104, R121: an admission word of either layout runs to the record that ADM_DECODE gives for its sixteen bytes under that
layout; a segment word runs to the header that SEG_DECODE gives for its bytes with a payload behind them, any payload under REMAINDER and
any of at least `payloadLength` bytes under EXPLICIT; and 56 bytes without the magic are FormatError(SEG_MAGIC) as a word too (that such a
word runs at all, and this answer, are the model's choice, log entry 2). -/
def Obligations.WireWordsAgreeWithCodecs : Prop :=
  (∀ (s : State) (h : AdmissionHeader) (rsv : U8),
    exec (.admissionHeader h rsv) s = .next (s.answered (.admHeader h)) ∧
    exec (.admissionHeaderLow h rsv) s = .next (s.answered (.admHeader h))) ∧
  (∀ (s : State) (h : SegmentHeader), exec (.segmentHeader h) s = .next (s.answered (.segHeader h))) ∧
  (∀ (s : State) (B : Bytes), B.length = 16 → s.params.vtLayout = .high →
    ∃ h rsv, decodeRequest .wire128 B = .ok (.admissionHeader h rsv) ∧
      exec (.admissionHeader h rsv) s = .next (s.answered (.admHeader h)) ∧
      exec (.admDecode B) s = .next (s.answered (.admHeader h))) ∧
  (∀ (s : State) (B : Bytes), B.length = 16 → s.params.vtLayout = .low →
    ∃ h rsv, decodeRequest .wire128Low B = .ok (.admissionHeaderLow h rsv) ∧
      exec (.admissionHeaderLow h rsv) s = .next (s.answered (.admHeader h)) ∧
      exec (.admDecode B) s = .next (s.answered (.admHeader h))) ∧
  (∀ (s : State) (B payload : Bytes), B.length = 56 → B.take 2 = [0x44, 0x32] → s.params.payloadSlice = .remainder →
    ∃ h, decodeRequest .wire448 B = .ok (.segmentHeader h) ∧
      exec (.segmentHeader h) s = .next (s.answered (.segHeader h)) ∧
      exec (.segDecode (B ++ payload)) s = .next (s.answered (.segment h payload))) ∧
  (∀ (s : State) (B payload : Bytes), B.length = 56 → B.take 2 = [0x44, 0x32] → s.params.payloadSlice = .explicit →
    ∃ h, decodeRequest .wire448 B = .ok (.segmentHeader h) ∧
      exec (.segmentHeader h) s = .next (s.answered (.segHeader h)) ∧
      (h.payloadLength.toNat ≤ payload.length → exec (.segDecode (B ++ payload)) s =
        .next (s.answered (.segment h (payload.take h.payloadLength.toNat))))) ∧
  (∀ (s : State) (B : Bytes) (rest : List HostEvent), B.length = 56 → B.take 2 ≠ [0x44, 0x32] →
    s.inbox = .request .wire448 B :: rest →
    step s = .next ((s.withInbox rest).answered (.formatError .segMagic)) ∧
      exec (.segDecode B) s = .next (s.answered (.formatError .segMagic)))

/-! ### The policy table -/

/-- R131, R132, R135: PT_LOOKUP returns the level of the key that equals the operand in all 32 bits and `none` when there is none; a key
has one level, of the width `LEVEL`; with the default table the keys are 1 to 4. -/
def Obligations.PolicyLookupIsExactKeyMatch : Prop :=
  (∀ (s : State) (id : U32),
    (∀ l, (id, l) ∈ s.params.policyTable.rows →
      exec (.ptLookup id) s = .next (s.answered (.level (some l))) ∧ l < 2 ^ s.params.levelWidth ∧
      ∀ l', (id, l') ∈ s.params.policyTable.rows → l' = l) ∧
    ((∀ row ∈ s.params.policyTable.rows, row.1 ≠ id) → exec (.ptLookup id) s = .next (s.answered (.level none)))) ∧
  (∀ id : U32, exec (.ptLookup id) State.reset =
    .next (State.reset.answered (.level (if 1 ≤ id.toNat ∧ id.toNat ≤ 4 then some (id.toNat - 1) else none))))

/-! ### The admission header codec and the admission gate -/

/-- R94, R141: ADM_DECODE of exactly sixteen bytes assembles the six fields under either layout, dropping the reserved bits, and any
other length is FormatError(ADM_LENGTH). -/
def Obligations.AdmDecodeAssemblesFields : Prop :=
  (∀ (s : State) (B : Bytes), B.length ≠ 16 → exec (.admDecode B) s = .next (s.answered (.formatError .admLength))) ∧
  (∀ (s : State) (B : Bytes), B.length = 16 →
    ∃ h : AdmissionHeader, exec (.admDecode B) s = .next (s.answered (.admHeader h)) ∧
      h.sequence = fieldAt B 2 ∧ h.timestamp = fieldAt B 6 ∧ h.policyId = fieldAt B 10 ∧
      h.checksum = byteAt B 14 ++ byteAt B 15 ∧
      (s.params.vtLayout = .high → h.version = (byteAt B 0).extractLsb' 4 4 ∧ h.pktType = (byteAt B 0).extractLsb' 0 4) ∧
      (s.params.vtLayout = .low → h.version = (byteAt B 1).extractLsb' 4 4 ∧ h.pktType = (byteAt B 1).extractLsb' 0 4))

/-- R142: ADM_ENCODE writes sixteen bytes, the reserved byte 0 where the layout puts it, the checksum as given. -/
def Obligations.AdmEncodeWritesSixteenBytes : Prop :=
  ∀ (s : State) (h : AdmissionHeader),
    exec (.admEncode h) s = .next (s.answered (.bytes
      ((match s.params.vtLayout with
        | .high => [h.version ++ h.pktType, 0x00]
        | .low => [0x00, h.version ++ h.pktType]) ++
       wireBytes h.sequence ++ wireBytes h.timestamp ++ wireBytes h.policyId ++
       [h.checksum.extractLsb' 8 8, h.checksum.extractLsb' 0 8])))

/-- R143: the round-trip laws of the admission codec. -/
def Obligations.AdmissionCodecRoundTrips : Prop :=
  ∀ s : State,
    (∀ h : AdmissionHeader, ∃ B, exec (.admEncode h) s = .next (s.answered (.bytes B)) ∧ B.length = 16 ∧
      exec (.admDecode B) s = .next (s.answered (.admHeader h))) ∧
    (∀ B : Bytes, B.length = 16 → ∃ h, exec (.admDecode B) s = .next (s.answered (.admHeader h)) ∧
      exec (.admEncode h) s = .next (s.answered (.bytes (B.set (if s.params.vtLayout = .high then 1 else 0) 0x00))))

/-- R250: ADMIT's three tests in their fixed order, the first that fires decides, and otherwise the packet is forwarded with the
clock value given. -/
def Obligations.AdmitTestsInFixedOrder : Prop :=
  ∀ (s : State) (P : Bytes) (now : Time),
    (P.length < 16 → exec (.admitPacket P now) s = .next (s.answered (.decision (.drop .tooShort)))) ∧
    (16 ≤ P.length → versionOf s.params.vtLayout P ≠ 1 →
      exec (.admitPacket P now) s = .next (s.answered (.decision (.drop (.badVersion (versionOf s.params.vtLayout P)))))) ∧
    (16 ≤ P.length → versionOf s.params.vtLayout P = 1 → (∀ row ∈ s.params.policyTable.rows, row.1 ≠ fieldAt P 10) →
      exec (.admitPacket P now) s = .next (s.answered (.decision (.drop (.policyRejected (fieldAt P 10)))))) ∧
    (16 ≤ P.length → versionOf s.params.vtLayout P = 1 → (∃ row ∈ s.params.policyTable.rows, row.1 = fieldAt P 10) →
      exec (.admitPacket P now) s = .next (s.answered (.decision (.forward (fieldAt P 10) now))))

/-- R148: the decision class is a function of `len(P) < 16`, the version, the policy id and the table alone; the clock value, the
other header bytes, the rest of the packet and everything an earlier operation left do not influence it. -/
def Obligations.AdmissionDecisionIsDetermined : Prop :=
  ∀ (s s' : State) (P P' : Bytes) (now now' : Time) (d d' : Decision),
    s'.params.policyTable = s.params.policyTable →
    (P.length < 16 ↔ P'.length < 16) →
    versionOf s'.params.vtLayout P' = versionOf s.params.vtLayout P →
    fieldAt P' 10 = fieldAt P 10 →
    exec (.admitPacket P now) s = .next (s.answered (.decision d)) →
    exec (.admitPacket P' now') s' = .next (s'.answered (.decision d')) →
    d'.untimed = d.untimed

/-! ### The digest unit and the segment header codec -/

/-- R161, R162, R163: DIGEST_GEN gives 32 bytes that depend on the payload and the configured function alone, and DIGEST_VERIFY is
true exactly of those 32 bytes. -/
def Obligations.DigestVerifyAcceptsExactlyTheDigest : Prop :=
  ∀ (s : State) (p : Bytes), ∃ d : Bytes, d.length = 32 ∧
    (∀ s' : State, s'.params.digest = s.params.digest → exec (.digestGen p) s' = .next (s'.answered (.bytes d))) ∧
    (∀ c : Bytes, exec (.digestVerify p c) s = .next (s.answered (.bool (decide (c = d)))))

/-- R104, R165: SEG_ENCODE writes the 448-bit header pattern, most significant bit first, with the payload's length and digest, and
then the payload. -/
def Obligations.SegEncodeWritesHeaderAndPayload : Prop :=
  ∀ (s : State) (segmentId seqNum total : U32) (sens hint : U8) (policyId : U32) (p : Bytes), p.length < 2 ^ 32 →
    ∃ b c : Bytes, exec (.segEncode segmentId seqNum total sens hint policyId p) s = .next (s.answered (.bytes b)) ∧
      exec (.digestGen p) s = .next (s.answered (.bytes c)) ∧
      b = beBytes 56 (encodeWire448 ⟨segmentId, seqNum, total, sens, hint, policyId, BitVec.ofNat 32 p.length, c⟩) ++ p

/-- R166: a payload longer than 2^32 − 1 bytes is refused. -/
def Obligations.SegEncodeRefusesLongPayload : Prop :=
  ∀ (s : State) (segmentId seqNum total : U32) (sens hint : U8) (policyId : U32) (p : Bytes), p.length > 2 ^ 32 - 1 →
    exec (.segEncode segmentId seqNum total sens hint policyId p) s = .next (s.answered (.refused .payloadTooLong))

/-- R251: SEG_DECODE's tests in their fixed order, the first that fires is reported. -/
def Obligations.SegDecodeTestsInFixedOrder : Prop :=
  ∀ (s : State) (B : Bytes),
    (B.length < 56 → exec (.segDecode B) s = .next (s.answered (.formatError .segLength))) ∧
    (56 ≤ B.length → B.take 2 ≠ [0x44, 0x32] → exec (.segDecode B) s = .next (s.answered (.formatError .segMagic))) ∧
    (56 ≤ B.length → B.take 2 = [0x44, 0x32] → s.params.payloadSlice = .explicit → B.length - 56 < (fieldAt B 20).toNat →
      exec (.segDecode B) s = .next (s.answered (.formatError .segTruncated))) ∧
    (∀ A : Bytes, A.length ≠ 16 ↔ exec (.admDecode A) s = .next (s.answered (.formatError .admLength)))

/-- R102, R103, R167: a buffer that passes the tests decodes to the fields at their offsets and the payload its slicing mode cuts:
exactly `payloadLength` bytes under EXPLICIT, with whatever follows ignored, and the rest of the buffer under REMAINDER. -/
def Obligations.SegDecodeReadsFieldsAndPayload : Prop :=
  ∀ (s : State) (B : Bytes), 56 ≤ B.length → B.take 2 = [0x44, 0x32] →
    (s.params.payloadSlice = .explicit → 56 + (fieldAt B 20).toNat ≤ B.length) →
    exec (.segDecode B) s = .next (s.answered (.segment
      ⟨fieldAt B 2, fieldAt B 6, fieldAt B 10, byteAt B 14, byteAt B 15, fieldAt B 16, fieldAt B 20, (B.drop 24).take 32⟩
      (match s.params.payloadSlice with
        | .explicit => (B.drop 56).take (fieldAt B 20).toNat
        | .remainder => B.drop 56)))

/-- R170: the round-trip laws of the segment codec, in both slicing modes, and their converse under EXPLICIT. -/
def Obligations.SegmentCodecRoundTrips : Prop :=
  (∀ (s : State) (segmentId seqNum total : U32) (sens hint : U8) (policyId : U32) (p : Bytes), p.length ≤ 2 ^ 32 - 1 →
    ∃ b c : Bytes, exec (.segEncode segmentId seqNum total sens hint policyId p) s = .next (s.answered (.bytes b)) ∧
      exec (.digestGen p) s = .next (s.answered (.bytes c)) ∧
      exec (.segDecode b) s =
        .next (s.answered (.segment ⟨segmentId, seqNum, total, sens, hint, policyId, BitVec.ofNat 32 p.length, c⟩ p)) ∧
      exec (.digestVerify p c) s = .next (s.answered (.bool true))) ∧
  (∀ (s : State) (B : Bytes) (h : SegmentHeader) (p : Bytes), s.params.payloadSlice = .explicit →
    exec (.segDecode B) s = .next (s.answered (.segment h p)) →
    exec (.digestGen p) s = .next (s.answered (.bytes h.checksum)) →
    exec (.segEncode h.segmentId h.seqNum h.totalSegments h.sensitivity h.opHint h.policyId p) s =
      .next (s.answered (.bytes (B.take (56 + h.payloadLength.toNat)))))

/-- R171: whether SEG_DECODE succeeds depends on the buffer's length, its first two bytes and, under EXPLICIT, bytes 20 to 23; and what
it returns depends on the header and the payload slice alone. -/
def Obligations.SegDecodeSuccessReadsNoPayload : Prop :=
  (∀ (s : State) (B B' : Bytes) (h : SegmentHeader) (p : Bytes), B'.length = B.length → B'.take 2 = B.take 2 →
    (s.params.payloadSlice = .explicit → (B'.drop 20).take 4 = (B.drop 20).take 4) →
    exec (.segDecode B) s = .next (s.answered (.segment h p)) →
    ∃ h' p', exec (.segDecode B') s = .next (s.answered (.segment h' p'))) ∧
  (∀ (s : State) (B B' : Bytes) (h : SegmentHeader) (p : Bytes), s.params.payloadSlice = .explicit →
    exec (.segDecode B) s = .next (s.answered (.segment h p)) →
    B'.take (56 + h.payloadLength.toNat) = B.take (56 + h.payloadLength.toNat) →
    exec (.segDecode B') s = .next (s.answered (.segment h p)))

/-! ### The segmenter -/

/-- R191: chunks that start below byte 131072 are tagged LegalProhibited and Inspect, all others Public and Store. -/
def Obligations.TagDependsOnStartingOffset : Prop :=
  ∀ (s : State) (offset : Nat),
    exec (.segTag offset) s = .next (s.answered (if offset < 131072 then .tag 0x02 0x02 else .tag 0x00 0x00))

/-- R194: the three operand values SPLIT refuses, before producing anything, and every other combination is accepted. -/
def Obligations.SplitRefusesUnfitOperands : Prop :=
  ∀ (s : State) (data : Bytes) (S : Nat) (policyId segmentId : U32),
    (S = 0 → exec (.split data (some S) policyId segmentId) s = .next (s.answered (.refused .segmentSizeZero))) ∧
    (S > 2 ^ 32 - 1 → exec (.split data (some S) policyId segmentId) s = .next (s.answered (.refused .segmentSizeTooLarge))) ∧
    (0 < S → S ≤ 2 ^ 32 - 1 → (2 ^ 32 - 1) * S < data.length →
      exec (.split data (some S) policyId segmentId) s = .next (s.answered (.refused .tooManySegments))) ∧
    (0 < S → S ≤ 2 ^ 32 - 1 → data.length ≤ (2 ^ 32 - 1) * S →
      ∃ l, exec (.split data (some S) policyId segmentId) s = .next (s.answered (.segments l)))

/-- R193: a SPLIT whose host names no segment size uses 65536. -/
def Obligations.SplitDefaultSizeIs65536 : Prop :=
  ∀ (s : State) (data : Bytes) (policyId segmentId : U32),
    exec (.split data none policyId segmentId) s = exec (.split data (some 65536) policyId segmentId) s

/-- R196: for every segment size the host names and data that SPLIT accepts (R194), its result has `n = ceil_div(L, S)` elements (the least n with
n × S ≥ L); element i decodes, in either slicing mode, to `seqNum = i`, `totalSegments = n`, the ids given,
`payloadLength = min(S, L − i × S)`, the tags of its offset and the digest of its payload, no field truncated; and the payloads in list
order concatenate to the data. -/
def Obligations.SplitCoversTheData : Prop :=
  ∀ (s : State) (data : Bytes) (S : Nat) (policyId segmentId : U32), 0 < S → S ≤ 2 ^ 32 - 1 → data.length ≤ (2 ^ 32 - 1) * S →
    ∃ l : List Bytes, exec (.split data (some S) policyId segmentId) s = .next (s.answered (.segments l)) ∧
    data.length ≤ l.length * S ∧ (∀ m, data.length ≤ m * S → l.length ≤ m) ∧
    ∃ payloads : List Bytes, payloads.length = l.length ∧ payloads.flatten = data ∧
      ∀ (i : Nat) (b p : Bytes), l[i]? = some b → payloads[i]? = some p →
        p.length = min S (data.length - i * S) ∧
        ∃ c : Bytes, exec (.digestGen p) s = .next (s.answered (.bytes c)) ∧
          exec (.segDecode b) s = .next (s.answered (.segment
            ⟨segmentId, BitVec.ofNat 32 i, BitVec.ofNat 32 l.length, if i * S < 131072 then 0x02 else 0x00,
             if i * S < 131072 then 0x02 else 0x00, policyId, BitVec.ofNat 32 p.length, c⟩ p)) ∧
          i < 2 ^ 32 ∧ l.length < 2 ^ 32 ∧ p.length < 2 ^ 32

/-- R192: SPLIT tags the first `min(n, ceil_div(131072, S))` segments LegalProhibited and every other segment Public, with the hints
Inspect and Store, and produces neither Restricted nor Compute. -/
def Obligations.SplitTagsTheFirstSegments : Prop :=
  ∀ (s : State) (data : Bytes) (S : Nat) (policyId segmentId : U32) (l : List Bytes),
    exec (.split data (some S) policyId segmentId) s = .next (s.answered (.segments l)) →
    ∃ k, 131072 ≤ k * S ∧ (∀ m, 131072 ≤ m * S → k ≤ m) ∧
      l.map (fun b => (byteAt b 14, byteAt b 15)) =
        List.replicate (min l.length k) (0x02, 0x02) ++ List.replicate (l.length - k) (0x00, 0x00)

/-! ### The governance filter -/

/-- R197, R198: FILTER_ONE forwards every buffer unexamined at a node that is not external; at an external node it drops a buffer whose
sensitivity is 2 or more, forwards any other that decodes, and reports one that does not. -/
def Obligations.FilterDropsProhibitedAtExternalNode : Prop :=
  ∀ (s : State) (B : Bytes),
    exec (.filterOne B false) s = .next (s.answered (.verdict (.forward B))) ∧
    (∀ h p, exec (.segDecode B) s = .next (s.answered (.segment h p)) →
      exec (.filterOne B true) s =
        .next (s.answered (.verdict (if 2 ≤ h.sensitivity.toNat then .drop else .forward B)))) ∧
    (∀ sub, exec (.segDecode B) s = .next (s.answered (.formatError sub)) →
      exec (.filterOne B true) s = .next (s.answered (.verdict (.malformed sub))))

/-- R199: ENFORCE forwards, in input order, exactly the buffers FILTER_ONE forwards, counts the others by kind, and always goes to the
end of the list. -/
def Obligations.EnforceForwardsExactlyTheSubset : Prop :=
  ∀ (s : State) (segs : List Bytes) (ext : Bool), ∃ out : Enforced,
    exec (.enforce segs ext) s = .next (s.answered (.enforced out)) ∧
    out.forwarded = segs.filter (fun B => filterOne s.params.payloadSlice B ext = .forward B) ∧
    out.droppedCount = segs.countP (fun B => filterOne s.params.payloadSlice B ext = .drop) ∧
    out.forwarded.length + out.droppedCount + out.malformedCount = segs.length

/-- R201: of buffers that all decode, an external hop forwards exactly those with sensitivity below LegalProhibited, in order, and drops
the others; a hop that is not external forwards every buffer unchanged. -/
def Obligations.EnforceForwardsBelowLegalProhibited : Prop :=
  (∀ (s : State) (segs : List Bytes),
    (∀ B ∈ segs, ∃ h p, exec (.segDecode B) s = .next (s.answered (.segment h p))) →
    exec (.enforce segs true) s = .next (s.answered (.enforced
      ⟨segs.filter (fun B => (byteAt B 14).toNat < 2), segs.countP (fun B => 2 ≤ (byteAt B 14).toNat), 0⟩))) ∧
  (∀ (s : State) (segs : List Bytes), exec (.enforce segs false) s = .next (s.answered (.enforced ⟨segs, 0, 0⟩)))

/-- R200: what a hop forwards is a subsequence of its input, an external hop after another removes nothing more, and an external hop
anywhere in a chain removes every decodable segment of sensitivity 2 or more from everything downstream. -/
def Obligations.ExternalHopIsMonotoneAndIdempotent : Prop :=
  (∀ (s : State) (segs : List Bytes) (ext : Bool), ∃ out : Enforced, exec (.enforce segs ext) s = .next (s.answered (.enforced out)) ∧
    out.forwarded.Sublist segs ∧
    (ext = true → exec (.enforce out.forwarded true) s = .next (s.answered (.enforced ⟨out.forwarded, 0, 0⟩)))) ∧
  (∀ (s : State) (segs : List Bytes) (before after : List Bool),
    ∀ B ∈ hopChain s.params.payloadSlice (before ++ true :: after) segs, ∀ h p,
      exec (.segDecode B) s = .next (s.answered (.segment h p)) → h.sensitivity.toNat < 2)

/-- R202, R236: the filter's verdict on two buffers is of one kind whenever they agree in length, in bytes 0, 1 and 14 and, under EXPLICIT,
in bytes 20 to 23; it reads neither the policy table nor the segment's policy id, and verifies no checksum. -/
def Obligations.FilterVerdictReadsListedBytes : Prop :=
  ∀ (s s' : State) (B B' : Bytes) (ext : Bool) (v v' : FilterVerdict),
    s'.params.payloadSlice = s.params.payloadSlice → B'.length = B.length → B'.take 2 = B.take 2 → byteAt B' 14 = byteAt B 14 →
    (s.params.payloadSlice = .explicit → (B'.drop 20).take 4 = (B.drop 20).take 4) →
    exec (.filterOne B ext) s = .next (s.answered (.verdict v)) → exec (.filterOne B' ext) s' = .next (s'.answered (.verdict v')) →
    (v = .forward B ↔ v' = .forward B') ∧ (v = .drop ↔ v' = .drop) ∧ ∀ sub, v = .malformed sub ↔ v' = .malformed sub

/-! ### The reassembly store -/

/-- R213: the transitions of the reassembly store, complete, with the other state each writes. -/
def Obligations.StoreTransitionsAreTheTable : Prop :=
  ∀ s : State,
    -- reset
    (∀ rest, s.inbox = .reset :: rest → ∃ t, step s = .next t ∧ t.rsm = ⟨.idle, none, [], 0⟩) ∧
    -- RSM_START, from any state
    exec .rsmStart s = .next (s.answeredRsm ⟨.collecting, none, [], 0⟩ .ok) ∧
    -- RSM_PUSH and RSM_FINISH in IDLE
    (s.rsm.phase = .idle → (∀ B, exec (.rsmPush B) s = .next (s.answered (.refused .rsmNotStarted))) ∧
      exec .rsmFinish s = .next (s.answered (.refused .rsmNotStarted))) ∧
    -- RSM_PUSH in COLLECTING
    (s.rsm.phase = .collecting → ∀ B,
      (∀ h p, exec (.segDecode B) s = .next (s.answered (.segment h p)) →
        (exec (.digestVerify p h.checksum) s = .next (s.answered (.bool true)) →
          (∀ m, s.params.maxSegments = some m → s.rsm.entries.length + 1 ≤ m) →
          (∀ m, s.params.maxBytes = some m → (s.rsm.entries.map fun e => e.payload.length).sum + p.length ≤ m) →
          ∃ k, exec (.rsmPush B) s = .next (s.answeredRsm ⟨.collecting, some (s.rsm.expected.getD h.totalSegments),
            s.rsm.entries.take k ++ [⟨h.seqNum, p⟩] ++ s.rsm.entries.drop k, s.rsm.skipped⟩ .ok)) ∧
        (exec (.digestVerify p h.checksum) s = .next (s.answered (.bool true)) →
          ((∃ m, s.params.maxSegments = some m ∧ m < s.rsm.entries.length + 1) ∨
           (∃ m, s.params.maxBytes = some m ∧ m < (s.rsm.entries.map fun e => e.payload.length).sum + p.length)) →
          exec (.rsmPush B) s = .next (s.answered (.refused .rsmCapacity))) ∧
        (exec (.digestVerify p h.checksum) s = .next (s.answered (.bool false)) → s.params.corruptPolicy = .skip →
          exec (.rsmPush B) s = .next (s.answeredRsm ⟨.collecting, some (s.rsm.expected.getD h.totalSegments), s.rsm.entries,
            s.rsm.skipped + 1⟩ .skipped)) ∧
        (exec (.digestVerify p h.checksum) s = .next (s.answered (.bool false)) → s.params.corruptPolicy = .abort →
          exec (.rsmPush B) s = .next (s.answeredRsm ⟨.failed (.integrity h.seqNum),
            some (s.rsm.expected.getD h.totalSegments), [], s.rsm.skipped⟩ (.integrityError h.seqNum)))) ∧
      (∀ sub, exec (.segDecode B) s = .next (s.answered (.formatError sub)) →
        exec (.rsmPush B) s = .next (s.answeredRsm ⟨.failed (.format sub), s.rsm.expected, [], s.rsm.skipped⟩ (.formatError sub)))) ∧
    -- RSM_PUSH in FAILED
    (∀ e, s.rsm.phase = .failed e → ∀ B, exec (.rsmPush B) s = .next (s.answered
      (match e with | .format sub => .formatError sub | .integrity q => .integrityError q))) ∧
    -- RSM_FINISH in COLLECTING and in FAILED
    (s.rsm.Inv s.params → s.rsm.phase ≠ .idle → ∃ r, exec .rsmFinish s = .next (s.answeredRsm ⟨.idle, none, [], 0⟩ r))

/-- R218: a verified segment is inserted so that the store stays in ascending unsigned order of `seqNum` and equal numbers keep their
push order; duplicates are all kept: the gap test counts distinct numbers, and every entry contributes its payload to the output. -/
def Obligations.PushIsStableInsertion : Prop :=
  ∀ (s t : State) (B : Bytes) (h : SegmentHeader) (p : Bytes), s.rsm.Inv s.params → s.rsm.phase = .collecting →
    exec (.segDecode B) s = .next (s.answered (.segment h p)) →
    exec (.rsmPush B) s = .next t → t.result = some .ok →
    t.rsm.entries.Pairwise (fun a b => a.seqNum.toNat ≤ b.seqNum.toNat) ∧
    (∀ q : U32, t.rsm.entries.filter (fun e => e.seqNum = q) =
      s.rsm.entries.filter (fun e => e.seqNum = q) ++ if h.seqNum = q then [⟨h.seqNum, p⟩] else []) ∧
    ∃ n : U32, t.rsm.expected = some n ∧
      exec .rsmFinish t = .next (t.answeredRsm ⟨.idle, none, [], 0⟩ (finishedWith n t.rsm.entries t.rsm.skipped))

/-- R215, R222: in COLLECTING, with capacity to spare, a segment of any header whatever and any payload is accepted: its entry goes after
the last one whose number is not larger, and `rsm.expected` is set if it was none. -/
def Obligations.PushAcceptsAnyEncodedSegment : Prop :=
  ∀ (s : State) (h : SegmentHeader) (p : Bytes), s.rsm.phase = .collecting → p.length < 2 ^ 32 →
    (∀ m, s.params.maxSegments = some m → s.rsm.entries.length + 1 ≤ m) →
    (∀ m, s.params.maxBytes = some m → (s.rsm.entries.map fun e => e.payload.length).sum + p.length ≤ m) →
    exec (.rsmPush (segOf s.params.digest h p)) s = .next (s.answeredRsm
      ⟨.collecting, some (s.rsm.expected.getD h.totalSegments),
       s.rsm.entries.take (s.rsm.entries.countP fun e => e.seqNum.toNat ≤ h.seqNum.toNat) ++ ⟨h.seqNum, p⟩ ::
         s.rsm.entries.drop (s.rsm.entries.countP fun e => e.seqNum.toNat ≤ h.seqNum.toNat),
       s.rsm.skipped⟩ .ok)

/-- R217, R223: RSM_FINISH in COLLECTING, after a buffer that decoded, gives the payloads in store order, the number of skipped
segments, and a warning exactly when the number of distinct `seqNum` values is below `rsm.expected`; with no buffer pushed it is
EmptyInputError; in FAILED it is the latched error. -/
def Obligations.FinishReportsDataAndGap : Prop :=
  ∀ s : State,
    (s.rsm.phase = .collecting → s.rsm.expected = none → ∃ t, exec .rsmFinish s = .next t ∧ t.result = some .emptyInput) ∧
    (∀ n : U32, s.rsm.phase = .collecting → s.rsm.expected = some n →
      exec .rsmFinish s = .next (s.answeredRsm ⟨.idle, none, [], 0⟩ (finishedWith n s.rsm.entries s.rsm.skipped))) ∧
    (∀ e, s.rsm.phase = .failed e → ∃ t, exec .rsmFinish s = .next t ∧ t.result = some e.result)

/-- R227: RSM_PUSH and RSM_FINISH with no reassembly started are refused and change no state, and so they are after reset. -/
def Obligations.PushAndFinishNeedStart : Prop :=
  (∀ (s : State), s.rsm.phase = .idle →
    (∀ B, exec (.rsmPush B) s = .next (s.answered (.refused .rsmNotStarted))) ∧
    exec .rsmFinish s = .next (s.answered (.refused .rsmNotStarted))) ∧
  State.reset.rsm.phase = .idle ∧
  (∀ (s : State) (segs : List Bytes), ∃ t, exec (.reassemble segs) s = .next t ∧ t.result ≠ some (.refused .rsmNotStarted)) ∧
  (∀ s : State, exec .rsmStart s = .next (s.answeredRsm ⟨.collecting, none, [], 0⟩ .ok))

/-- R256: FAILED is left by RSM_FINISH, to IDLE and reporting the latched error, by RSM_START, to COLLECTING, or by reset; a further push
leaves it as it is and can neither replace nor stack an error; and no other operation but REASSEMBLE, which contains RSM_START, touches it. -/
def Obligations.FailedIsStickyUntilFinishOrStart : Prop :=
  ∀ (s : State) (e : RsmError), s.rsm.phase = .failed e →
    (∃ t, exec .rsmFinish s = .next t ∧ t.rsm.phase = .idle ∧ t.result = some e.result) ∧
    (∃ t, exec .rsmStart s = .next t ∧ t.rsm.phase = .collecting ∧ t.rsm.error = none) ∧
    (∀ rest, s.inbox = .reset :: rest → ∃ t, step s = .next t ∧ t.rsm.phase = .idle) ∧
    (∀ bufs : List Bytes, ∃ t, runOps (bufs.map .rsmPush) s = .next t ∧ t.rsm = s.rsm ∧
      (bufs ≠ [] → t.result = some e.result)) ∧
    (∀ i t, i ≠ .rsmFinish → i ≠ .rsmStart → (∀ segs, i ≠ .reassemble segs) → exec i s = .next t → t.rsm = s.rsm)

/-- R289: RSM_FINISH empties the store, so a second one without a new RSM_START is refused; the same buffer pushed twice is not noticed
and contributes its payload twice. -/
def Obligations.ConsumedOnceAndDuplicatesKept : Prop :=
  (∀ (s t : State), s.rsm.Inv s.params → exec .rsmFinish s = .next t →
    t.rsm.entries = [] ∧ exec .rsmFinish t = .next (t.answered (.refused .rsmNotStarted))) ∧
  (∀ (s : State) (B : Bytes) (h : SegmentHeader) (p : Bytes), s.params.unbounded →
    exec (.segDecode B) s = .next (s.answered (.segment h p)) →
    exec (.digestVerify p h.checksum) s = .next (s.answered (.bool true)) →
    ∃ u out, runOps [.rsmStart, .rsmPush B, .rsmPush B, .rsmFinish] s = .next u ∧ u.result = some (.reassembled out) ∧
      out.data = p ++ p)

/-- R222: RSM_PUSH looks at nothing of a segment but its sequence number, its payload and whether the digest matches: two buffers that
agree in these leave the same state, once `rsm.expected` is set or when their totals agree, whatever their ids, sensitivities, hints, policy
ids, lengths and checksums. -/
def Obligations.PushIgnoresOtherHeaderFields : Prop :=
  ∀ (s : State) (B B' : Bytes) (h h' : SegmentHeader) (p : Bytes) (b : Bool),
    s.rsm.expected.isSome ∨ h'.totalSegments = h.totalSegments →
    exec (.segDecode B) s = .next (s.answered (.segment h p)) → exec (.segDecode B') s = .next (s.answered (.segment h' p)) →
    h'.seqNum = h.seqNum →
    exec (.digestVerify p h.checksum) s = .next (s.answered (.bool b)) →
    exec (.digestVerify p h'.checksum) s = .next (s.answered (.bool b)) → exec (.rsmPush B') s = exec (.rsmPush B) s

/-- R225: under ABORT, with every segment before it sound, REASSEMBLE of a list in which one payload byte of a sound segment is changed
so that the digest changes reports the IntegrityError of that segment's `seqNum`, whatever follows. The digest hypothesis is the
instance of `DigestDetectsSingleByteChange` (R164, U2) at this change, which the spec says a proof must take as a hypothesis. -/
def Obligations.CorruptedPayloadAbortsReassembly : Prop :=
  ∀ (s : State) (before after : List Bytes) (B : Bytes) (h : SegmentHeader) (p : Bytes) (k : Nat) (b : Byte),
    s.params.corruptPolicy = .abort → s.params.unbounded →
    (∀ C ∈ before, ∃ g q, exec (.segDecode C) s = .next (s.answered (.segment g q)) ∧
      exec (.digestVerify q g.checksum) s = .next (s.answered (.bool true))) →
    exec (.segDecode B) s = .next (s.answered (.segment h p)) →
    exec (.digestVerify p h.checksum) s = .next (s.answered (.bool true)) →
    k < p.length → digestOf s.params.digest (p.set k b) ≠ digestOf s.params.digest p →
    exec (.reassemble (before ++ B.set (56 + k) b :: after)) s =
      .next (s.answeredRsm ⟨.idle, none, [], 0⟩ (.integrityError h.seqNum))

/-- R216, R217: under SKIP a list of buffers that all decode reassembles to the payloads of those that verify, in order of their numbers;
each of the others is counted in `skipped` and its number counts as missing against the first buffer's `totalSegments`, also when none
verifies. -/
def Obligations.SkipPolicyCountsCorruptedAsMissing : Prop :=
  ∀ (s : State) (first : Bytes) (rest : List Bytes) (h : SegmentHeader) (p : Bytes),
    s.params.corruptPolicy = .skip → s.params.unbounded →
    exec (.segDecode first) s = .next (s.answered (.segment h p)) →
    (∀ B ∈ rest, ∃ g q, exec (.segDecode B) s = .next (s.answered (.segment g q))) →
    exec (.reassemble (first :: rest)) s = .next (s.answeredRsm ⟨.idle, none, [], 0⟩
      (finishedWith h.totalSegments (sortEntries (soundEntries s.params.payloadSlice s.params.digest (first :: rest)))
        ((first :: rest).length - (soundEntries s.params.payloadSlice s.params.digest (first :: rest)).length)))

/-- R220: with unbounded capacity REASSEMBLE is RSM_START, a push per element and RSM_FINISH, with the result of the RSM_FINISH. -/
def Obligations.ReassembleIsItsExpansion : Prop :=
  ∀ (s : State) (segs : List Bytes), s.params.unbounded →
    exec (.reassemble segs) s = runOps (.rsmStart :: segs.map .rsmPush ++ [.rsmFinish]) s

/-- R220, R252: a push refused for capacity ends the whole REASSEMBLE with that refusal and the store empty and IDLE; whatever its
outcome, REASSEMBLE leaves the store empty and IDLE. -/
def Obligations.ReassembleRefusedForCapacity : Prop :=
  (∀ (s t u : State) (before after : List Bytes) (B : Bytes),
    runOps (.rsmStart :: before.map .rsmPush) s = .next t → exec (.rsmPush B) t = .next u →
    u.result = some (.refused .rsmCapacity) →
    exec (.reassemble (before ++ B :: after)) s = .next (s.answeredRsm ⟨.idle, none, [], 0⟩ (.refused .rsmCapacity))) ∧
  (∀ (s : State) (segs : List Bytes), ∃ r, exec (.reassemble segs) s = .next (s.answeredRsm ⟨.idle, none, [], 0⟩ r))

/-- R221: with unbounded capacity and policy ABORT, REASSEMBLE computes the source's one-call algorithm (R212): the streaming machine
and the six steps report the same error or return the same data and warning. -/
def Obligations.ReassembleEqualsReferenceAlgorithm : Prop :=
  ∀ (s : State) (segs : List Bytes), s.params.unbounded → s.params.corruptPolicy = .abort →
    exec (.reassemble segs) s =
      .next (s.answeredRsm ⟨.idle, none, [], 0⟩ (referenceReassemble s.params.payloadSlice s.params.digest segs))

/-- R226: every permutation of a SPLIT of non-empty data reassembles to the data, with no warning and nothing skipped, also in another
instance of the same digest, of unbounded capacity; and the split of empty data is the empty list, whose reassembly is EmptyInputError. -/
def Obligations.SplitThenReassembleIsIdentity : Prop :=
  (∀ (s t : State) (data : Bytes) (S : Nat) (policyId segmentId : U32) (l l' : List Bytes), data ≠ [] →
    exec (.split data (some S) policyId segmentId) s = .next (s.answered (.segments l)) → l'.Perm l →
    t.params.digest = s.params.digest → t.params.unbounded →
    exec (.reassemble l') t = .next (t.answeredRsm ⟨.idle, none, [], 0⟩ (.reassembled ⟨data, none, 0⟩))) ∧
  (∀ (s : State) (S : Nat) (policyId segmentId : U32), 0 < S → S ≤ 2 ^ 32 - 1 →
    exec (.split [] (some S) policyId segmentId) s = .next (s.answered (.segments [])) ∧
    exec (.reassemble []) s = .next (s.answeredRsm ⟨.idle, none, [], 0⟩ .emptyInput))

/-- R224: in an instance of the same digest and unbounded capacity, any segments of a SPLIT, in order and at least one, reassemble to their
payloads one after another, with a warning exactly when one is missing, and then to less than the data. After an external hop (R192, R200)
they reassemble to the data without the bytes of the `k = ceil_div(131072, S)` chunks that start below 131072; where those are all the
chunks, the hop forwards nothing and the reassembly is EmptyInputError. -/
def Obligations.PartialTransferCollapsesGaps : Prop :=
  (∀ (s t : State) (data : Bytes) (S : Nat) (policyId segmentId : U32) (l kept : List Bytes),
    exec (.split data (some S) policyId segmentId) s = .next (s.answered (.segments l)) → kept.Sublist l → kept ≠ [] →
    t.params.digest = s.params.digest → t.params.unbounded →
    ∃ out : Bytes, exec (.reassemble kept) t = .next (t.answeredRsm ⟨.idle, none, [], 0⟩ (.reassembled
        ⟨out, if kept.length < l.length then some ⟨BitVec.ofNat 32 l.length, kept.length⟩ else none, 0⟩)) ∧
      out = (kept.map fun B => B.drop 56).flatten ∧ (kept.length < l.length → out.length < data.length)) ∧
  (∀ (s t : State) (data : Bytes) (S : Nat) (policyId segmentId : U32) (l : List Bytes) (k : Nat),
    exec (.split data (some S) policyId segmentId) s = .next (s.answered (.segments l)) →
    131072 ≤ k * S → (∀ m, 131072 ≤ m * S → k ≤ m) → k < l.length →
    t.params.digest = s.params.digest → t.params.unbounded →
    ∃ kept : List Bytes, exec (.enforce l true) s = .next (s.answered (.enforced ⟨kept, k, 0⟩)) ∧
      exec (.reassemble kept) t = .next (t.answeredRsm ⟨.idle, none, [], 0⟩ (.reassembled
        ⟨data.drop (k * S), some ⟨BitVec.ofNat 32 l.length, l.length - k⟩, 0⟩))) ∧
  (∀ (s t : State) (data : Bytes) (S : Nat) (policyId segmentId : U32) (l : List Bytes) (k : Nat),
    exec (.split data (some S) policyId segmentId) s = .next (s.answered (.segments l)) →
    131072 ≤ k * S → (∀ m, 131072 ≤ m * S → k ≤ m) → l.length ≤ k →
    exec (.enforce l true) s = .next (s.answered (.enforced ⟨[], l.length, 0⟩)) ∧
      exec (.reassemble []) t = .next (t.answeredRsm ⟨.idle, none, [], 0⟩ .emptyInput))

/-! ### The whole machine -/

/-- R33, R40, R72, R254: what an operation leaves unchanged. Every operation leaves the parameters and the queue of events; every operation
outside unit RSM leaves the store too, so the state after it is the state before it with a new result record. -/
def Obligations.OperationFrame : Prop :=
  ∀ (i : Instr) (s : State), ∃ (rsm : Rsm) (r : Result), exec i s = .next (s.answeredRsm rsm r) ∧
    (touchesStore i = false → exec i s = .next (s.answered r))

/-- A step never writes the parameters, and takes exactly the oldest event. -/
def Obligations.StepNeverWritesParameters : Prop :=
  ∀ s t : State, step s = .next t → t.params = s.params ∧ t.inbox = s.inbox.tail

/-- R248: each of the sixteen operations that have a command code, in every state of the invariant, produces an outcome, and none outside
its row of the table; an unassigned command code produces only ILLEGAL_COMMAND. -/
def Obligations.OutcomesStayInTheTable : Prop :=
  (∀ (i : Instr) (s : State), (encodeRequest i).1 = .cmd8 → s.Inv → ∃ t r, exec i s = .next t ∧ t.result = some r ∧ allowedResult i r = true) ∧
  (∀ (s t : State) (code : Byte) (bs : Bytes) (rest : List HostEvent), Opcode.ofCode code = none →
    s.inbox = .request .cmd8 (code :: bs) :: rest → step s = .next t → t.result = some (.refused .illegalCommand))

/-- R72: operations that touch no mutable state commute: issued in either order, each gives the result it would have alone, and either
order leaves the store as it was. -/
def Obligations.StatelessOperationsCommute : Prop :=
  ∀ (i j : Instr) (s : State), touchesStore i = false → touchesStore j = false →
    ∃ ti tj tij tji, exec i s = .next ti ∧ exec j s = .next tj ∧ exec j ti = .next tij ∧ exec i tj = .next tji ∧
      tij.result = tj.result ∧ tji.result = ti.result ∧ tij.rsm = s.rsm ∧ tji.rsm = s.rsm

/-- R240, R297: no step faults; a step answers a next state when idle, for a reset, for every unassigned command code, for a 448-bit word
without the magic and for every well-formed request; and when it stops, its oldest event is a request whose bytes the model's own operand
framing cannot read, and it stops with the reason the decoder gives. The operand framing (log entry 1), that a 448-bit word without the
magic is answered (log entry 2), that an idle step stands still (log entry 7) and that a reset can be issued as an event (log entry 14) are
the model's choices, given by none of these rules. -/
def Obligations.StepStopsOnlyOnMalformedRequests : Prop :=
  (∀ s : State, (∃ t, step s = .next t) ∨ ∃ fmt bytes rest why, s.inbox = .request fmt bytes :: rest ∧
    decodeRequest fmt bytes = .error why ∧ (∀ code, why ≠ .illegalCommand code) ∧ why ≠ .notASegment ∧
    step s = .refused (.malformedRequest why)) ∧
  (∀ s : State, s.inbox = [] → ∃ t, step s = .next t) ∧
  (∀ (s : State) (rest : List HostEvent), s.inbox = .reset :: rest → ∃ t, step s = .next t) ∧
  (∀ (s : State) (code : Byte) (bs : Bytes) (rest : List HostEvent), Opcode.ofCode code = none →
    s.inbox = .request .cmd8 (code :: bs) :: rest → ∃ t, step s = .next t) ∧
  (∀ (s : State) (B : Bytes) (rest : List HostEvent), B.length = 56 → B.take 2 ≠ [0x44, 0x32] →
    s.inbox = .request .wire448 B :: rest → ∃ t, step s = .next t) ∧
  (∀ (s : State) (i : Instr) (rest : List HostEvent), i.wf = true →
    s.inbox = .request (encodeRequest i).1 (encodeRequest i).2 :: rest → ∃ t, step s = .next t ∧ exec i (s.withInbox rest) = .next t)

/-- R146, R241, R242, R247: the numbers the spec assigns to drop reasons, outcomes, FormatError sub-kinds and refusal reasons. -/
def Obligations.CodesAreTheSpecsNumbers : Prop :=
  (DropReason.tooShort.code = 1 ∧ (∀ v, (DropReason.badVersion v).code = 2) ∧ ∀ id, (DropReason.policyRejected id).code = 3) ∧
  (FormatSub.admLength.code = 1 ∧ FormatSub.segLength.code = 2 ∧ FormatSub.segMagic.code = 3 ∧ FormatSub.segTruncated.code = 4) ∧
  ([RefuseReason.illegalCommand, .payloadTooLong, .segmentSizeZero, .segmentSizeTooLarge, .tooManySegments, .rsmNotStarted,
    .rsmCapacity].map RefuseReason.code = [1, 2, 3, 4, 5, 6, 7]) ∧
  (Result.ok.code = 0 ∧ (∀ sub, (Result.formatError sub).code = 1) ∧ (∀ v, (Result.decision (.drop (.badVersion v))).code = 2) ∧
   (∀ id, (Result.decision (.drop (.policyRejected id))).code = 2) ∧ (∀ q, (Result.integrityError q).code = 3) ∧
   (∀ d w n, (Result.reassembled ⟨d, some w, n⟩).code = 4) ∧ Result.emptyInput.code = 5 ∧ ∀ r, (Result.refused r).code = 6)
end

