-- ==== Sys2Proof/Laws/Bytes.lean ====
section
/-! SUPPORT. Big-endian encoding and its inverse, and slices of concatenations. -/

namespace Sys2Proof.Machine

/-! ### Encoding -/

@[simp] theorem beBytes_length (n v : Nat) : (beBytes n v).length = n := by
  induction n with
  | zero => rfl
  | succ n ih => simp [beBytes, ih]

@[simp] theorem be16_length (v : U16) : (be16 v).length = 2 := beBytes_length 2 _
@[simp] theorem be32_length (v : U32) : (be32 v).length = 4 := beBytes_length 4 _

/-- Only the value's remainder by the field's size is written. -/
theorem beBytes_mod (n v m : Nat) (h : n ≤ m) : beBytes n (v % 256 ^ m) = beBytes n v := by
  induction n with
  | zero => rfl
  | succ n ih =>
    have hd : 256 ^ m = 256 ^ n * 256 ^ (m - n) := by rw [← pow_add]; congr 1; omega
    have h256 : 256 ∣ 256 ^ (m - n) := dvd_pow_self 256 (by omega)
    simp only [beBytes, ih (by omega)]
    congr 1
    apply BitVec.eq_of_toNat_eq
    simp only [BitVec.toNat_ofNat, show (2 : Nat) ^ 8 = 256 from rfl]
    rw [hd, Nat.mod_mul_right_div_self, Nat.mod_mod_of_dvd _ h256]

/-! ### Decoding -/

theorem foldl_beNat (a : Nat) (bs : Bytes) :
    bs.foldl (fun acc b => acc * 256 + b.toNat) a = a * 256 ^ bs.length + beNat bs := by
  unfold beNat
  induction bs generalizing a with
  | nil => simp
  | cons b bs ih =>
    simp only [List.foldl_cons, List.length_cons]
    rw [ih (a * 256 + b.toNat), ih (0 * 256 + b.toNat)]
    ring

@[simp] theorem beNat_nil : beNat [] = 0 := rfl

theorem beNat_cons (b : Byte) (bs : Bytes) : beNat (b :: bs) = b.toNat * 256 ^ bs.length + beNat bs := by
  have := foldl_beNat b.toNat bs
  simpa [beNat] using this

theorem beNat_append (as bs : Bytes) : beNat (as ++ bs) = beNat as * 256 ^ bs.length + beNat bs := by
  conv => lhs; unfold beNat
  rw [List.foldl_append, foldl_beNat]
  rfl

theorem beNat_lt (bs : Bytes) : beNat bs < 256 ^ bs.length := by
  induction bs with
  | nil => simp
  | cons b bs ih =>
    have hb : b.toNat ≤ 255 := by omega
    calc beNat (b :: bs) = b.toNat * 256 ^ bs.length + beNat bs := beNat_cons b bs
      _ < 255 * 256 ^ bs.length + 256 ^ bs.length := by
          have := Nat.mul_le_mul_right (256 ^ bs.length) hb; omega
      _ = 256 ^ (b :: bs).length := by rw [List.length_cons, pow_succ]; ring

/-- R16: a value that fits is read back. -/
theorem beNat_beBytes (n v : Nat) (h : v < 256 ^ n) : beNat (beBytes n v) = v := by
  induction n generalizing v with
  | zero => simp at h; simp [beBytes, h]
  | succ n ih =>
    have hq : v / 256 ^ n < 256 := Nat.div_lt_of_lt_mul (by rw [← pow_succ]; exact h)
    have hr : v % 256 ^ n < 256 ^ n := Nat.mod_lt _ (by positivity)
    rw [beBytes, beNat_cons, beBytes_length, ← beBytes_mod n v n le_rfl, ih _ hr, BitVec.toNat_ofNat, Nat.mod_eq_of_lt hq]
    exact Nat.div_add_mod' v (256 ^ n)

/-- R16: bytes that are read are written back. -/
theorem beBytes_beNat (bs : Bytes) : beBytes bs.length (beNat bs) = bs := by
  induction bs with
  | nil => rfl
  | cons b bs ih =>
    have hlt := beNat_lt bs
    have hdiv : beNat (b :: bs) / 256 ^ bs.length = b.toNat := by
      rw [beNat_cons, mul_comm, Nat.mul_add_div (by positivity), Nat.div_eq_of_lt hlt, add_zero]
    have hmod : beNat (b :: bs) % 256 ^ bs.length = beNat bs := by
      rw [beNat_cons, Nat.mul_add_mod_self_right, Nat.mod_eq_of_lt hlt]
    rw [List.length_cons, beBytes, hdiv, ← beBytes_mod _ _ bs.length le_rfl, hmod, ih]
    simp

/-- A field of two parts, the first above the second. -/
theorem beBytes_add (m n x y : Nat) (hy : y < 256 ^ n) : beBytes (m + n) (x * 256 ^ n + y) = beBytes m x ++ beBytes n y := by
  induction m with
  | zero =>
    rw [Nat.zero_add, ← beBytes_mod n _ n le_rfl, Nat.mul_add_mod_self_right, Nat.mod_eq_of_lt hy]; rfl
  | succ m ih =>
    rw [show m + 1 + n = (m + n) + 1 by omega, beBytes, ih, beBytes, List.cons_append]
    congr 2
    rw [pow_add, mul_comm (256 ^ m), ← Nat.div_div_eq_div_mul, mul_comm x, Nat.mul_add_div (by positivity),
      Nat.div_eq_of_lt hy, add_zero]

/-! ### 16 and 32 bits -/

@[simp] theorem beNat_be16 (v : U16) : beNat (be16 v) = v.toNat := beNat_beBytes 2 _ (by omega)
@[simp] theorem beNat_be32 (v : U32) : beNat (be32 v) = v.toNat := beNat_beBytes 4 _ (by omega)

theorem be16_ofNat_beNat (bs : Bytes) (h : bs.length = 2) : be16 (BitVec.ofNat 16 (beNat bs)) = bs := by
  have hlt := beNat_lt bs
  rw [be16, BitVec.toNat_ofNat, Nat.mod_eq_of_lt (by rw [h] at hlt; exact hlt)]
  exact h ▸ beBytes_beNat bs

theorem be32_ofNat_beNat (bs : Bytes) (h : bs.length = 4) : be32 (BitVec.ofNat 32 (beNat bs)) = bs := by
  have hlt := beNat_lt bs
  rw [be32, BitVec.toNat_ofNat, Nat.mod_eq_of_lt (by rw [h] at hlt; exact hlt)]
  exact h ▸ beBytes_beNat bs

/-- The four bytes of a 32-bit field, in wire order. -/
theorem be32_eq (v : U32) : be32 v = [v.extractLsb' 24 8, v.extractLsb' 16 8, v.extractLsb' 8 8, v.extractLsb' 0 8] := by
  simp only [be32, beBytes, List.cons.injEq, and_true]
  refine ⟨?_, ?_, ?_, ?_⟩ <;> apply BitVec.eq_of_toNat_eq <;> simp [Nat.shiftRight_eq_div_pow]

/-- The two bytes of a 16-bit field, in wire order. -/
theorem be16_eq (v : U16) : be16 v = [v.extractLsb' 8 8, v.extractLsb' 0 8] := by
  simp only [be16, beBytes, List.cons.injEq, and_true]
  refine ⟨?_, ?_⟩ <;> apply BitVec.eq_of_toNat_eq <;> simp [Nat.shiftRight_eq_div_pow]

/-- A 32-bit field from its four bytes. -/
theorem ofNat_beNat_four (a b c d : Byte) : BitVec.ofNat 32 (beNat [a, b, c, d]) = (a ++ b ++ c ++ d : BitVec 32) := by
  apply BitVec.eq_of_toNat_eq
  simp only [BitVec.toNat_append, BitVec.toNat_ofNat, beNat, List.foldl_cons, List.foldl_nil]
  rw [← Nat.shiftLeft_add_eq_or_of_lt (by omega), ← Nat.shiftLeft_add_eq_or_of_lt (by omega),
    ← Nat.shiftLeft_add_eq_or_of_lt (by omega)]
  simp only [Nat.shiftLeft_eq]
  omega

/-- A 16-bit field from its two bytes. -/
theorem ofNat_beNat_two (a b : Byte) : BitVec.ofNat 16 (beNat [a, b]) = (a ++ b : BitVec 16) := by
  apply BitVec.eq_of_toNat_eq
  simp only [BitVec.toNat_append, BitVec.toNat_ofNat, beNat, List.foldl_cons, List.foldl_nil]
  rw [← Nat.shiftLeft_add_eq_or_of_lt (by omega)]
  simp only [Nat.shiftLeft_eq]
  omega

/-! ### Slices -/

/-- A slice behind a prefix. -/
theorem slice_append_right (A B : Bytes) (i j : Nat) (h : A.length ≤ i) :
    slice (A ++ B) i j = slice B (i - A.length) (j - A.length) := by
  simp only [slice, List.drop_append, List.drop_of_length_le h, List.nil_append]
  congr 1; omega

/-- A slice inside a prefix. -/
theorem slice_append_left (A B : Bytes) (i j : Nat) (h : j ≤ A.length) : slice (A ++ B) i j = slice A i j := by
  rcases Nat.le_total i j with hij | hij
  · simp only [slice]
    rw [List.drop_append, List.take_append, List.length_drop, show j - i - (A.length - i) = 0 by omega, List.take_zero,
      List.append_nil]
  · simp [slice, show j - i = 0 by omega]

/-- The whole of a prefix. -/
theorem slice_prefix (A B : Bytes) (j : Nat) (h : j = A.length) : slice (A ++ B) 0 j = A := by
  subst h; simp [slice]

theorem slice_length (B : Bytes) (i j : Nat) (h : j ≤ B.length) : (slice B i j).length = j - i := by
  simp [slice]; omega

/-- Four bytes at an offset. -/
theorem slice_four (B : Bytes) (o : Nat) (h : o + 4 ≤ B.length) :
    slice B o (o + 4) = [byteAt B o, byteAt B (o + 1), byteAt B (o + 2), byteAt B (o + 3)] := by
  apply List.ext_getElem
  · simp [slice]; omega
  · intro i h1 _
    have hi : i < 4 := by simp [slice] at h1; omega
    have : (slice B o (o + 4))[i]? = some (byteAt B (o + i)) := by
      rw [slice, List.getElem?_take_of_lt (by omega), List.getElem?_drop, byteAt, List.getD_eq_getElem?_getD,
        List.getElem?_eq_getElem (show o + i < B.length by omega)]
      rfl
    rw [List.getElem?_eq_getElem h1, Option.some.injEq] at this
    rw [this]
    interval_cases i <;> rfl

/-- Two bytes at an offset. -/
theorem slice_two (B : Bytes) (o : Nat) (h : o + 2 ≤ B.length) : slice B o (o + 2) = [byteAt B o, byteAt B (o + 1)] := by
  apply List.ext_getElem
  · simp [slice]; omega
  · intro i h1 _
    have hi : i < 2 := by simp [slice] at h1; omega
    have : (slice B o (o + 2))[i]? = some (byteAt B (o + i)) := by
      rw [slice, List.getElem?_take_of_lt (by omega), List.getElem?_drop, byteAt, List.getD_eq_getElem?_getD,
        List.getElem?_eq_getElem (show o + i < B.length by omega)]
      rfl
    rw [List.getElem?_eq_getElem h1, Option.some.injEq] at this
    rw [this]
    interval_cases i <;> rfl

/-- R66: a 32-bit field is its four bytes, the first most significant. -/
theorem read32_eq (B : Bytes) (o : Nat) (h : o + 4 ≤ B.length) :
    read32 B o = (byteAt B o ++ byteAt B (o + 1) ++ byteAt B (o + 2) ++ byteAt B (o + 3) : BitVec 32) := by
  rw [read32, memRead, slice_four B o h, ofNat_beNat_four]

/-- R66: a 16-bit field is its two bytes, the first most significant. -/
theorem read16_eq (B : Bytes) (o : Nat) (h : o + 2 ≤ B.length) :
    read16 B o = (byteAt B o ++ byteAt B (o + 1) : BitVec 16) := by
  rw [read16, memRead, slice_two B o h, ofNat_beNat_two]

/-- R16: a value written that fits is read back from the same place. -/
theorem memRead_memWrite (B : Bytes) (o n v : Nat) (ho : o + n ≤ B.length) (hv : v < 256 ^ n) :
    memRead (memWrite B o n v) o n = v := by
  have hl : (B.take o).length = o := by simp; omega
  rw [memRead, memWrite, List.append_assoc, slice_append_right _ _ _ _ (by omega), hl, Nat.sub_self, Nat.add_sub_cancel_left,
    slice_prefix _ _ _ (by simp), beNat_beBytes n v hv]

/-- R16: a write leaves every byte outside it as it was. -/
theorem byteAt_memWrite (B : Bytes) (o n v i : Nat) (ho : o + n ≤ B.length) (hi : i < o ∨ o + n ≤ i) :
    byteAt (memWrite B o n v) i = byteAt B i := by
  have hl : (B.take o).length = o := by simp; omega
  simp only [byteAt, memWrite, List.getD_eq_getElem?_getD]
  rcases hi with hi | hi
  · rw [List.append_assoc, List.getElem?_append_left (by omega), List.getElem?_take_of_lt hi]
  · rw [List.getElem?_append_right (by simp; omega), List.getElem?_drop]
    congr 2; simp [hl]; omega

end Sys2Proof.Machine
end

