-- ==== Sys2Proof/Laws/Codec.lean ====
section
/-! SUPPORT. What the codec functions of the admission and segment headers do, said once: lengths, fields read back, what a
successful decode has found. -/

namespace Sys2Proof.Machine

@[simp] theorem Sha256.Words.bytes_length (w : Sha256.Words) : w.bytes.length = 32 := by
  simp [Sha256.Words.bytes]

/-- R161: the digest has 32 bytes. -/
@[simp] theorem digestOf_length (d : DigestChoice) (p : Bytes) : (digestOf d p).length = 32 := by
  cases d with
  | unspecified k => simp [digestOf]
  | sha256 => simp [digestOf, Sha256.hash]

theorem digestVerify_iff (d : DigestChoice) (p : Bytes) (c : U256) : digestVerify d p c = true ↔ c = digestOf d p := by
  simp [digestVerify, eq_comm]

/-! ### Fields -/

theorem slice_zero (B : Bytes) (j : Nat) : slice B 0 j = B.take j := by simp [slice]

theorem be32_read32 (B : Bytes) (o : Nat) (h : o + 4 ≤ B.length) : be32 (read32 B o) = slice B o (o + 4) :=
  be32_ofNat_beNat _ (by rw [slice_length _ _ _ h]; omega)

theorem be16_read16 (B : Bytes) (o : Nat) (h : o + 2 ≤ B.length) : be16 (read16 B o) = slice B o (o + 2) :=
  be16_ofNat_beNat _ (by rw [slice_length _ _ _ h]; omega)

theorem slice_append_slice (B : Bytes) (i j k : Nat) (hij : i ≤ j) (hjk : j ≤ k) : slice B i j ++ slice B j k = slice B i k := by
  simp only [slice]
  rw [show B.drop j = (B.drop i).drop (j - i) by rw [List.drop_drop]; congr 1; omega,
    show k - i = (j - i) + (k - j) by omega, List.take_add]

theorem slice_byte (B : Bytes) (i : Nat) (h : i < B.length) : slice B i (i + 1) = [byteAt B i] := by
  rw [slice, List.drop_eq_getElem_cons h, Nat.add_sub_cancel_left, byteAt, List.getD_eq_getElem _ _ h]
  rfl

theorem slice_to_end (B : Bytes) (i : Nat) : slice B i B.length = B.drop i := by
  exact List.take_of_length_le (by simp)

/-- R90: two buffers with the same four bytes at an offset have the same 32-bit field there. -/
theorem read32_congr {B B' : Bytes} {o : Nat} (h : (B'.drop o).take 4 = (B.drop o).take 4) : read32 B' o = read32 B o := by
  simp [read32, memRead, slice, h]

/-! ### The segment codec -/

theorem segBuild_length (d : DigestChoice) (a b c : U32) (e f : U8) (g : U32) (p : Bytes) :
    (segBuild d a b c e f g p).length = 56 + p.length := by
  simp [segBuild, Config.segMagic]; omega

theorem segBuild_eq_cons (d : DigestChoice) (a b c : U32) (e f : U8) (g : U32) (p : Bytes) :
    ∃ a0 a1 a2 a3 b0 b1 b2 b3 c0 c1 c2 c3 g0 g1 g2 g3 l0 l1 l2 l3 : Byte,
      be32 a = [a0, a1, a2, a3] ∧ be32 b = [b0, b1, b2, b3] ∧ be32 c = [c0, c1, c2, c3] ∧ be32 g = [g0, g1, g2, g3] ∧
      be32 (BitVec.ofNat 32 p.length) = [l0, l1, l2, l3] ∧
      segBuild d a b c e f g p = 0x44 :: 0x32 :: a0 :: a1 :: a2 :: a3 :: b0 :: b1 :: b2 :: b3 :: c0 :: c1 :: c2 :: c3 :: e :: f ::
        g0 :: g1 :: g2 :: g3 :: l0 :: l1 :: l2 :: l3 :: (digestOf d p ++ p) := by
  refine ⟨_, _, _, _, _, _, _, _, _, _, _, _, _, _, _, _, _, _, _, _, be32_eq a, be32_eq b, be32_eq c, be32_eq g, be32_eq _, ?_⟩
  simp [segBuild, Config.segMagic, be32_eq]

theorem ofNat_beNat_be32 (v : U32) : BitVec.ofNat 32 (beNat (be32 v)) = v := by simp

/-- R165, R102: the fields of a segment are what it was built from, also when bytes 56 onward are replaced. -/
theorem segFields_segBuild (d : DigestChoice) (a b c : U32) (e f : U8) (g : U32) (p rest : Bytes) :
    segFields ((segBuild d a b c e f g p).take 56 ++ rest) = ⟨a, b, c, e, f, g, BitVec.ofNat 32 p.length, digestOf d p⟩ := by
  obtain ⟨a0, a1, a2, a3, b0, b1, b2, b3, c0, c1, c2, c3, g0, g1, g2, g3, l0, l1, l2, l3, ha, hb, hc, hg, hl, h⟩ :=
    segBuild_eq_cons d a b c e f g p
  have e1 := ofNat_beNat_be32 a
  have e2 := ofNat_beNat_be32 b
  have e3 := ofNat_beNat_be32 c
  have e4 := ofNat_beNat_be32 g
  have e5 := ofNat_beNat_be32 (BitVec.ofNat 32 p.length)
  rw [ha] at e1; rw [hb] at e2; rw [hc] at e3; rw [hg] at e4; rw [hl] at e5
  rw [h]
  simp [segFields, read32, memRead, slice, byteAt, e1, e2, e3, e4, e5, List.take_append]

/-- The first bytes of a segment are the magic (R101), also when bytes 56 onward are replaced. -/
theorem magic_segBuild (d : DigestChoice) (a b c : U32) (e f : U8) (g : U32) (p rest : Bytes) :
    slice ((segBuild d a b c e f g p).take 56 ++ rest) 0 2 = Config.segMagic := by
  obtain ⟨a0, a1, a2, a3, b0, b1, b2, b3, c0, c1, c2, c3, g0, g1, g2, g3, l0, l1, l2, l3, -, -, -, -, -, h⟩ :=
    segBuild_eq_cons d a b c e f g p
  rw [h]
  rfl

/-- A segment is its 56 bytes of header and its payload (R103). -/
theorem segBuild_split (d : DigestChoice) (a b c : U32) (e f : U8) (g : U32) (p : Bytes) :
    (segBuild d a b c e f g p).take 56 ++ p = segBuild d a b c e f g p ∧ ((segBuild d a b c e f g p).take 56).length = 56 := by
  have hl := segBuild_length d a b c e f g p
  have hd : (segBuild d a b c e f g p).drop 56 = p := by
    obtain ⟨a0, a1, a2, a3, b0, b1, b2, b3, c0, c1, c2, c3, g0, g1, g2, g3, l0, l1, l2, l3, -, -, -, -, -, h⟩ :=
      segBuild_eq_cons d a b c e f g p
    rw [h]
    simp
  refine ⟨?_, by simp [hl]⟩
  conv => rhs; rw [← List.take_append_drop 56 (segBuild d a b c e f g p), hd]

/-- SEG_DECODE of a segment whose payload was replaced by one of the same length, in either slicing mode (R103, R167). -/
theorem segDecode_segBuild_replaced (mode : PayloadSlice) (d : DigestChoice) (a b c : U32) (e f : U8) (g : U32) (p q : Bytes)
    (hp : p.length < 2 ^ 32) (hq : q.length = p.length) :
    segDecode mode ((segBuild d a b c e f g p).take 56 ++ q) =
      .ok (⟨a, b, c, e, f, g, BitVec.ofNat 32 p.length, digestOf d p⟩, q) := by
  have hh := (segBuild_split d a b c e f g p).2
  have hn : (BitVec.ofNat 32 p.length).toNat = q.length := by rw [BitVec.toNat_ofNat, Nat.mod_eq_of_lt hp, hq]
  have hdrop : ((segBuild d a b c e f g p).take 56 ++ q).drop 56 = q := by
    rw [List.drop_append_of_le_length (by omega), List.drop_of_length_le (by omega), List.nil_append]
  unfold segDecode
  rw [if_neg (by rw [List.length_append, hh]; simp [Config.segHdrLen]), if_neg (by rw [magic_segBuild]; simp)]
  cases mode with
  | remainder => simp only [segFields_segBuild, hdrop]
  | explicit =>
    simp only [segFields_segBuild, hn]
    rw [if_neg (by rw [List.length_append, hh]; omega), slice, hdrop, Nat.add_sub_cancel_left, List.take_length]

/-- SEG_DECODE of a segment as SEG_ENCODE makes it, in either slicing mode (R170). -/
theorem segDecode_segBuild (mode : PayloadSlice) (d : DigestChoice) (a b c : U32) (e f : U8) (g : U32) (p : Bytes)
    (hp : p.length < 2 ^ 32) :
    segDecode mode (segBuild d a b c e f g p) = .ok (⟨a, b, c, e, f, g, BitVec.ofNat 32 p.length, digestOf d p⟩, p) := by
  have h := segDecode_segBuild_replaced mode d a b c e f g p p hp rfl
  rwa [(segBuild_split d a b c e f g p).1] at h

/-- What a SEG_DECODE that succeeds has found (R103, R167, R251). -/
theorem segDecode_eq_ok {mode : PayloadSlice} {B : Bytes} {hp : SegmentHeader × Bytes} (h : segDecode mode B = .ok hp) :
    56 ≤ B.length ∧ B.take 2 = Config.segMagic ∧ hp.1 = segFields B ∧
      (mode = .explicit → (segFields B).payloadLength.toNat ≤ B.length - 56 ∧
        hp.2 = (B.drop 56).take (segFields B).payloadLength.toNat) ∧
      (mode = .remainder → hp.2 = B.drop 56) := by
  unfold segDecode at h
  split at h
  · simp at h
  · next h1 =>
    split at h
    · simp at h
    · next h2 =>
      have h1 : 56 ≤ B.length := Nat.le_of_not_lt h1
      have h2 : B.take 2 = Config.segMagic := by rw [← slice_zero]; exact not_not.mp h2
      cases mode with
      | explicit =>
        simp only at h
        split at h
        · simp at h
        · next h3 =>
          obtain rfl := Except.ok.inj h
          exact ⟨h1, h2, rfl, fun _ => ⟨by omega, by simp [slice]⟩, by simp⟩
      | remainder =>
        obtain rfl := Except.ok.inj h
        exact ⟨h1, h2, rfl, by simp, fun _ => rfl⟩

/-- The three tests of SEG_DECODE passed (R251). -/
theorem segDecode_of_tests (mode : PayloadSlice) (B : Bytes) (h1 : 56 ≤ B.length) (h2 : B.take 2 = Config.segMagic)
    (h3 : mode = .explicit → 56 + (segFields B).payloadLength.toNat ≤ B.length) :
    segDecode mode B = .ok (segFields B, if mode = .explicit then (B.drop 56).take (segFields B).payloadLength.toNat else B.drop 56) := by
  unfold segDecode
  rw [if_neg (show ¬ B.length < Config.segHdrLen from Nat.not_lt.mpr h1), if_neg (by rw [slice_zero]; simp [h2])]
  cases mode with
  | explicit =>
    have := h3 rfl
    simp only
    rw [if_neg (by omega)]
    simp [slice]
  | remainder => rfl

/-- SEG_DECODE never reports ADM_LENGTH (R248). -/
theorem segDecode_ne_admLength (mode : PayloadSlice) (B : Bytes) : segDecode mode B ≠ .error .admLength := by
  unfold segDecode
  cases mode <;> repeat (first | split | simp)

/-- R170, the converse under EXPLICIT: the bytes of a header and its payload are built again from its fields. -/
theorem segBuild_of_segDecode {B : Bytes} {h : SegmentHeader} {p : Bytes} (d : DigestChoice)
    (hd : segDecode .explicit B = .ok (h, p)) (hc : h.checksum = digestOf d p) :
    segBuild d h.segmentId h.seqNum h.totalSegments h.sensitivity h.opHint h.policyId p =
      B.take (56 + h.payloadLength.toNat) ∧ p.length = h.payloadLength.toNat := by
  obtain ⟨h1, h2, h3, h4, -⟩ := segDecode_eq_ok hd
  obtain ⟨h5, h6⟩ := h4 rfl
  subst h3
  simp only at *
  have hp : p.length = (segFields B).payloadLength.toNat := by rw [h6]; simp; omega
  refine ⟨?_, hp⟩
  have hl : be32 (BitVec.ofNat 32 p.length) = slice B 20 24 := by
    rw [hp, ← be32_read32 B 20 (by omega)]; simp [segFields]
  rw [segBuild, hl, ← hc, ← h2, ← slice_zero, h6]
  simp only [segFields, be32_read32 B 2 (by omega), be32_read32 B 6 (by omega), be32_read32 B 10 (by omega),
    be32_read32 B 16 (by omega), ← slice_byte B 14 (by omega), ← slice_byte B 15 (by omega)]
  rw [show (B.drop 56).take (read32 B 20).toNat = slice B 56 (56 + (read32 B 20).toNat) by simp [slice]]
  rw [slice_append_slice B 0 2 6 (by omega) (by omega), slice_append_slice B 0 6 10 (by omega) (by omega),
    slice_append_slice B 0 10 14 (by omega) (by omega), slice_append_slice B 0 14 15 (by omega) (by omega),
    slice_append_slice B 0 15 16 (by omega) (by omega), slice_append_slice B 0 16 20 (by omega) (by omega),
    slice_append_slice B 0 20 24 (by omega) (by omega), slice_append_slice B 0 24 56 (by omega) (by omega),
    slice_append_slice B 0 56 _ (by omega) (by omega), slice_zero]


/-! ### The admission codec -/

/-- R92, R93: the two nibbles come back from the first field, in either layout. -/
theorem splitVt_joinVt (layout : VtLayout) (v t : U4) : splitVt layout (joinVt layout v t) = (v, t) := by
  cases layout <;> simp only [splitVt, joinVt, Prod.mk.injEq] <;> constructor <;> apply BitVec.eq_of_getLsbD_eq <;> intro i hi <;>
    interval_cases i <;> simp

/-- The first field as the two bytes that hold its nibbles. -/
theorem be16_joinVt (layout : VtLayout) (v t : U4) :
    be16 (joinVt layout v t) = match layout with
      | .high => [v ++ t, 0]
      | .low => [0, v ++ t] := by
  rw [be16_eq]
  cases layout <;> simp only [joinVt, List.cons.injEq, and_true] <;> constructor <;> apply BitVec.eq_of_getLsbD_eq <;> intro i hi <;>
    (try rw [BitVec.getLsbD_append]) <;> interval_cases i <;> simp

/-- The nibbles of the first field, as the nibbles of one of its bytes (R94). -/
theorem splitVt_append (layout : VtLayout) (a b : Byte) :
    splitVt layout (a ++ b : BitVec 16) = match layout with
      | .high => (a.extractLsb' 4 4, a.extractLsb' 0 4)
      | .low => (b.extractLsb' 4 4, b.extractLsb' 0 4) := by
  cases layout <;> simp only [splitVt, Prod.mk.injEq] <;> constructor <;> apply BitVec.eq_of_getLsbD_eq <;> intro i hi <;>
    rw [BitVec.getLsbD_extractLsb', BitVec.getLsbD_append] <;> interval_cases i <;> simp

/-- A byte is its two nibbles. -/
theorem nibbles_append (a : Byte) : (a.extractLsb' 4 4 ++ a.extractLsb' 0 4 : BitVec 8) = a := by
  apply BitVec.eq_of_getLsbD_eq
  intro i hi
  rw [BitVec.getLsbD_append]
  interval_cases i <;> simp

/-- R142: an encoded admission header has 16 bytes. -/
theorem admEncode_length (layout : VtLayout) (h : AdmissionHeader) : (admEncode layout h).length = 16 := by simp [admEncode]

/-- R143: decoding an encoded admission header gives it back. -/
theorem admFields_admEncode (layout : VtLayout) (h : AdmissionHeader) : admFields layout (admEncode layout h) = h := by
  have e0 : BitVec.ofNat 16 (beNat (be16 (joinVt layout h.version h.pktType))) = joinVt layout h.version h.pktType := by simp
  have e1 := ofNat_beNat_be32 h.sequence
  have e2 := ofNat_beNat_be32 h.timestamp
  have e3 := ofNat_beNat_be32 h.policyId
  have e4 : BitVec.ofNat 16 (beNat (be16 h.checksum)) = h.checksum := by simp
  rw [be16_eq] at e0 e4
  rw [be32_eq] at e1 e2 e3
  simp [admFields, admEncode, read16, read32, memRead, slice, be16_eq, be32_eq, e0, e1, e2, e3, e4, splitVt_joinVt]

/-- R143: encoding what was decoded gives the buffer back with its reserved bits cleared. -/
theorem admEncode_admFields (layout : VtLayout) (B : Bytes) (hB : B.length = 16) :
    admEncode layout (admFields layout B) = B.set (if layout = .high then 1 else 0) 0 := by
  have hv : be16 (joinVt layout (splitVt layout (read16 B 0)).1 (splitVt layout (read16 B 0)).2) =
      (B.take 2).set (if layout = .high then 1 else 0) 0 := by
    rw [be16_joinVt, read16_eq B 0 (by omega), splitVt_append, ← slice_zero, slice_two B 0 (by omega)]
    cases layout <;> simp [nibbles_append]
  simp only [admEncode, admFields, be32_read32 B 2 (by omega), be32_read32 B 6 (by omega), be32_read32 B 10 (by omega),
    be16_read16 B 14 (by omega), hv]
  simp only [List.append_assoc]
  rw [slice_append_slice B 10 14 16 (by omega) (by omega), slice_append_slice B 6 10 16 (by omega) (by omega),
    slice_append_slice B 2 6 16 (by omega) (by omega), ← hB, slice_to_end]
  conv => rhs; rw [← List.take_append_drop 2 B]
  rw [List.set_append_left]
  cases layout <;> simp [hB]

/-- R141: ADM_DECODE of sixteen bytes. -/
theorem admDecode_of_length (layout : VtLayout) (B : Bytes) (hB : B.length = 16) : admDecode layout B = .ok (admFields layout B) :=
  if_neg (not_not_intro hB)

/-- R143: `ADM_DECODE(ADM_ENCODE(h)) = h`. -/
theorem admDecode_admEncode (layout : VtLayout) (h : AdmissionHeader) : admDecode layout (admEncode layout h) = .ok h := by
  rw [admDecode_of_length _ _ (admEncode_length layout h), admFields_admEncode]

/-- R143: `ADM_ENCODE(ADM_DECODE(B))` is B with its reserved bits cleared. -/
theorem admEncode_admDecode {layout : VtLayout} {B : Bytes} {h : AdmissionHeader} (hd : admDecode layout B = .ok h) :
    admEncode layout h = B.set (if layout = .high then 1 else 0) 0 := by
  by_cases hB : B.length = 16
  · rw [admDecode_of_length _ _ hB] at hd
    cases hd
    exact admEncode_admFields layout B hB
  · rw [admDecode, if_pos (show B.length ≠ Config.admHdrLen from hB)] at hd
    cases hd

end Sys2Proof.Machine
end

