-- ==== Sys2Proof/Laws/Decode.lean ====
section
/-! SUPPORT. Reading an operand gives back what was written, with the bytes after it untouched; and what is read was written. -/

namespace Sys2Proof

open Machine

@[simp] theorem andThen_ok {α β : Type} (a : α) (bs : Bytes) (f : α → Bytes → Parsed β) : andThen (.ok (a, bs)) f = f a bs := rfl
@[simp] theorem andThen_error {α β : Type} (e : DecodeError) (f : α → Bytes → Parsed β) : andThen (.error e) f = .error e := rfl

/-- What a sequence of two reads that succeeds did. -/
theorem andThen_eq_ok {α β : Type} {r : Parsed α} {f : α → Bytes → Parsed β} {x : β × Bytes} (h : andThen r f = .ok x) :
    ∃ a bs, r = .ok (a, bs) ∧ f a bs = .ok x := by
  match r with
  | .ok (a, bs) => exact ⟨a, bs, rfl, h⟩
  | .error e => simp at h

/-! ### Writing then reading -/

@[simp] theorem takeRaw_append (a rest : Bytes) : takeRaw a.length (a ++ rest) = .ok (a, rest) := by
  simp [takeRaw]

theorem takeRaw_append' {n : Nat} (a rest : Bytes) (h : a.length = n) : takeRaw n (a ++ rest) = .ok (a, rest) := by
  subst h; simp

@[simp] theorem takeU8_cons (b : Byte) (rest : Bytes) : takeU8 (b :: rest) = .ok (b, rest) := rfl

@[simp] theorem takeU16_be16 (v : U16) (rest : Bytes) : takeU16 (be16 v ++ rest) = .ok (v, rest) := by
  rw [takeU16, takeRaw_append' _ _ (by simp)]; simp

@[simp] theorem takeU32_be32 (v : U32) (rest : Bytes) : takeU32 (be32 v ++ rest) = .ok (v, rest) := by
  rw [takeU32, takeRaw_append' _ _ (by simp)]; simp

@[simp] theorem takeU4_putU4 (v : U4) (rest : Bytes) : takeU4 (putU4 v ++ rest) = .ok (v, rest) := by
  have hv : v.toNat < 16 := v.isLt
  have hm : v.toNat % 2 ^ 8 = v.toNat := Nat.mod_eq_of_lt (by omega)
  simp only [takeU4, putU4, List.singleton_append, takeU8_cons, andThen_ok, BitVec.toNat_ofNat, hm, if_pos hv]
  simp

@[simp] theorem takeBit_putBit (b : Bool) (rest : Bytes) : takeBit (putBit b ++ rest) = .ok (b, rest) := by
  cases b <;> rfl

theorem takeNat_putNatFuel (fuel n : Nat) (rest : Bytes) (h0 : fuel ≠ 0) (h : n < 128 ^ fuel) :
    takeNat (putNatFuel fuel n ++ rest) = .ok (n, rest) := by
  induction fuel generalizing n with
  | zero => exact absurd rfl h0
  | succ fuel ih =>
    rw [putNatFuel]
    split
    · next hn => simp [takeNat, Nat.mod_eq_of_lt (show n < 256 by omega), hn]
    · next hn =>
      have hlow : (n % 128 + 128) % 2 ^ 8 = n % 128 + 128 := Nat.mod_eq_of_lt (by omega)
      have hq : n / 128 < 128 ^ fuel := Nat.div_lt_of_lt_mul (by rw [← pow_succ']; exact h)
      have hf : fuel ≠ 0 := by rintro rfl; simp at hq; omega
      have hn' : n / 128 * 128 + (n % 128 + 128 - 128) = n := by omega
      simp only [List.cons_append, takeNat, BitVec.toNat_ofNat, hlow, if_neg (show ¬ n % 128 + 128 < 128 by omega), ih _ hf hq,
        andThen_ok, if_neg (show ¬ n / 128 = 0 by omega), hn']

@[simp] theorem takeNat_putNat (n : Nat) (rest : Bytes) : takeNat (putNat n ++ rest) = .ok (n, rest) := by
  apply takeNat_putNatFuel _ _ _ (by omega)
  calc n < 2 ^ (n.log2 + 1) := Nat.lt_log2_self
    _ ≤ 128 ^ (n.log2 + 1) := Nat.pow_le_pow_left (by omega) _

@[simp] theorem takeBytes_putBytes (b rest : Bytes) : takeBytes (putBytes b ++ rest) = .ok (b, rest) := by
  simp [takeBytes, putBytes, List.append_assoc]

@[simp] theorem takeItems_putItems (l : List Bytes) (rest : Bytes) : takeItems l.length (putItems l ++ rest) = .ok (l, rest) := by
  induction l with
  | nil => rfl
  | cons b l ih => simp [takeItems, putItems, List.append_assoc, ih]

@[simp] theorem takeList_putList (l : List Bytes) (rest : Bytes) : takeList (putList l ++ rest) = .ok (l, rest) := by
  simp [takeList, putList, List.append_assoc]

@[simp] theorem takeSize_putSize (o : Option Nat) (rest : Bytes) : takeSize (putSize o ++ rest) = .ok (o, rest) := by
  cases o <;> simp [takeSize, putSize, List.append_assoc]

@[simp] theorem takeHeader_putHeader (h : AdmissionHeader) (rest : Bytes) :
    takeHeader (putHeader h ++ rest) = .ok (h, rest) := by
  simp [takeHeader, putHeader, List.append_assoc]

/-! ### Reading then writing -/

theorem takeRaw_eq_ok {n : Nat} {bs a rest : Bytes} (h : takeRaw n bs = .ok (a, rest)) : bs = a ++ rest ∧ a.length = n := by
  unfold takeRaw at h
  split at h
  · simp at h
  · obtain ⟨rfl, rfl⟩ : bs.take n = a ∧ bs.drop n = rest := by simpa using h
    exact ⟨(List.take_append_drop n bs).symm, by simp; omega⟩

theorem takeU8_eq_ok {bs rest : Bytes} {b : Byte} (h : takeU8 bs = .ok (b, rest)) : bs = b :: rest := by
  cases bs with
  | nil => simp [takeU8] at h
  | cons c bs => simpa [takeU8] using h

theorem takeU32_eq_ok {bs rest : Bytes} {v : U32} (h : takeU32 bs = .ok (v, rest)) : bs = be32 v ++ rest := by
  obtain ⟨f, r, hr, hf⟩ := andThen_eq_ok h
  obtain ⟨rfl, hl⟩ := takeRaw_eq_ok hr
  obtain ⟨rfl, rfl⟩ : BitVec.ofNat 32 (beNat f) = v ∧ r = rest := by simpa using hf
  rw [be32_ofNat_beNat f hl]

theorem takeU16_eq_ok {bs rest : Bytes} {v : U16} (h : takeU16 bs = .ok (v, rest)) : bs = be16 v ++ rest := by
  obtain ⟨f, r, hr, hf⟩ := andThen_eq_ok h
  obtain ⟨rfl, hl⟩ := takeRaw_eq_ok hr
  obtain ⟨rfl, rfl⟩ : BitVec.ofNat 16 (beNat f) = v ∧ r = rest := by simpa using hf
  rw [be16_ofNat_beNat f hl]

theorem takeU4_eq_ok {bs rest : Bytes} {v : U4} (h : takeU4 bs = .ok (v, rest)) : bs = putU4 v ++ rest := by
  obtain ⟨b, r, hr, hf⟩ := andThen_eq_ok h
  obtain rfl := takeU8_eq_ok hr
  split at hf
  · next hb =>
    obtain ⟨rfl, rfl⟩ : BitVec.ofNat 4 b.toNat = v ∧ r = rest := by simpa using hf
    simp only [putU4, List.singleton_append, List.cons.injEq, and_true]
    apply BitVec.eq_of_toNat_eq
    simp only [BitVec.toNat_ofNat]
    omega
  · simp at hf

theorem takeBit_eq_ok {bs rest : Bytes} {v : Bool} (h : takeBit bs = .ok (v, rest)) : bs = putBit v ++ rest := by
  obtain ⟨b, r, hr, hf⟩ := andThen_eq_ok h
  obtain rfl := takeU8_eq_ok hr
  split at hf
  · next hb => obtain ⟨rfl, rfl⟩ : false = v ∧ r = rest := by simpa using hf
               simp [putBit, hb]
  · split at hf
    · next hb => obtain ⟨rfl, rfl⟩ : true = v ∧ r = rest := by simpa using hf
                 simp [putBit, hb]
    · simp at hf

/-- The fuel of the encoder does not matter once it is enough. -/
theorem putNatFuel_eq (f g n : Nat) (hf : n < 128 ^ f) (hg : n < 128 ^ g) (h0 : f ≠ 0) (h1 : g ≠ 0) :
    putNatFuel f n = putNatFuel g n := by
  induction f generalizing g n with
  | zero => exact absurd rfl h0
  | succ f ih =>
    match g with
    | 0 => exact absurd rfl h1
    | g + 1 =>
      simp only [putNatFuel]
      split
      · rfl
      · next hn =>
        congr 1
        have hf' : n / 128 < 128 ^ f := Nat.div_lt_of_lt_mul (by rw [← pow_succ']; exact hf)
        have hg' : n / 128 < 128 ^ g := Nat.div_lt_of_lt_mul (by rw [← pow_succ']; exact hg)
        have hpos : 0 < n / 128 := by omega
        exact ih g _ hf' hg' (by rintro rfl; simp at hf'; omega) (by rintro rfl; simp at hg'; omega)

theorem putNat_lt (n : Nat) : n < 128 ^ (n.log2 + 1) :=
  calc n < 2 ^ (n.log2 + 1) := Nat.lt_log2_self
    _ ≤ 128 ^ (n.log2 + 1) := Nat.pow_le_pow_left (by omega) _

/-- A number below 128 is one byte. -/
theorem putNat_small (n : Nat) (h : n < 128) : putNat n = [BitVec.ofNat 8 n] := by simp [putNat, putNatFuel, h]

/-- A larger number is its low group, then the rest. -/
theorem putNat_large (n : Nat) (h : ¬ n < 128) : putNat n = BitVec.ofNat 8 (n % 128 + 128) :: putNat (n / 128) := by
  conv => lhs; rw [putNat, putNatFuel, if_neg h]
  congr 1
  have hq : n / 128 < 128 ^ n.log2 := by
    apply Nat.div_lt_of_lt_mul; rw [← pow_succ']; exact putNat_lt n
  have h0 : n.log2 ≠ 0 := by
    intro h0; rw [h0] at hq; simp at hq; omega
  exact putNatFuel_eq _ _ _ hq (putNat_lt _) h0 (by omega)

theorem takeNat_eq_ok {bs rest : Bytes} {n : Nat} (h : takeNat bs = .ok (n, rest)) : bs = putNat n ++ rest := by
  induction bs generalizing n rest with
  | nil => simp [takeNat] at h
  | cons b bs ih =>
    rw [takeNat] at h
    split at h
    · next hb =>
      obtain ⟨rfl, rfl⟩ : b.toNat = n ∧ bs = rest := by simpa using h
      simp [putNat_small _ hb]
    · next hb =>
      obtain ⟨m, r, hm, hf⟩ := andThen_eq_ok h
      split at hf
      · simp at hf
      · next h0 =>
        obtain ⟨rfl, rfl⟩ : m * 128 + (b.toNat - 128) = n ∧ r = rest := by simpa using hf
        have hb8 : b.toNat < 256 := b.isLt
        rw [putNat_large _ (by omega), ih hm, List.cons_append, show (m * 128 + (b.toNat - 128)) / 128 = m by omega]
        have hlow : BitVec.ofNat 8 ((m * 128 + (b.toNat - 128)) % 128 + 128) = b := by
          apply BitVec.eq_of_toNat_eq
          rw [BitVec.toNat_ofNat, Nat.mod_eq_of_lt (by omega)]
          omega
        rw [hlow]

theorem takeBytes_eq_ok {bs rest b : Bytes} (h : takeBytes bs = .ok (b, rest)) : bs = putBytes b ++ rest := by
  obtain ⟨n, r, hn, hf⟩ := andThen_eq_ok h
  obtain ⟨rfl, rfl⟩ := takeRaw_eq_ok hf
  rw [takeNat_eq_ok hn, putBytes, List.append_assoc]

theorem takeItems_eq_ok {n : Nat} {bs rest : Bytes} {l : List Bytes} (h : takeItems n bs = .ok (l, rest)) :
    bs = putItems l ++ rest ∧ l.length = n := by
  induction n generalizing bs l with
  | zero =>
    obtain ⟨rfl, rfl⟩ : [] = l ∧ bs = rest := by simpa [takeItems] using h
    exact ⟨rfl, rfl⟩
  | succ n ih =>
    obtain ⟨b, r, hb, h1⟩ := andThen_eq_ok h
    obtain ⟨l', r', hl, h2⟩ := andThen_eq_ok h1
    obtain ⟨rfl, rfl⟩ : b :: l' = l ∧ r' = rest := by simpa using h2
    obtain ⟨rfl, rfl⟩ := ih hl
    exact ⟨by rw [takeBytes_eq_ok hb, putItems, List.append_assoc], rfl⟩

theorem takeList_eq_ok {bs rest : Bytes} {l : List Bytes} (h : takeList bs = .ok (l, rest)) : bs = putList l ++ rest := by
  obtain ⟨n, r, hn, hf⟩ := andThen_eq_ok h
  obtain ⟨rfl, rfl⟩ := takeItems_eq_ok hf
  rw [takeNat_eq_ok hn, putList, List.append_assoc]

theorem takeSize_eq_ok {bs rest : Bytes} {o : Option Nat} (h : takeSize bs = .ok (o, rest)) : bs = putSize o ++ rest := by
  obtain ⟨b, r, hb, hf⟩ := andThen_eq_ok h
  obtain rfl := takeBit_eq_ok hb
  cases b with
  | true =>
    obtain ⟨n, r', hn, h2⟩ := andThen_eq_ok (by simpa using hf)
    obtain ⟨rfl, rfl⟩ : some n = o ∧ r' = rest := by simpa using h2
    rw [takeNat_eq_ok hn, putSize, List.append_assoc]
  | false =>
    obtain ⟨rfl, rfl⟩ : none = o ∧ r = rest := by simpa using hf
    rfl

theorem takeHeader_eq_ok {bs rest : Bytes} {h : AdmissionHeader} (hh : takeHeader bs = .ok (h, rest)) :
    bs = putHeader h ++ rest := by
  obtain ⟨v, b1, e1, hh⟩ := andThen_eq_ok hh
  obtain ⟨t, b2, e2, hh⟩ := andThen_eq_ok hh
  obtain ⟨q, b3, e3, hh⟩ := andThen_eq_ok hh
  obtain ⟨ts, b4, e4, hh⟩ := andThen_eq_ok hh
  obtain ⟨id, b5, e5, hh⟩ := andThen_eq_ok hh
  obtain ⟨ck, b6, e6, hh⟩ := andThen_eq_ok hh
  obtain ⟨rfl, rfl⟩ : (⟨v, t, q, ts, id, ck⟩ : AdmissionHeader) = h ∧ b6 = rest := by simpa using hh
  rw [takeU4_eq_ok e1, takeU4_eq_ok e2, takeU32_eq_ok e3, takeU32_eq_ok e4, takeU32_eq_ok e5, takeU16_eq_ok e6]
  simp [putHeader, List.append_assoc]

/-! ### Bit patterns -/

/-- The number of bits of a pattern. -/
def patternWidth (fields : List (Nat × Nat)) : Nat := (fields.map Prod.fst).sum

/-- Every field's value fits its width. -/
def PatternFits (fields : List (Nat × Nat)) : Prop := ∀ f ∈ fields, f.2 < 2 ^ f.1

theorem foldl_packBits (a : Nat) (fs : List (Nat × Nat)) :
    fs.foldl (fun acc f => acc * 2 ^ f.1 + f.2) a = a * 2 ^ patternWidth fs + packBits fs := by
  unfold packBits patternWidth
  induction fs generalizing a with
  | nil => simp
  | cons f fs ih =>
    simp only [List.foldl_cons, List.map_cons, List.sum_cons]
    rw [ih (a * 2 ^ f.1 + f.2), ih (0 * 2 ^ f.1 + f.2), pow_add]
    ring

theorem packBits_cons (f : Nat × Nat) (fs : List (Nat × Nat)) :
    packBits (f :: fs) = f.2 * 2 ^ patternWidth fs + packBits fs := by
  have := foldl_packBits f.2 fs
  simpa [packBits] using this

theorem packBits_append (as bs : List (Nat × Nat)) :
    packBits (as ++ bs) = packBits as * 2 ^ patternWidth bs + packBits bs := by
  conv => lhs; unfold packBits
  rw [List.foldl_append, foldl_packBits]
  rfl

theorem packBits_lt (fs : List (Nat × Nat)) (h : PatternFits fs) : packBits fs < 2 ^ patternWidth fs := by
  induction fs with
  | nil => simp [packBits, patternWidth]
  | cons f fs ih =>
    have hf : f.2 + 1 ≤ 2 ^ f.1 := h f (by simp)
    have ih := ih fun g hg => h g (by simp [hg])
    have hm := Nat.mul_le_mul_right (2 ^ patternWidth fs) hf
    rw [packBits_cons, show patternWidth (f :: fs) = f.1 + patternWidth fs from rfl, pow_add]
    rw [Nat.add_mul] at hm
    omega

/-- A field is read back from its place. -/
theorem packBits_field (as bs : List (Nat × Nat)) (f : Nat × Nat) (hf : f.2 < 2 ^ f.1) (hb : PatternFits bs) :
    packBits (as ++ f :: bs) / 2 ^ patternWidth bs % 2 ^ f.1 = f.2 := by
  have hlt := packBits_lt bs hb
  rw [show as ++ f :: bs = (as ++ [f]) ++ bs by simp, packBits_append, mul_comm, Nat.mul_add_div (by positivity),
    Nat.div_eq_of_lt hlt, add_zero, packBits_append, Nat.add_mod]
  simp [patternWidth, packBits, Nat.mod_eq_of_lt hf]

/-- The fields of a number at consecutive places, first transmitted leftmost. -/
def unpackBits (x : Nat) : List Nat → List (Nat × Nat)
  | [] => []
  | w :: ws => (w, x / 2 ^ ws.sum % 2 ^ w) :: unpackBits x ws

/-- Fields read at consecutive places make up the number again. -/
theorem packBits_unpackBits (x : Nat) (ws : List Nat) : packBits (unpackBits x ws) = x % 2 ^ ws.sum := by
  have hw : ∀ ws : List Nat, patternWidth (unpackBits x ws) = ws.sum := fun ws => by
    induction ws with
    | nil => rfl
    | cons w ws ih => simp [unpackBits, patternWidth] at *; omega
  induction ws with
  | nil => simp [unpackBits, packBits, Nat.mod_one]
  | cons w ws ih =>
    rw [unpackBits, packBits_cons, ih, hw, List.sum_cons, add_comm w, pow_add, Nat.mod_mul]
    ring

/-! ### Wire-format words -/

/-- A field of a word that is given as a number, where the word is wide enough. -/
theorem toNat_extractLsb'_ofNat (n x start len : Nat) (h : start + len ≤ n) :
    ((BitVec.ofNat n x).extractLsb' start len).toNat = x / 2 ^ start % 2 ^ len := by
  rw [BitVec.extractLsb'_toNat, BitVec.toNat_ofNat, Nat.shiftRight_eq_div_pow]
  obtain ⟨k, rfl⟩ : ∃ k, n = start + k := ⟨n - start, by omega⟩
  rw [pow_add, Nat.mod_mul_right_div_self, Nat.mod_mod_of_dvd _ (pow_dvd_pow 2 (by omega))]

theorem PatternFits.nil : PatternFits [] := by simp [PatternFits]

theorem PatternFits.cons {w v : Nat} {fs : List (Nat × Nat)} (h : v < 2 ^ w) (hs : PatternFits fs) : PatternFits ((w, v) :: fs) := by
  simp only [PatternFits, List.mem_cons]
  rintro f (rfl | hf)
  · exact h
  · exact hs f hf

/-- A field of a pattern is what was put there. -/
theorem extract_packBits {n start len : Nat} {v : BitVec len} (as : List (Nat × Nat)) {bs : List (Nat × Nat)}
    (hw : patternWidth bs = start) (hb : PatternFits bs) (h : start + len ≤ n) :
    (BitVec.ofNat n (packBits (as ++ (len, v.toNat) :: bs))).extractLsb' start len = v := by
  apply BitVec.eq_of_toNat_eq
  subst hw
  rw [toNat_extractLsb'_ofNat _ _ _ _ h, packBits_field as bs (len, v.toNat) v.isLt hb]

/-- R96: layout HIGH. -/
theorem decodeWire128_encodeWire128 (h : AdmissionHeader) (rsv : U8) :
    decodeWire128 (BitVec.ofNat 128 (encodeWire128 h rsv)) = .admissionHeader h rsv := by
  obtain ⟨v, t, q, m, p, c⟩ := h
  simp only [decodeWire128, encodeWire128, Instr.admissionHeader.injEq, AdmissionHeader.mk.injEq]
  refine ⟨⟨?_, ?_, ?_, ?_, ?_, ?_⟩, ?_⟩
  · exact extract_packBits [] rfl (.cons t.isLt (.cons rsv.isLt (.cons q.isLt (.cons m.isLt (.cons p.isLt (.cons c.isLt .nil)))))) (by omega)
  · exact extract_packBits [_] rfl (.cons rsv.isLt (.cons q.isLt (.cons m.isLt (.cons p.isLt (.cons c.isLt .nil))))) (by omega)
  · exact extract_packBits [_, _, _] rfl (.cons m.isLt (.cons p.isLt (.cons c.isLt .nil))) (by omega)
  · exact extract_packBits [_, _, _, _] rfl (.cons p.isLt (.cons c.isLt .nil)) (by omega)
  · exact extract_packBits [_, _, _, _, _] rfl (.cons c.isLt .nil) (by omega)
  · exact extract_packBits [_, _, _, _, _, _] rfl .nil (by omega)
  · exact extract_packBits [_, _] rfl (.cons q.isLt (.cons m.isLt (.cons p.isLt (.cons c.isLt .nil)))) (by omega)

/-- R96: layout LOW. -/
theorem decodeWire128Low_encodeWire128Low (h : AdmissionHeader) (rsv : U8) :
    decodeWire128Low (BitVec.ofNat 128 (encodeWire128Low h rsv)) = .admissionHeaderLow h rsv := by
  obtain ⟨v, t, q, m, p, c⟩ := h
  simp only [decodeWire128Low, encodeWire128Low, Instr.admissionHeaderLow.injEq, AdmissionHeader.mk.injEq]
  refine ⟨⟨?_, ?_, ?_, ?_, ?_, ?_⟩, ?_⟩
  · exact extract_packBits [_] rfl (.cons t.isLt (.cons q.isLt (.cons m.isLt (.cons p.isLt (.cons c.isLt .nil))))) (by omega)
  · exact extract_packBits [_, _] rfl (.cons q.isLt (.cons m.isLt (.cons p.isLt (.cons c.isLt .nil)))) (by omega)
  · exact extract_packBits [_, _, _] rfl (.cons m.isLt (.cons p.isLt (.cons c.isLt .nil))) (by omega)
  · exact extract_packBits [_, _, _, _] rfl (.cons p.isLt (.cons c.isLt .nil)) (by omega)
  · exact extract_packBits [_, _, _, _, _] rfl (.cons c.isLt .nil) (by omega)
  · exact extract_packBits [_, _, _, _, _, _] rfl .nil (by omega)
  · exact extract_packBits [] rfl (.cons v.isLt (.cons t.isLt (.cons q.isLt (.cons m.isLt (.cons p.isLt (.cons c.isLt .nil)))))) (by omega)

/-- R104. -/
theorem decodeWire448_encodeWire448 (h : SegmentHeader) (hc : h.checksum.length = 32) :
    decodeWire448 (BitVec.ofNat 448 (encodeWire448 h)) = .ok (.segmentHeader h) := by
  obtain ⟨i, q, n, e, o, p, l, ck⟩ := h
  replace hc : ck.length = 32 := hc
  obtain ⟨c, hck⟩ : ∃ c : BitVec 256, beNat ck = c.toNat :=
    ⟨BitVec.ofNat 256 (beNat ck), by rw [BitVec.toNat_ofNat, Nat.mod_eq_of_lt]; have := beNat_lt ck; rwa [hc] at this⟩
  have hback : beBytes 32 c.toNat = ck := by rw [← hck, ← hc]; exact beBytes_beNat ck
  simp only [decodeWire448, encodeWire448, hck]
  rw [if_pos]
  swap
  · exact extract_packBits [] (by simp [patternWidth]) (.cons i.isLt (.cons q.isLt (.cons n.isLt (.cons e.isLt (.cons o.isLt (.cons p.isLt (.cons l.isLt (.cons c.isLt .nil)))))))) (by omega)
  simp only [Except.ok.injEq, Instr.segmentHeader.injEq, SegmentHeader.mk.injEq]
  refine ⟨?_, ?_, ?_, ?_, ?_, ?_, ?_, ?_⟩
  · exact extract_packBits [_] (by simp [patternWidth]) (.cons q.isLt (.cons n.isLt (.cons e.isLt (.cons o.isLt (.cons p.isLt (.cons l.isLt (.cons c.isLt .nil))))))) (by omega)
  · exact extract_packBits [_, _] (by simp [patternWidth]) (.cons n.isLt (.cons e.isLt (.cons o.isLt (.cons p.isLt (.cons l.isLt (.cons c.isLt .nil)))))) (by omega)
  · exact extract_packBits [_, _, _] (by simp [patternWidth]) (.cons e.isLt (.cons o.isLt (.cons p.isLt (.cons l.isLt (.cons c.isLt .nil))))) (by omega)
  · exact extract_packBits [_, _, _, _] (by simp [patternWidth]) (.cons o.isLt (.cons p.isLt (.cons l.isLt (.cons c.isLt .nil)))) (by omega)
  · exact extract_packBits [_, _, _, _, _] (by simp [patternWidth]) (.cons p.isLt (.cons l.isLt (.cons c.isLt .nil))) (by omega)
  · exact extract_packBits [_, _, _, _, _, _] (by simp [patternWidth]) (.cons l.isLt (.cons c.isLt .nil)) (by omega)
  · exact extract_packBits [_, _, _, _, _, _, _] (by simp [patternWidth]) (.cons c.isLt .nil) (by omega)
  · refine Eq.trans (congrArg (fun x : BitVec 256 => beBytes 32 x.toNat) ?_) hback
    exact extract_packBits [_, _, _, _, _, _, _, _] (by simp [patternWidth]) .nil (by omega)

/-- R96: every 128-bit word is the word of the header it decodes to, in layout HIGH. -/
theorem encodeWire128_decodeWire128 (x : Nat) (hx : x < 256 ^ 16) :
    ∃ h rsv, decodeWire128 (BitVec.ofNat 128 x) = .admissionHeader h rsv ∧ encodeWire128 h rsv = x := by
  refine ⟨_, _, rfl, ?_⟩
  simp (disch := omega) only [encodeWire128, toNat_extractLsb'_ofNat]
  exact (packBits_unpackBits x [4, 4, 8, 32, 32, 32, 16]).trans (Nat.mod_eq_of_lt hx)

/-- R96: the same in layout LOW. -/
theorem encodeWire128Low_decodeWire128Low (x : Nat) (hx : x < 256 ^ 16) :
    ∃ h rsv, decodeWire128Low (BitVec.ofNat 128 x) = .admissionHeaderLow h rsv ∧ encodeWire128Low h rsv = x := by
  refine ⟨_, _, rfl, ?_⟩
  simp (disch := omega) only [encodeWire128Low, toNat_extractLsb'_ofNat]
  exact (packBits_unpackBits x [8, 4, 4, 32, 32, 32, 16]).trans (Nat.mod_eq_of_lt hx)

/-- R104: every 448-bit word that is a segment header is the word of the header it decodes to. -/
theorem encodeWire448_decodeWire448 (x : Nat) (hx : x < 256 ^ 56) (i : Instr)
    (hd : decodeWire448 (BitVec.ofNat 448 x) = .ok i) :
    ∃ h, i = .segmentHeader h ∧ encodeWire448 h = x ∧ h.checksum.length = 32 := by
  unfold decodeWire448 at hd
  split at hd
  · next hm =>
    obtain rfl := Except.ok.inj hd
    refine ⟨_, rfl, ?_, beBytes_length _ _⟩
    have hlow := beNat_beBytes 32 _ ((BitVec.ofNat 448 x).extractLsb' 0 256).isLt
    have hs : (2 : Nat) ^ [16, 32, 32, 32, 8, 8, 32, 32, 256].sum = 256 ^ 56 := by
      rw [show (256 : Nat) = 2 ^ 8 from rfl, ← pow_mul]
      congr 1
    rw [encodeWire448, ← hm]
    simp only [hlow]
    simp (disch := omega) only [toNat_extractLsb'_ofNat]
    have hp := packBits_unpackBits x [16, 32, 32, 32, 8, 8, 32, 32, 256]
    rw [hs, Nat.mod_eq_of_lt hx] at hp
    simpa only [unpackBits, List.sum_cons, List.sum_nil, Nat.reduceAdd, Nat.add_zero] using hp
  · simp at hd

/-- A pattern of a known number of whole bytes fits in them. -/
theorem packBits_lt_bytes {fs : List (Nat × Nat)} (n : Nat) (h : PatternFits fs) (hn : patternWidth fs = 8 * n) :
    packBits fs < 256 ^ n := by
  have hlt := packBits_lt fs h
  rwa [hn, pow_mul] at hlt

theorem encodeWire128_lt (h : AdmissionHeader) (rsv : U8) : encodeWire128 h rsv < 256 ^ 16 :=
  packBits_lt_bytes 16 (.cons h.version.isLt (.cons h.pktType.isLt (.cons rsv.isLt (.cons h.sequence.isLt (.cons h.timestamp.isLt
    (.cons h.policyId.isLt (.cons h.checksum.isLt .nil))))))) (by simp [patternWidth])

theorem encodeWire128Low_lt (h : AdmissionHeader) (rsv : U8) : encodeWire128Low h rsv < 256 ^ 16 :=
  packBits_lt_bytes 16 (.cons rsv.isLt (.cons h.version.isLt (.cons h.pktType.isLt (.cons h.sequence.isLt (.cons h.timestamp.isLt
    (.cons h.policyId.isLt (.cons h.checksum.isLt .nil))))))) (by simp [patternWidth])

theorem encodeWire448_lt (h : SegmentHeader) (hc : h.checksum.length = 32) : encodeWire448 h < 256 ^ 56 := by
  have hck : beNat h.checksum < 2 ^ 256 := by
    have hlt := beNat_lt h.checksum
    rwa [hc, show (256 : Nat) = 2 ^ 8 from rfl, ← pow_mul] at hlt
  exact packBits_lt_bytes 56 (.cons wireMagic.isLt (.cons h.segmentId.isLt (.cons h.seqNum.isLt (.cons h.totalSegments.isLt
    (.cons h.sensitivity.isLt (.cons h.opHint.isLt (.cons h.policyId.isLt (.cons h.payloadLength.isLt (.cons hck .nil)))))))))
    (by simp [patternWidth])

/-- R115: the rows of the command table are what a code can select. -/
theorem Opcode.ofCode_mem {code : Byte} {op : Opcode} (h : Opcode.ofCode code = some op) : (code, op) ∈ opcodeTable := by
  obtain ⟨⟨c, o⟩, h1, rfl⟩ := Option.map_eq_some_iff.mp h
  have hc : c = code := by simpa using List.find?_some h1
  exact hc ▸ List.mem_of_find?_eq_some h1

end Sys2Proof
end

