-- ==== Sys2Proof/Laws/Segments.lean ====
section
/-! SUPPORT. Chunks of a buffer (R193, R230) and the loop of ENFORCE (R199). -/

namespace Sys2Proof.Machine

/-- R13, R230: `ceil_div` is the least number of chunks that covers the data. -/
theorem ceilDiv_le_iff (L S m : Nat) (h : 0 < S) : ceilDiv L S ≤ m ↔ L ≤ m * S := by
  unfold ceilDiv
  rw [← Nat.lt_succ_iff, Nat.div_lt_iff_lt_mul h, Nat.succ_mul]
  omega

theorem chunkOf_length (data : Bytes) (S i : Nat) : (chunkOf data S i).length = min S (data.length - i * S) := by
  simp [chunkOf, slice, Nat.succ_mul]; omega

/-- The first `n` chunks in order are the first bytes of the data. -/
theorem chunks_flatten (data : Bytes) (S n : Nat) : ((List.range n).map (chunkOf data S)).flatten = data.take (n * S) := by
  induction n with
  | zero => simp
  | succ n ih =>
    rw [List.range_succ, List.map_append, List.flatten_append, ih]
    simp only [List.map_cons, List.map_nil, List.flatten_cons, List.flatten_nil, List.append_nil, chunkOf, slice]
    rw [Nat.succ_mul, List.take_add]
    congr 1
    rw [List.take_eq_take_iff, List.length_drop]
    omega

/-- R193, R194: SPLIT of operands it accepts. -/
theorem split_of_fits (d : DigestChoice) (data : Bytes) (S : Nat) (policyId segmentId : U32) (h0 : 0 < S) (h1 : S ≤ Config.maxU32)
    (h2 : ceilDiv data.length S ≤ Config.maxU32) :
    split d data S policyId segmentId = .ok (splitList d data S policyId segmentId) := by
  rw [split, if_neg (Nat.ne_of_gt h0), if_neg (Nat.not_lt.mpr h1), if_neg (Nat.not_lt.mpr h2)]

theorem splitList_length (d : DigestChoice) (data : Bytes) (S : Nat) (policyId segmentId : U32) :
    (splitList d data S policyId segmentId).length = ceilDiv data.length S := by simp [splitList]

/-- R197: the three verdicts of FILTER_ONE. -/
theorem filterOne_cases (mode : PayloadSlice) (B : Bytes) (ext : Bool) :
    filterOne mode B ext = .forward B ∨ filterOne mode B ext = .drop ∨ ∃ sub, filterOne mode B ext = .malformed sub := by
  unfold filterOne
  split
  · simp
  · split
    · simp
    · split <;> simp

/-- R199: the loop of ENFORCE from any counts. -/
theorem enforce_foldl (mode : PayloadSlice) (ext : Bool) (segs : List Bytes) (acc : Enforced) :
    (segs.foldl (enforceOne mode ext) acc).forwarded =
      acc.forwarded ++ segs.filter (fun B => filterOne mode B ext = .forward B) ∧
    (segs.foldl (enforceOne mode ext) acc).droppedCount =
      acc.droppedCount + segs.countP (fun B => filterOne mode B ext = .drop) ∧
    (segs.foldl (enforceOne mode ext) acc).forwarded.length + (segs.foldl (enforceOne mode ext) acc).droppedCount +
        (segs.foldl (enforceOne mode ext) acc).malformedCount =
      acc.forwarded.length + acc.droppedCount + acc.malformedCount + segs.length := by
  induction segs generalizing acc with
  | nil => simp
  | cons B segs ih =>
    obtain ⟨i1, i2, i3⟩ := ih (enforceOne mode ext acc B)
    simp only [List.foldl_cons, List.filter_cons, List.countP_cons]
    rw [i1, i2] at i3 ⊢
    rcases filterOne_cases mode B ext with h | h | ⟨sub, h⟩ <;> simp only [enforceOne, h] at i3 ⊢ <;> simp <;> simp at i3 <;> omega

end Sys2Proof.Machine
end

