-- ==== Sys2Proof/Laws/Exec.lean ====
section
/-! SUPPORT. What `exec` answers for the operations that other operations are made of, in terms of their functions. -/

namespace Sys2Proof.Machine

/-- R167: SEG_DECODE answers a segment exactly when its function gives it. -/
theorem exec_segDecode_segment (B : Bytes) (s : State) (h : SegmentHeader) (p : Bytes) :
    exec (.segDecode B) s = .next { s with result := some (.segment h p) } ↔ segDecode s.params.payloadSlice B = .ok (h, p) := by
  simp only [exec, execSegDecode]
  split
  · next hd => rw [hd]; simp [answer, Prod.ext_iff]
  · next hd => rw [hd]; simp [raiseFormat, answer]

/-- R167: and a FormatError exactly when its function fails so. -/
theorem exec_segDecode_formatError (B : Bytes) (s : State) (sub : FormatSub) :
    exec (.segDecode B) s = .next { s with result := some (.formatError sub) } ↔
      segDecode s.params.payloadSlice B = .error sub := by
  simp only [exec, execSegDecode]
  split
  · next hd => rw [hd]; simp [answer]
  · next hd => rw [hd]; simp [raiseFormat, answer]

/-- R163. -/
theorem exec_digestVerify_bool (p : Bytes) (c : U256) (s : State) (b : Bool) :
    exec (.digestVerify p c) s = .next { s with result := some (.bool b) } ↔ digestVerify s.params.digest p c = b := by
  simp [exec, execDigestVerify, answer]

/-- R165: a payload that fits its length field is encoded. -/
theorem exec_segEncode_fits (s : State) (a b c : U32) (d e : U8) (f : U32) (p : Bytes) (h : p.length ≤ Config.maxU32) :
    exec (.segEncode a b c d e f p) s = .next { s with result := some (.bytes (segBuild s.params.digest a b c d e f p)) } := by
  have hs : segEncode s.params.digest a b c d e f p = .ok (segBuild s.params.digest a b c d e f p) := if_neg (Nat.not_lt.mpr h)
  simp only [exec, execSegEncode, hs, answer]

/-- R193: operands that SPLIT accepts are split. -/
theorem exec_split_fits (s : State) (data : Bytes) (S : Nat) (policyId segmentId : U32) (h0 : 0 < S) (h1 : S ≤ Config.maxU32)
    (h2 : ceilDiv data.length S ≤ Config.maxU32) :
    exec (.split data (some S) policyId segmentId) s =
      .next { s with result := some (.segments (splitList s.params.digest data S policyId segmentId)) } := by
  simp only [exec, execSplit, segmentSizeOf, Option.getD_some, split_of_fits _ _ _ _ _ h0 h1 h2, answer]

/-- R214 to R220: the operations of unit RSM are their functions on the store. -/
theorem exec_rsmPush (B : Bytes) (s : State) :
    exec (.rsmPush B) s = .next { s with rsm := (rsmPush s.params s.rsm B).1, result := some (rsmPush s.params s.rsm B).2 } := rfl

theorem exec_rsmFinish (s : State) :
    exec .rsmFinish s = .next { s with rsm := (rsmFinish s.rsm).1, result := some (rsmFinish s.rsm).2 } := rfl

theorem exec_reassemble (segs : List Bytes) (s : State) :
    exec (.reassemble segs) s =
      .next { s with rsm := (reassemble s.params segs).1, result := some (reassemble s.params segs).2 } := rfl

end Sys2Proof.Machine
end

