-- ==== Sys2Proof/Laws/PerInstr.lean ====
section
/-! SUPPORT. One statement per row of the opcode table (spec/30_encoding.md R96, R104, R115, R121): the request of a command starts
with the row's command code, and the request of a wire-format row is one word of the row's format and length. -/

namespace Sys2Proof.Laws

open Sys2Proof.Machine

/-- A request of format CMD8 whose first byte is this code. -/
abbrev IsCommand (code : Byte) (r : Format × Bytes) : Prop := r.1 = .cmd8 ∧ r.2.head? = some code

/-- A request that is one word of this format and number of bytes. -/
abbrev IsWord (fmt : Format) (n : Nat) (r : Format × Bytes) : Prop := r.1 = fmt ∧ r.2.length = n

namespace CommandCode

/-- R115, R121: the format of an operation's request, and its command code or its length. -/
def Statement : Instr → Prop
  | .ptLookup policyId => IsCommand 0x01 (encodeRequest (.ptLookup policyId))
  | .admDecode buf => IsCommand 0x10 (encodeRequest (.admDecode buf))
  | .admEncode h => IsCommand 0x11 (encodeRequest (.admEncode h))
  | .admitPacket pkt now => IsCommand 0x12 (encodeRequest (.admitPacket pkt now))
  | .digestGen p => IsCommand 0x20 (encodeRequest (.digestGen p))
  | .digestVerify p c => IsCommand 0x21 (encodeRequest (.digestVerify p c))
  | .segEncode segmentId seqNum totalSegments sensitivity opHint policyId payload => IsCommand 0x22 (encodeRequest (.segEncode segmentId seqNum totalSegments sensitivity opHint policyId payload))
  | .segDecode buf => IsCommand 0x23 (encodeRequest (.segDecode buf))
  | .segTag offset => IsCommand 0x30 (encodeRequest (.segTag offset))
  | .split data segSize policyId segmentId => IsCommand 0x31 (encodeRequest (.split data segSize policyId segmentId))
  | .filterOne buf ext => IsCommand 0x32 (encodeRequest (.filterOne buf ext))
  | .enforce segments ext => IsCommand 0x33 (encodeRequest (.enforce segments ext))
  | .rsmStart => IsCommand 0x40 (encodeRequest (.rsmStart))
  | .rsmPush buf => IsCommand 0x41 (encodeRequest (.rsmPush buf))
  | .rsmFinish => IsCommand 0x42 (encodeRequest (.rsmFinish))
  | .reassemble segs => IsCommand 0x43 (encodeRequest (.reassemble segs))
  | .admissionHeader h rsv => IsWord .wire128 16 (encodeRequest (.admissionHeader h rsv))
  | .admissionHeaderLow h rsv => IsWord .wire128Low 16 (encodeRequest (.admissionHeaderLow h rsv))
  | .segmentHeader h => IsWord .wire448 56 (encodeRequest (.segmentHeader h))

theorem ptLookup (policyId : U32) : Statement (.ptLookup policyId) := ⟨rfl, rfl⟩

theorem admDecode (buf : Bytes) : Statement (.admDecode buf) := ⟨rfl, rfl⟩

theorem admEncode (h : AdmissionHeader) : Statement (.admEncode h) := ⟨rfl, rfl⟩

theorem admitPacket (pkt : Bytes) (now : Time) : Statement (.admitPacket pkt now) := ⟨rfl, rfl⟩

theorem digestGen (p : Bytes) : Statement (.digestGen p) := ⟨rfl, rfl⟩

theorem digestVerify (p : Bytes) (c : U256) : Statement (.digestVerify p c) := ⟨rfl, rfl⟩

theorem segEncode (segmentId seqNum totalSegments : U32) (sensitivity opHint : U8) (policyId : U32) (payload : Bytes) : Statement (.segEncode segmentId seqNum totalSegments sensitivity opHint policyId payload) := ⟨rfl, rfl⟩

theorem segDecode (buf : Bytes) : Statement (.segDecode buf) := ⟨rfl, rfl⟩

theorem segTag (offset : Nat) : Statement (.segTag offset) := ⟨rfl, rfl⟩

theorem split (data : Bytes) (segSize : Option Nat) (policyId segmentId : U32) : Statement (.split data segSize policyId segmentId) := ⟨rfl, rfl⟩

theorem filterOne (buf : Bytes) (ext : Bool) : Statement (.filterOne buf ext) := ⟨rfl, rfl⟩

theorem enforce (segments : List Bytes) (ext : Bool) : Statement (.enforce segments ext) := ⟨rfl, rfl⟩

theorem rsmStart : Statement (.rsmStart) := ⟨rfl, rfl⟩

theorem rsmPush (buf : Bytes) : Statement (.rsmPush buf) := ⟨rfl, rfl⟩

theorem rsmFinish : Statement (.rsmFinish) := ⟨rfl, rfl⟩

theorem reassemble (segs : List Bytes) : Statement (.reassemble segs) := ⟨rfl, rfl⟩

theorem admissionHeader (h : AdmissionHeader) (rsv : U8) : Statement (.admissionHeader h rsv) := ⟨rfl, beBytes_length _ _⟩

theorem admissionHeaderLow (h : AdmissionHeader) (rsv : U8) : Statement (.admissionHeaderLow h rsv) := ⟨rfl, beBytes_length _ _⟩

theorem segmentHeader (h : SegmentHeader) : Statement (.segmentHeader h) := ⟨rfl, beBytes_length _ _⟩

end CommandCode

end Sys2Proof.Laws
end

