-- ==== Sys2Proof/Laws/Policy.lean ====
section
/-! SUPPORT. What a lookup in the policy table gives (R33, R131, R135). -/

namespace Sys2Proof.Machine

/-- R132: no row holds the key, no level. -/
theorem ptFind_eq_none {rows : List (U32 × Level)} {id : U32} (h : ∀ row ∈ rows, row.1 ≠ id) : ptFind rows id = none := by
  induction rows with
  | nil => rfl
  | cons row rows ih =>
    rw [ptFind, if_neg (h _ List.mem_cons_self)]
    exact ih fun r hr => h r (List.mem_cons_of_mem _ hr)

/-- R135: in a table whose keys ascend, the level of a key is the one beside it. -/
theorem ptFind_of_mem {rows : List (U32 × Level)} {id : U32} {l : Level} (hs : (rows.map Prod.fst).Pairwise (· < ·))
    (h : (id, l) ∈ rows) : ptFind rows id = some l := by
  induction rows with
  | nil => cases h
  | cons row rows ih =>
    obtain ⟨hk, hs⟩ := List.pairwise_cons.mp hs
    rcases List.mem_cons.mp h with rfl | hm
    · exact if_pos rfl
    · rw [ptFind, if_neg, ih hs hm]
      exact fun he => absurd (hk id (List.mem_map_of_mem hm)) (by simp [he])

/-- R131, R135: a lookup gives a level exactly when the table holds it. -/
theorem ptRead_eq_some (t : PolicyTable) (id : U32) (l : Level) : ptRead t id = some l ↔ (id, l) ∈ t.rows := by
  refine ⟨fun h => ?_, fun h => ptFind_of_mem t.ascending h⟩
  by_contra hn
  by_cases hk : ∃ row ∈ t.rows, row.1 = id
  · obtain ⟨⟨k, m⟩, hm, rfl⟩ := hk
    rw [ptRead, ptFind_of_mem t.ascending hm] at h
    exact hn (Option.some.inj h ▸ hm)
  · rw [ptRead, ptFind_eq_none fun row hr he => hk ⟨row, hr, he⟩] at h
    cases h

/-- R131, R132: and none exactly when no row holds the key. -/
theorem ptRead_eq_none (t : PolicyTable) (id : U32) : ptRead t id = none ↔ ∀ row ∈ t.rows, row.1 ≠ id := by
  refine ⟨fun h row hr he => ?_, ptFind_eq_none⟩
  have hm := (ptRead_eq_some t id row.2).mpr (he ▸ hr)
  rw [h] at hm
  cases hm

/-- R33: a level that is looked up has the width `LEVEL`. -/
theorem ptRead_lt (p : Params) {id : U32} {l : Level} (h : ptRead p.policyTable id = some l) : l < 2 ^ p.levelWidth :=
  of_decide_eq_true (List.all_eq_true.mp p.levels_fit (id, l) ((ptRead_eq_some p.policyTable id l).mp h))

end Sys2Proof.Machine
end

