-- ==== Sys2Proof/Laws/State.lean ====
section
/-! SUPPORT. One lemma per field per update of the state and of the store. -/

namespace Sys2Proof.Machine

/-! ### The queue of events -/

@[simp] theorem State.withInbox_params (s : State) (l : List HostEvent) : (s.withInbox l).params = s.params := rfl
@[simp] theorem State.withInbox_rsm (s : State) (l : List HostEvent) : (s.withInbox l).rsm = s.rsm := rfl
@[simp] theorem State.withInbox_inbox (s : State) (l : List HostEvent) : (s.withInbox l).inbox = l := rfl
@[simp] theorem State.withInbox_result (s : State) (l : List HostEvent) : (s.withInbox l).result = s.result := rfl
@[simp] theorem State.withInbox_withInbox (s : State) (l m : List HostEvent) : (s.withInbox l).withInbox m = s.withInbox m := rfl
@[simp] theorem State.withInbox_self (s : State) : s.withInbox s.inbox = s := rfl

/-! ### A later reset -/

@[simp] theorem State.resetInPlace_params (s : State) : s.resetInPlace.params = s.params := rfl
@[simp] theorem State.resetInPlace_rsm (s : State) : s.resetInPlace.rsm = Rsm.reset := rfl
@[simp] theorem State.resetInPlace_inbox (s : State) : s.resetInPlace.inbox = s.inbox := rfl
@[simp] theorem State.resetInPlace_result (s : State) : s.resetInPlace.result = none := rfl

/-! ### The store -/

@[simp] theorem Rsm.fail_phase (r : Rsm) (e : RsmError) : (r.fail e).phase = .failed e := rfl
@[simp] theorem Rsm.fail_expected (r : Rsm) (e : RsmError) : (r.fail e).expected = r.expected := rfl
@[simp] theorem Rsm.fail_entries (r : Rsm) (e : RsmError) : (r.fail e).entries = [] := rfl
@[simp] theorem Rsm.fail_skipped (r : Rsm) (e : RsmError) : (r.fail e).skipped = r.skipped := rfl

@[simp] theorem Rsm.release_phase (r : Rsm) : r.release.phase = .idle := rfl
@[simp] theorem Rsm.release_expected (r : Rsm) : r.release.expected = none := rfl
@[simp] theorem Rsm.release_entries (r : Rsm) : r.release.entries = r.entries := rfl
@[simp] theorem Rsm.release_skipped (r : Rsm) : r.release.skipped = 0 := rfl

@[simp] theorem Rsm.clear_eq_reset (r : Rsm) : r.clear = Rsm.reset := rfl

@[simp] theorem Rsm.insert_phase (r : Rsm) (e : Entry) : (r.insert e).phase = r.phase := rfl
@[simp] theorem Rsm.insert_expected (r : Rsm) (e : Entry) : (r.insert e).expected = r.expected := rfl
@[simp] theorem Rsm.insert_skipped (r : Rsm) (e : Entry) : (r.insert e).skipped = r.skipped := rfl

@[simp] theorem Rsm.expect_phase (r : Rsm) (n : U32) : (r.expect n).phase = r.phase := by unfold Rsm.expect; split <;> rfl
@[simp] theorem Rsm.expect_entries (r : Rsm) (n : U32) : (r.expect n).entries = r.entries := by unfold Rsm.expect; split <;> rfl
@[simp] theorem Rsm.expect_skipped (r : Rsm) (n : U32) : (r.expect n).skipped = r.skipped := by unfold Rsm.expect; split <;> rfl
@[simp] theorem Rsm.expect_expected (r : Rsm) (n : U32) : (r.expect n).expected = some (r.expected.getD n) := by
  unfold Rsm.expect; split <;> rename_i h <;> simp [h]

/-- R37: `rsm.error` is `some` exactly when `rsm.state = FAILED`. -/
theorem Rsm.error_eq_some (r : Rsm) (e : RsmError) : r.error = some e ↔ r.phase = .failed e := by
  unfold Rsm.error; split <;> simp_all

@[simp] theorem Rsm.reset_phase : Rsm.reset.phase = .idle := rfl
@[simp] theorem Rsm.reset_expected : Rsm.reset.expected = none := rfl
@[simp] theorem Rsm.reset_entries : Rsm.reset.entries = [] := rfl
@[simp] theorem Rsm.reset_skipped : Rsm.reset.skipped = 0 := rfl

@[simp] theorem Rsm.started_phase : Rsm.started.phase = .collecting := rfl
@[simp] theorem Rsm.started_expected : Rsm.started.expected = none := rfl
@[simp] theorem Rsm.started_entries : Rsm.started.entries = [] := rfl
@[simp] theorem Rsm.started_skipped : Rsm.started.skipped = 0 := rfl

/-! ### Bounds -/

@[simp] theorem exceeds_none (n : Nat) : exceeds n none = false := rfl
@[simp] theorem exceeds_some (n m : Nat) : exceeds n (some m) = decide (m < n) := rfl

/-- An unbounded instance never refuses for capacity (R219). -/
theorem Rsm.overCapacity_unbounded {p : Params} (hs : p.maxSegments = none) (hb : p.maxBytes = none) (r : Rsm) (payload : Bytes) :
    r.overCapacity p payload = false := by
  simp [Rsm.overCapacity, hs, hb]

end Sys2Proof.Machine
end

