-- ==== Sys2Proof/Laws/Store.lean ====
section
/-! SUPPORT. The reassembly store: insertion keeps its canonical form (ascending, push order kept), what one push and one finish can do,
and the count of distinct numbers. -/

namespace Sys2Proof.Machine

/-! ### Ending an operation -/

theorem answer_eq_next {r : Result} {s t : State} : answer r s = .next t ↔ t = { s with result := some r } := by
  simp [answer, eq_comm]

theorem answerRsm_eq_next {out : Rsm × Result} {s t : State} :
    answerRsm out s = .next t ↔ t = { s with rsm := out.1, result := some out.2 } := by
  simp [answerRsm, eq_comm]

/-! ### Stable insertion -/

/-- In a sorted store the entries not above a number are a prefix of it. -/
theorem sorted_take_filter (es : List Entry) (h : Sorted es) (q : U32) :
    es.take (es.filter fun x => x.seqNum ≤ q).length = es.filter (fun x => x.seqNum ≤ q) ∧
    es.drop (es.filter fun x => x.seqNum ≤ q).length = es.filter (fun x => ¬ x.seqNum ≤ q) := by
  induction es with
  | nil => simp
  | cons e es ih =>
    obtain ⟨h1, h2⟩ := List.pairwise_cons.mp h
    obtain ⟨i1, i2⟩ := ih h2
    by_cases hq : e.seqNum ≤ q
    · simp [hq] at *
      exact ⟨i1, i2⟩
    · have hn : ∀ x ∈ es, ¬ x.seqNum ≤ q := fun x hx hxq => hq (BitVec.le_trans (h1 x hx) hxq)
      have hf : es.filter (fun x => x.seqNum ≤ q) = [] := by simpa using hn
      have hg : es.filter (fun x => ¬ x.seqNum ≤ q) = es := by simpa using hn
      simp only [List.filter_cons, hq, decide_false, Bool.false_eq_true, if_false, hf, List.length_nil, List.take_zero, List.drop_zero,
        not_false_eq_true, decide_true, if_true, hg, and_self]

/-- R218: insertion into a sorted store, said by what stands before and after the new entry. -/
theorem Rsm.insert_entries (r : Rsm) (e : Entry) (h : Sorted r.entries) :
    (r.insert e).entries =
      r.entries.filter (fun x => x.seqNum ≤ e.seqNum) ++ e :: r.entries.filter (fun x => ¬ x.seqNum ≤ e.seqNum) := by
  obtain ⟨h1, h2⟩ := sorted_take_filter r.entries h e.seqNum
  simp only [Rsm.insert]
  rw [h1, h2, List.append_assoc, List.singleton_append]

/-- R36: insertion keeps the store in ascending order. -/
theorem Rsm.insert_sorted (r : Rsm) (e : Entry) (h : Sorted r.entries) : Sorted (r.insert e).entries := by
  rw [Rsm.insert_entries r e h]
  refine List.pairwise_append.mpr ⟨h.filter _, List.pairwise_cons.mpr ⟨?_, h.filter _⟩, ?_⟩
  · intro x hx
    have : ¬ x.seqNum ≤ e.seqNum := by simpa using (List.mem_filter.mp hx).2
    exact BitVec.le_of_lt (BitVec.not_le.mp this)
  · intro x hx y hy
    have hx : x.seqNum ≤ e.seqNum := by simpa using (List.mem_filter.mp hx).2
    rcases List.mem_cons.mp hy with rfl | hy
    · exact hx
    · have hy : ¬ y.seqNum ≤ e.seqNum := by simpa using (List.mem_filter.mp hy).2
      exact BitVec.le_trans hx (BitVec.le_of_lt (BitVec.not_le.mp hy))

/-- Insertion adds one entry and loses none. -/
theorem Rsm.insert_perm (r : Rsm) (e : Entry) : ((r.insert e).entries).Perm (e :: r.entries) := by
  simp only [Rsm.insert, List.append_assoc, List.singleton_append]
  refine List.perm_middle.trans ?_
  rw [List.take_append_drop]

theorem Rsm.insert_length (r : Rsm) (e : Entry) : (r.insert e).entries.length = r.entries.length + 1 :=
  (Rsm.insert_perm r e).length_eq

theorem payloadBytes_insert (r : Rsm) (e : Entry) :
    payloadBytes (r.insert e).entries = payloadBytes r.entries + e.payload.length := by
  rw [payloadBytes, ((Rsm.insert_perm r e).map _).sum_eq, List.map_cons, List.sum_cons, payloadBytes, Nat.add_comm]

/-- R218: insertion keeps the push order of equal numbers. -/
theorem Rsm.insert_filter (r : Rsm) (e : Entry) (h : Sorted r.entries) (q : U32) :
    (r.insert e).entries.filter (fun x => x.seqNum = q) =
      r.entries.filter (fun x => x.seqNum = q) ++ if e.seqNum = q then [e] else [] := by
  obtain ⟨h1, h2⟩ := sorted_take_filter r.entries h e.seqNum
  have hsplit : r.entries.filter (fun x => x.seqNum = q) =
      (r.entries.filter (fun x => x.seqNum ≤ e.seqNum)).filter (fun x => x.seqNum = q) ++
      (r.entries.filter (fun x => ¬ x.seqNum ≤ e.seqNum)).filter (fun x => x.seqNum = q) := by
    conv => lhs; rw [← List.take_append_drop (r.entries.filter fun x => x.seqNum ≤ e.seqNum).length r.entries, h1, h2]
    rw [List.filter_append]
  rw [Rsm.insert_entries r e h, hsplit, List.filter_append, List.filter_cons]
  by_cases hq : e.seqNum = q
  · have hn : (r.entries.filter (fun x => ¬ x.seqNum ≤ e.seqNum)).filter (fun x => x.seqNum = q) = [] := by
      simp only [List.filter_eq_nil_iff, List.mem_filter, decide_eq_true_eq]
      rintro x ⟨-, hx⟩ rfl
      exact hx (hq ▸ BitVec.le_refl _)
    rw [hn]; simp [hq]
  · simp [hq]

/-! ### Counting -/

/-- R223: the count of distinct sequence numbers. -/
theorem distinctCount_eq_card (qs : List U32) : distinctCount qs = qs.toFinset.card := by
  induction qs with
  | nil => rfl
  | cons q qs ih =>
    rw [distinctCount, ih, List.toFinset_cons]
    split
    · next h => rw [Finset.insert_eq_of_mem (List.mem_toFinset.mpr h), Nat.zero_add]
    · next h => rw [Finset.card_insert_of_notMem (by simpa using h), Nat.add_comm]

theorem distinctCount_le_length (qs : List U32) : distinctCount qs ≤ qs.length := by
  rw [distinctCount_eq_card]; exact List.toFinset_card_le qs

/-- Numbers without repeats are all distinct. -/
theorem distinctCount_nodup {qs : List U32} (h : qs.Nodup) : distinctCount qs = qs.length := by
  rw [distinctCount_eq_card, List.toFinset_card_of_nodup h]

/-! ### One push, one finish -/

/-- R215: everything RSM_PUSH can do, with its guards. -/
theorem rsmPush_cases (p : Params) (r : Rsm) (B : Bytes) :
    (r.phase = .idle ∧ rsmPush p r B = (r, .refused .rsmNotStarted)) ∨
    (∃ e, r.phase = .failed e ∧ rsmPush p r B = (r, e.result)) ∨
    (∃ sub, r.phase = .collecting ∧ segDecode p.payloadSlice B = .error sub ∧
      rsmPush p r B = (r.fail (.format sub), .formatError sub)) ∨
    (∃ h payload, r.phase = .collecting ∧ segDecode p.payloadSlice B = .ok (h, payload) ∧
      digestVerify p.digest payload h.checksum = true ∧ r.overCapacity p payload = true ∧
      rsmPush p r B = (r, .refused .rsmCapacity)) ∨
    (∃ h payload, r.phase = .collecting ∧ segDecode p.payloadSlice B = .ok (h, payload) ∧
      digestVerify p.digest payload h.checksum = true ∧ r.overCapacity p payload = false ∧
      rsmPush p r B = ((r.expect h.totalSegments).insert ⟨h.seqNum, payload⟩, .ok)) ∨
    (∃ h payload, r.phase = .collecting ∧ segDecode p.payloadSlice B = .ok (h, payload) ∧
      digestVerify p.digest payload h.checksum = false ∧ p.corruptPolicy = .skip ∧
      rsmPush p r B = ({ r.expect h.totalSegments with skipped := r.skipped + 1 }, .skipped)) ∨
    (∃ h payload, r.phase = .collecting ∧ segDecode p.payloadSlice B = .ok (h, payload) ∧
      digestVerify p.digest payload h.checksum = false ∧ p.corruptPolicy = .abort ∧
      rsmPush p r B = ((r.expect h.totalSegments).fail (.integrity h.seqNum), .integrityError h.seqNum)) := by
  cases hphase : r.phase with
  | idle => left; simp [rsmPush, hphase]
  | failed e => right; left; exact ⟨e, rfl, by simp [rsmPush, hphase]⟩
  | collecting =>
    right; right
    cases hd : segDecode p.payloadSlice B with
    | error sub => left; exact ⟨sub, rfl, rfl, by simp [rsmPush, hphase, hd]⟩
    | ok hp =>
      obtain ⟨h, payload⟩ := hp
      right
      cases hv : digestVerify p.digest payload h.checksum with
      | true =>
        cases hc : r.overCapacity p payload with
        | true => left; exact ⟨h, payload, rfl, rfl, hv, hc, by simp [rsmPush, hphase, hd, hv, hc]⟩
        | false => right; left; exact ⟨h, payload, rfl, rfl, hv, hc, by simp [rsmPush, hphase, hd, hv, hc]⟩
      | false =>
        right; right
        cases hp : p.corruptPolicy with
        | skip => left; exact ⟨h, payload, rfl, rfl, hv, rfl, by simp [rsmPush, hphase, hd, hv, hp]⟩
        | abort => right; exact ⟨h, payload, rfl, rfl, hv, rfl, by simp [rsmPush, hphase, hd, hv, hp]⟩

/-- R217: everything RSM_FINISH can do. -/
theorem rsmFinish_cases (r : Rsm) :
    (r.phase = .idle ∧ rsmFinish r = (r, .refused .rsmNotStarted)) ∨
    (∃ e, r.phase = .failed e ∧ rsmFinish r = (r.release, e.result)) ∨
    (r.phase = .collecting ∧ r.expected = none ∧ rsmFinish r = ({ r with phase := .idle }, .emptyInput)) ∨
    (∃ n, r.phase = .collecting ∧ r.expected = some n ∧
      rsmFinish r = (Rsm.reset, .reassembled (reassembledOf n r.entries r.skipped))) := by
  cases hphase : r.phase with
  | idle => left; simp [rsmFinish, hphase]
  | failed e => right; left; exact ⟨e, rfl, by simp [rsmFinish, hphase]⟩
  | collecting =>
    right; right
    cases he : r.expected with
    | none => left; simp [rsmFinish, hphase, he]
    | some n => right; exact ⟨n, rfl, rfl, by simp [rsmFinish, hphase, he]⟩

/-- R220: one push of a REASSEMBLE, and whether it ends the pushes. -/
theorem pushAll_cons (p : Params) (r : Rsm) (B : Bytes) (segs : List Bytes) :
    pushAll p r (B :: segs) = if (rsmPush p r B).2 = .refused .rsmCapacity then ((rsmPush p r B).1, true)
      else pushAll p (rsmPush p r B).1 segs := by
  rw [pushAll]
  split
  · next h => rw [h]; simp
  · next hne h => rw [h]; rw [if_neg]; exact hne

/-- R220: REASSEMBLE by its pushes. -/
theorem reassemble_eq (p : Params) (segs : List Bytes) :
    reassemble p segs = if (pushAll p Rsm.started segs).2 = true then (Rsm.reset, .refused .rsmCapacity)
      else rsmFinish (pushAll p Rsm.started segs).1 := by
  unfold reassemble
  split <;> simp_all

/-! ### Canonical form -/

/-- R36: a push keeps the store in ascending order. -/
theorem rsmPush_sorted (p : Params) (r : Rsm) (B : Bytes) (h : Sorted r.entries) : Sorted (rsmPush p r B).1.entries := by
  rcases rsmPush_cases p r B with ⟨-, e⟩ | ⟨_, -, e⟩ | ⟨_, -, -, e⟩ | ⟨_, _, -, -, -, -, e⟩ | ⟨_, _, -, -, -, -, e⟩ |
    ⟨_, _, -, -, -, -, e⟩ | ⟨_, _, -, -, -, -, e⟩ <;> rw [e]
  · exact h
  · exact h
  · exact List.Pairwise.nil
  · exact h
  · exact Rsm.insert_sorted _ _ (by simpa using h)
  · simpa using h
  · exact List.Pairwise.nil

/-- R36: a finish keeps it too. -/
theorem rsmFinish_sorted (r : Rsm) (h : Sorted r.entries) : Sorted (rsmFinish r).1.entries := by
  rcases rsmFinish_cases r with ⟨-, e⟩ | ⟨_, -, e⟩ | ⟨-, -, e⟩ | ⟨_, -, -, e⟩ <;> rw [e]
  · exact h
  · exact h
  · exact h
  · exact List.Pairwise.nil

/-- Two stores in ascending order with the same entries of every number, in the same order, are the same list. -/
theorem sorted_ext : ∀ l1 l2 : List Entry, Sorted l1 → Sorted l2 →
    (∀ q : U32, l1.filter (fun e => e.seqNum = q) = l2.filter (fun e => e.seqNum = q)) → l1 = l2 := by
  intro l1
  induction l1 with
  | nil =>
    intro l2 _ _ h
    cases l2 with
    | nil => rfl
    | cons b l2 => have := h b.seqNum; simp at this
  | cons a l1 ih =>
    intro l2 h1 h2 h
    cases l2 with
    | nil => have := h a.seqNum; simp at this
    | cons b l2 =>
      obtain ⟨a1, a2⟩ := List.pairwise_cons.mp h1
      obtain ⟨b1, b2⟩ := List.pairwise_cons.mp h2
      have hab : a.seqNum ≤ b.seqNum := by
        have : b ∈ (a :: l1).filter (fun e => e.seqNum = b.seqNum) := by rw [h b.seqNum]; simp
        rcases List.mem_cons.mp (List.mem_filter.mp this).1 with rfl | hm
        · exact BitVec.le_refl _
        · exact a1 b hm
      have hba : b.seqNum ≤ a.seqNum := by
        have : a ∈ (b :: l2).filter (fun e => e.seqNum = a.seqNum) := by rw [← h a.seqNum]; simp
        rcases List.mem_cons.mp (List.mem_filter.mp this).1 with rfl | hm
        · exact BitVec.le_refl _
        · exact b1 a hm
      have heq : a.seqNum = b.seqNum := BitVec.le_antisymm hab hba
      have h0 := h a.seqNum
      simp only [List.filter_cons, decide_true, if_true, heq] at h0
      simp only [List.cons.injEq] at h0
      obtain ⟨rfl, h0⟩ := h0
      congr 1
      apply ih l2 a2 b2
      intro q
      have := h q
      simp only [List.filter_cons] at this
      split at this
      · exact (List.cons.inj this).2
      · exact this

/-- R212, step 4: the sorted list ascends. -/
theorem sortEntries_sorted (es : List Entry) : Sorted (sortEntries es) := by
  unfold sortEntries
  have total : Std.Total (fun a b : Entry => a.seqNum ≤ b.seqNum) := ⟨fun a b =>
    (Nat.le_total a.seqNum.toNat b.seqNum.toNat).imp BitVec.le_def.mpr BitVec.le_def.mpr⟩
  have trans : IsTrans Entry (fun a b : Entry => a.seqNum ≤ b.seqNum) := ⟨fun a b c => BitVec.le_trans⟩
  exact List.pairwise_insertionSort _ _

theorem orderedInsert_filter (a : Entry) (l : List Entry) (hs : Sorted l) (q : U32) :
    (l.orderedInsert (fun a b => a.seqNum ≤ b.seqNum) a).filter (fun e => e.seqNum = q) =
      (if a.seqNum = q then [a] else []) ++ l.filter (fun e => e.seqNum = q) := by
  induction l with
  | nil => simp [List.filter_cons]
  | cons b l ih =>
    rw [List.orderedInsert_cons]
    split
    · rw [List.filter_cons]; split <;> simp_all
    · next hn =>
      have i := ih (List.pairwise_cons.mp hs).2
      rw [List.filter_cons, i, List.filter_cons]
      by_cases hb : b.seqNum = q
      · by_cases ha : a.seqNum = q
        · exfalso; apply hn; rw [ha, hb]; exact BitVec.le_refl _
        · simp [hb, ha]
      · simp [hb]

/-- R212, step 4: the sort is stable. -/
theorem sortEntries_filter (es : List Entry) (q : U32) :
    (sortEntries es).filter (fun e => e.seqNum = q) = es.filter (fun e => e.seqNum = q) := by
  induction es with
  | nil => rfl
  | cons a es ih =>
    have : sortEntries (a :: es) = (sortEntries es).orderedInsert (fun a b => a.seqNum ≤ b.seqNum) a := rfl
    rw [this, orderedInsert_filter a _ (sortEntries_sorted es), ih, List.filter_cons]
    split <;> simp_all

end Sys2Proof.Machine
end

