-- ==== Sys2Proof/Tests/Slice0.lean ====
section
/-! SUPPORT. The model's own tests. A test's expected result is the spec's: `V-…` names a vector of spec/95_test_vectors.md, and the
words of the decode tests are written out from the tables of spec/30_encoding.md. `witness_<Obligation>` shows values that meet every
hypothesis of an obligation, for each of its clauses. -/

namespace Sys2Proof.Tests

open Sys2Proof Sys2Proof.Machine

-- One theorem after another: many kernel evaluations at once take a thread and its stack each.
set_option Elab.async false

/-! ### Helpers -/

/-- Whether a step ended in exactly this state. -/
def isNext (o : Ends) (t : State) : Bool :=
  match o with
  | .next u => decide (u = t)
  | .fault _ => false
  | .refused _ => false

/-- The result record a step left. -/
def resultOf (o : Ends) : Option Result :=
  match o with
  | .next u => u.result
  | .fault _ => none
  | .refused _ => none

/-- The store a step left. -/
def storeOf (o : Ends) : Option Rsm :=
  match o with
  | .next u => some u.rsm
  | .fault _ => none
  | .refused _ => none

theorem eq_next_iff (o : Ends) (t : State) : o = .next t ↔ isNext o t = true := by
  cases o <;> simp [isNext]

theorem digestOf_sha256 (p : Bytes) : digestOf .sha256 p = Sha256.hash p := rfl

/-- The defaults of R11 with `DIGEST = SHA-256`, which every printed digest of the spec assumes. -/
def testParams : Params := { Params.default with digest := .sha256 }

/-- An instance right after construction with SHA-256. -/
def testState : State := State.construct testParams

/-- The same in layout LOW. -/
def lowState : State := State.construct { testParams with vtLayout := .low }

/-- The same with PAYLOAD_SLICE = REMAINDER. -/
def remainderState : State := State.construct { testParams with payloadSlice := .remainder }

/-- The same with RSM_CORRUPT_POLICY = SKIP. -/
def skipState : State := State.construct { testParams with corruptPolicy := .skip }

/-- An instance with this store. -/
def storing (s : State) (rsm : Rsm) : State := { s with rsm := rsm }

/-- V-D1. -/
def digestEmpty : Bytes :=
  [0xE3, 0xB0, 0xC4, 0x42, 0x98, 0xFC, 0x1C, 0x14, 0x9A, 0xFB, 0xF4, 0xC8, 0x99, 0x6F, 0xB9, 0x24, 0x27, 0xAE, 0x41, 0xE4, 0x64, 0x9B, 0x93, 0x4C, 0xA4, 0x95, 0x99, 0x1B, 0x78, 0x52, 0xB8, 0x55]

/-- V-D2. -/
def digestAbc : Bytes :=
  [0xBA, 0x78, 0x16, 0xBF, 0x8F, 0x01, 0xCF, 0xEA, 0x41, 0x41, 0x40, 0xDE, 0x5D, 0xAE, 0x22, 0x23, 0xB0, 0x03, 0x61, 0xA3, 0x96, 0x17, 0x7A, 0x9C, 0xB4, 0x10, 0xFF, 0x61, 0xF2, 0x00, 0x15, 0xAD]

/-- V-D3. -/
def digestDoip : Bytes :=
  [0xCB, 0x18, 0x32, 0x53, 0xB2, 0x9F, 0x0E, 0xCA, 0xCA, 0x39, 0xCD, 0x04, 0x0F, 0x45, 0xAC, 0xFB, 0x82, 0xA0, 0x7C, 0x27, 0x06, 0xB9, 0xE2, 0xEE, 0x27, 0x68, 0xD1, 0xD7, 0x30, 0xE0, 0x74, 0x50]

/-- V-D5. -/
def digest0123 : Bytes :=
  [0x05, 0x4E, 0xDE, 0xC1, 0xD0, 0x21, 0x1F, 0x62, 0x4F, 0xED, 0x0C, 0xBC, 0xA9, 0xD4, 0xF9, 0x40, 0x0B, 0x0E, 0x49, 0x1C, 0x43, 0x74, 0x2A, 0xF2, 0xC5, 0xB0, 0xAB, 0xEB, 0xF0, 0xC9, 0x90, 0xD8]

/-- V-D6. -/
def digest4567 : Bytes :=
  [0xC6, 0xD4, 0x4C, 0xF4, 0x18, 0xF6, 0x10, 0xE3, 0xFE, 0x9E, 0x1D, 0x92, 0x94, 0xFF, 0x43, 0xDE, 0xF8, 0x1C, 0x6C, 0xDC, 0xAD, 0x6C, 0xBB, 0x18, 0x20, 0xCF, 0xF4, 0x8D, 0x3A, 0xA4, 0x35, 0x5D]

/-- V-D7. -/
def digest89 : Bytes :=
  [0x73, 0x90, 0x75, 0x89, 0x10, 0x1A, 0x7E, 0x8A, 0xB8, 0x31, 0x78, 0xE7, 0xDB, 0x29, 0x97, 0xAA, 0xB7, 0x27, 0x2C, 0xD0, 0x2D, 0x36, 0x4E, 0x8E, 0x3E, 0xCC, 0x2B, 0xEC, 0xCD, 0xA4, 0xB6, 0x31]

/-- G0 of program P2. -/
def segG0 : Bytes :=
  [0x44, 0x32, 0xA1, 0xB2, 0xC3, 0xD4, 0x00, 0x00, 0x00, 0x00, 0x00, 0x00, 0x00, 0x03, 0x02, 0x02, 0x00, 0x00, 0x00, 0x01, 0x00, 0x00, 0x00, 0x04]
    ++ digest0123
    ++ [0x00, 0x01, 0x02, 0x03]

/-- G1 of program P2. -/
def segG1 : Bytes :=
  [0x44, 0x32, 0xA1, 0xB2, 0xC3, 0xD4, 0x00, 0x00, 0x00, 0x01, 0x00, 0x00, 0x00, 0x03, 0x02, 0x02, 0x00, 0x00, 0x00, 0x01, 0x00, 0x00, 0x00, 0x04]
    ++ digest4567
    ++ [0x04, 0x05, 0x06, 0x07]

/-- G2 of program P2. -/
def segG2 : Bytes :=
  [0x44, 0x32, 0xA1, 0xB2, 0xC3, 0xD4, 0x00, 0x00, 0x00, 0x02, 0x00, 0x00, 0x00, 0x03, 0x02, 0x02, 0x00, 0x00, 0x00, 0x01, 0x00, 0x00, 0x00, 0x02]
    ++ digest89
    ++ [0x08, 0x09]

/-- G1x of program P2: G1 with byte 57 changed. -/
def segG1x : Bytes :=
  [0x44, 0x32, 0xA1, 0xB2, 0xC3, 0xD4, 0x00, 0x00, 0x00, 0x01, 0x00, 0x00, 0x00, 0x03, 0x02, 0x02, 0x00, 0x00, 0x00, 0x01, 0x00, 0x00, 0x00, 0x04]
    ++ digest4567
    ++ [0x04, 0xFA, 0x06, 0x07]

/-- E of V-S4. -/
def segE : Bytes :=
  [0x44, 0x32, 0x01, 0x02, 0x03, 0x04, 0x00, 0x00, 0x00, 0x05, 0x00, 0x00, 0x00, 0x09, 0x01, 0x01, 0x00, 0x00, 0x00, 0x02, 0x00, 0x00, 0x00, 0x03]
    ++ digestAbc
    ++ [0x61, 0x62, 0x63]

/-- The header of V-S5. -/
def headerE : SegmentHeader := ⟨0x01020304, 5, 9, 1, 1, 2, 3, digestAbc⟩

/-- The header of G0. -/
def headerG0 : SegmentHeader := ⟨0xA1B2C3D4, 0, 3, 2, 2, 1, 4, digest0123⟩

/-- The header of G1. -/
def headerG1 : SegmentHeader := ⟨0xA1B2C3D4, 1, 3, 2, 2, 1, 4, digest4567⟩

/-- The store after `RSM_START; RSM_PUSH(G2); RSM_PUSH(G0)` (V-R14). -/
def storeG0G2 : Rsm := ⟨.collecting, some 3, [⟨0, [0, 1, 2, 3]⟩, ⟨2, [8, 9]⟩], 0⟩

/-- The store after a push of G1x under ABORT (V-R15). -/
def storeFailed : Rsm := ⟨.failed (.integrity 1), some 3, [], 0⟩

/-- The packet of V-A2 and V-A14. -/
def packetA2 : Bytes := [0x13, 0x00, 0x00, 0x00, 0x00, 0x07, 0x65, 0x4F, 0x8A, 0x10, 0x00, 0x00, 0x00, 0x01, 0xBE, 0xEF]

/-- A packet of layout HIGH with this first byte and policy id (S4 to S6, V-A8 to V-A13). -/
def packetOf (first policy : Byte) : Bytes := [first, 0, 0, 0, 0, 0, 0, 0, 0, 0, 0, 0, 0, policy, 0, 0]

/-! ### Well-formedness -/

theorem test_wf_refuses_short_digest_operand : (Instr.digestVerify [0x61] (digestAbc.take 31)).wf = false := by decide
theorem test_wf_refuses_long_digest_operand : (Instr.digestVerify [0x61] (digestAbc ++ [0])).wf = false := by decide
theorem test_wf_refuses_short_header_checksum :
    (Instr.segmentHeader { headerE with checksum := digestAbc.take 31 }).wf = false := by decide
theorem test_wf_accepts_whole_digest : (Instr.digestVerify [] digestAbc).wf = true ∧ (Instr.segmentHeader headerE).wf = true := by
  decide

/-! ### Decoding: one written-out word per constructor -/

theorem test_decode_ptLookup : decodeRequest .cmd8 [0x01, 0xFF, 0x00, 0x00, 0x99] = .ok (.ptLookup 0xFF000099) := by decide
theorem test_decode_admDecode : decodeRequest .cmd8 [0x10, 0x02, 0xAB, 0xCD] = .ok (.admDecode [0xAB, 0xCD]) := by decide
theorem test_decode_admEncode :
    decodeRequest .cmd8 [0x11, 0x01, 0x0F, 0, 0, 0, 7, 0x65, 0x4F, 0x8A, 0x10, 0, 0, 0, 1, 0xBE, 0xEF] =
      .ok (.admEncode ⟨1, 15, 7, 0x654F8A10, 1, 0xBEEF⟩) := by decide
theorem test_decode_admitPacket : decodeRequest .cmd8 [0x12, 0x01, 0xAB, 0x05] = .ok (.admitPacket [0xAB] ⟨5⟩) := by decide
theorem test_decode_digestGen : decodeRequest .cmd8 [0x20, 0x03, 0x61, 0x62, 0x63] = .ok (.digestGen [0x61, 0x62, 0x63]) := by
  decide
theorem test_decode_digestVerify : decodeRequest .cmd8 ([0x21, 0x00] ++ digestEmpty) = .ok (.digestVerify [] digestEmpty) := by
  decide
theorem test_decode_segEncode :
    decodeRequest .cmd8 [0x22, 0xA1, 0xB2, 0xC3, 0xD4, 0, 0, 0, 5, 0, 0, 0, 9, 0x02, 0x01, 0, 0, 0, 2, 0x01, 0x78] =
      .ok (.segEncode 0xA1B2C3D4 5 9 2 1 2 [0x78]) := by decide
theorem test_decode_segDecode : decodeRequest .cmd8 [0x23, 0x03, 0x44, 0x32, 0xA1] = .ok (.segDecode [0x44, 0x32, 0xA1]) := by decide
theorem test_decode_segTag : decodeRequest .cmd8 [0x30, 0x80, 0x80, 0x08] = .ok (.segTag 131072) := by decide
theorem test_decode_split :
    decodeRequest .cmd8 [0x31, 0x01, 0x78, 0x01, 0x04, 0, 0, 0, 1, 0xA1, 0xB2, 0xC3, 0xD4] =
      .ok (.split [0x78] (some 4) 1 0xA1B2C3D4) := by decide
theorem test_decode_filterOne : decodeRequest .cmd8 [0x32, 0x01, 0x78, 0x01] = .ok (.filterOne [0x78] true) := by decide
theorem test_decode_enforce : decodeRequest .cmd8 [0x33, 0x02, 0x01, 0x78, 0x00, 0x00] = .ok (.enforce [[0x78], []] false) := by
  decide
theorem test_decode_rsmStart : decodeRequest .cmd8 [0x40] = .ok .rsmStart := by decide
theorem test_decode_rsmPush : decodeRequest .cmd8 [0x41, 0x02, 0x78, 0x79] = .ok (.rsmPush [0x78, 0x79]) := by decide
theorem test_decode_rsmFinish : decodeRequest .cmd8 [0x42] = .ok .rsmFinish := by decide
theorem test_decode_reassemble : decodeRequest .cmd8 [0x43, 0x02, 0x01, 0x78, 0x00] = .ok (.reassemble [[0x78], []]) := by decide
theorem test_decode_admissionHeader :
    decodeRequest .wire128 packetA2 = .ok (.admissionHeader ⟨1, 3, 7, 0x654F8A10, 1, 0xBEEF⟩ 0) := by decide +kernel
theorem test_decode_admissionHeaderLow :
    decodeRequest .wire128Low ([0x00, 0x13] ++ packetA2.drop 2) = .ok (.admissionHeaderLow ⟨1, 3, 7, 0x654F8A10, 1, 0xBEEF⟩ 0) := by
  decide +kernel
theorem test_decode_segmentHeader : decodeRequest .wire448 (segE.take 56) = .ok (.segmentHeader headerE) := by decide +kernel

theorem test_decode_refuses_by_name :
    decodeRequest .cmd8 [] = .error .emptyRequest ∧ decodeRequest .cmd8 [0x02] = .error (.illegalCommand 0x02) ∧
    decodeRequest .cmd8 [0x01, 0, 0, 0] = .error .truncatedOperand ∧ decodeRequest .cmd8 [0x32, 0x00, 0x02] = .error .badOperand ∧
    decodeRequest .cmd8 [0x40, 0x00] = .error .trailingBytes ∧ decodeRequest .wire128 [0x10] = .error .wireLength ∧
    decodeRequest .wire448 (segE.drop 1 |>.take 56) = .error .notASegment := by decide +kernel

theorem test_table_words :
    decodeTableWord 8 0x40 = some .rsmStart ∧ decodeTableWord 8 0x02 = none ∧ decodeTableWord 8 0x23 = some (.segDecode []) ∧
    decodeTableWord 128 0x10000000000000000000000000010000 = some (.admissionHeader ⟨1, 0, 0, 0, 1, 0⟩ 0) := by decide +kernel

theorem test_step_runs_table_word : storeOf (step (State.reset.withFetchWord 8 0x40)) = some Rsm.started := by decide +kernel

/-! ### Unit PT -/

/-- V-PT1, V-PT2. -/
theorem test_pt_lookup_default_table :
    resultOf (exec (.ptLookup 1) testState) = some (.level (some 0)) ∧
    resultOf (exec (.ptLookup 4) testState) = some (.level (some 3)) := by decide

/-- R33, R135: a table with two levels for one key, or with a level wider than `LEVEL`, is no table; V-PT9 is one. -/
theorem test_policy_table_is_a_function :
    ¬ (([(1, 0), (1, 5)] : List (U32 × Level)).map Prod.fst).Pairwise (· < ·) ∧
    (([(0x99, 7)] : List (U32 × Level)).map Prod.fst).Pairwise (· < ·) ∧
    (PolicyTable.mk [(0x99, 256)] (by decide)).fits 8 = false ∧ (PolicyTable.mk [(0x99, 7)] (by decide)).fits 8 = true := by decide

/-- V-PT3, V-PT7. -/
theorem test_pt_lookup_compares_32_bits :
    resultOf (exec (.ptLookup 0) testState) = some (.level none) ∧
    resultOf (exec (.ptLookup 0x101) testState) = some (.level none) := by decide

/-! ### Units AHC and AG -/

/-- V-A2, in both layouts. -/
theorem test_adm_decode_layouts :
    resultOf (exec (.admDecode packetA2) testState) = some (.admHeader ⟨1, 3, 7, 0x654F8A10, 1, 0xBEEF⟩) ∧
    resultOf (exec (.admDecode packetA2) lowState) = some (.admHeader ⟨0, 0, 7, 0x654F8A10, 1, 0xBEEF⟩) := by decide +kernel

/-- V-A7. -/
theorem test_adm_decode_length :
    resultOf (exec (.admDecode (packetA2.take 15)) testState) = some (.formatError .admLength) ∧
    resultOf (exec (.admDecode (packetA2 ++ [0])) testState) = some (.formatError .admLength) := by decide +kernel

/-- V-A1, in both layouts. -/
theorem test_adm_encode_layouts :
    resultOf (exec (.admEncode ⟨1, 3, 7, 0x654F8A10, 1, 0xBEEF⟩) testState) = some (.bytes packetA2) ∧
    resultOf (exec (.admEncode ⟨1, 3, 7, 0x654F8A10, 1, 0xBEEF⟩) lowState) = some (.bytes ([0x00, 0x13] ++ packetA2.drop 2)) := by
  decide +kernel

/-- V-A3. -/
theorem test_adm_encode_all_ones :
    resultOf (exec (.admEncode ⟨1, 15, 0xFFFFFFFF, 0xFFFFFFFF, 4, 0xFFFF⟩) testState) =
      some (.bytes [0x1F, 0, 0xFF, 0xFF, 0xFF, 0xFF, 0xFF, 0xFF, 0xFF, 0xFF, 0, 0, 0, 4, 0xFF, 0xFF]) := by decide +kernel

/-- V-A13, V-A17: the order of the tests. -/
theorem test_admit_drops_in_order :
    resultOf (exec (.admitPacket (packetOf 0x20 0x99) ⟨1⟩) testState) = some (.decision (.drop (.badVersion 2))) ∧
    resultOf (exec (.admitPacket ((packetOf 0x20 0x99).take 15) ⟨1⟩) testState) = some (.decision (.drop .tooShort)) ∧
    resultOf (exec (.admitPacket (packetOf 0x10 0x99) ⟨1⟩) testState) = some (.decision (.drop (.policyRejected 0x99))) := by
  decide +kernel

/-- V-A14, V-A18, V-A19. -/
theorem test_admit_forwards :
    resultOf (exec (.admitPacket (packetA2 ++ [0xDE, 0xAD]) ⟨9⟩) testState) = some (.decision (.forward 1 ⟨9⟩)) ∧
    resultOf (exec (.admitPacket (packetOf 0x10 1) ⟨9⟩) lowState) = some (.decision (.drop (.badVersion 0))) := by decide +kernel

/-! ### Units DG and SHC -/

/-- V-D1. -/
theorem test_digest_of_nothing : resultOf (exec (.digestGen []) testState) = some (.bytes digestEmpty) := by decide +kernel

/-- V-D2. -/
theorem test_digest_of_abc : resultOf (exec (.digestGen [0x61, 0x62, 0x63]) testState) = some (.bytes digestAbc) := by decide +kernel

/-- V-D11, V-D13. -/
theorem test_digest_verify_true :
    resultOf (exec (.digestVerify [0x44, 0x4F, 0x49, 0x50] digestDoip) testState) = some (.bool true) ∧
    resultOf (exec (.digestVerify [] digestEmpty) testState) = some (.bool true) := by decide +kernel

/-- V-D12, V-D14. -/
theorem test_digest_verify_false :
    resultOf (exec (.digestVerify [0x44, 0x4F, 0x49, 0x51] digestDoip) testState) = some (.bool false) ∧
    resultOf (exec (.digestVerify [0x44, 0x4F, 0x49, 0x50] (digestDoip.set 31 0x51)) testState) = some (.bool false) := by
  decide +kernel

/-- V-S1. -/
theorem test_seg_encode :
    resultOf (exec (.segEncode 0xA1B2C3D4 0 3 0x02 0x02 1 [0x44, 0x4F, 0x49, 0x50]) testState) = some (.bytes
      ([0x44, 0x32, 0xA1, 0xB2, 0xC3, 0xD4, 0, 0, 0, 0, 0, 0, 0, 3, 2, 2, 0, 0, 0, 1, 0, 0, 0, 4] ++ digestDoip ++
        [0x44, 0x4F, 0x49, 0x50])) := by decide +kernel

/-- V-S3. -/
theorem test_seg_encode_all_ones :
    resultOf (exec (.segEncode 0xFFFFFFFF 0xFFFFFFFF 0xFFFFFFFF 0xFF 0xFF 0xFFFFFFFF [0x61, 0x62, 0x63]) testState) = some (.bytes
      ([0x44, 0x32] ++ List.replicate 18 0xFF ++ [0, 0, 0, 3] ++ digestAbc ++ [0x61, 0x62, 0x63])) := by decide +kernel

/-- V-S5, V-S9. -/
theorem test_seg_decode_slicing :
    resultOf (exec (.segDecode (segE ++ [0x99, 0x98])) testState) = some (.segment headerE [0x61, 0x62, 0x63]) ∧
    resultOf (exec (.segDecode (segE ++ [0x99, 0x98])) remainderState) =
      some (.segment headerE [0x61, 0x62, 0x63, 0x99, 0x98]) := by decide +kernel

/-- V-S6, V-S7, V-S8, V-S10. -/
theorem test_seg_decode_errors :
    resultOf (exec (.segDecode (segE.take 55)) testState) = some (.formatError .segLength) ∧
    resultOf (exec (.segDecode (segE.set 1 0x33)) testState) = some (.formatError .segMagic) ∧
    resultOf (exec (.segDecode (segE.take 58)) testState) = some (.formatError .segTruncated) ∧
    resultOf (exec (.segDecode (segE.take 58)) remainderState) = some (.segment headerE [0x61, 0x62]) := by decide +kernel

/-! ### Units SG and GF -/

/-- V-G4, V-G5. -/
theorem test_seg_tag_boundary :
    resultOf (exec (.segTag 131071) testState) = some (.tag 2 2) ∧ resultOf (exec (.segTag 131072) testState) = some (.tag 0 0) := by
  decide

/-- V-G7, V-G8. -/
theorem test_seg_tag_does_not_wrap :
    resultOf (exec (.segTag 4294967296) testState) = some (.tag 0 0) ∧
    resultOf (exec (.segTag 4294967301) testState) = some (.tag 0 0) := by decide

/-- V-G16, program P2 step 1. -/
theorem test_split_program_p2 :
    resultOf (exec (.split [0, 1, 2, 3, 4, 5, 6, 7, 8, 9] (some 4) 1 0xA1B2C3D4) testState) =
      some (.segments [segG0, segG1, segG2]) := by decide +kernel

/-- V-G9, V-G23, V-G24. -/
theorem test_split_refusals :
    resultOf (exec (.split [] (some 4) 1 0) testState) = some (.segments []) ∧
    resultOf (exec (.split [1] (some 0) 1 0) testState) = some (.refused .segmentSizeZero) ∧
    resultOf (exec (.split [1] (some 4294967296) 1 0) testState) = some (.refused .segmentSizeTooLarge) := by decide +kernel

/-- V-F3, V-F10, V-F11. -/
theorem test_filter_one_external :
    resultOf (exec (.filterOne segG0 true) testState) = some (.verdict .drop) ∧
    resultOf (exec (.filterOne (segG0.set 14 0xFF) true) testState) = some (.verdict .drop) ∧
    resultOf (exec (.filterOne (segE.set 57 0) true) testState) = some (.verdict (.forward (segE.set 57 0))) ∧
    resultOf (exec (.filterOne (segE.take 58) true) testState) = some (.verdict (.malformed .segTruncated)) := by decide +kernel

/-- V-F8, R119. -/
theorem test_filter_one_elsewhere :
    resultOf (exec (.filterOne [0x6A, 0x75, 0x6E, 0x6B] (extBit "internal")) testState) =
      some (.verdict (.forward [0x6A, 0x75, 0x6E, 0x6B])) ∧
    resultOf (exec (.filterOne [0x6A, 0x75, 0x6E, 0x6B] (extBit "external")) testState) =
      some (.verdict (.malformed .segLength)) := by decide +kernel

/-- V-F14, V-F16: two kept in order around one dropped twice and one malformed. -/
theorem test_enforce_external :
    resultOf (exec (.enforce [segE, segG0, segG0, [0x6A], segE.set 14 0] true) testState) =
      some (.enforced ⟨[segE, segE.set 14 0], 2, 1⟩) := by decide +kernel

/-- V-F12, V-F13. -/
theorem test_enforce_elsewhere :
    resultOf (exec (.enforce [[0x6A], segG0] false) testState) = some (.enforced ⟨[[0x6A], segG0], 0, 0⟩) ∧
    resultOf (exec (.enforce [] true) testState) = some (.enforced ⟨[], 0, 0⟩) := by decide +kernel

/-! ### Unit RSM -/

/-- V-R16: from FAILED. -/
theorem test_rsm_start_clears : storeOf (exec .rsmStart (storing testState storeFailed)) = some ⟨.collecting, none, [], 0⟩ := by
  decide +kernel

/-- V-R14: the third push goes between the two others. -/
theorem test_rsm_push_sorts :
    storeOf (exec (.rsmPush segG1) (storing testState storeG0G2)) =
      some ⟨.collecting, some 3, [⟨0, [0, 1, 2, 3]⟩, ⟨1, [4, 5, 6, 7]⟩, ⟨2, [8, 9]⟩], 0⟩ := by decide +kernel

/-- V-R15, V-R17. -/
theorem test_rsm_push_corrupted :
    storeOf (exec (.rsmPush segG1x) (storing testState storeG0G2)) = some storeFailed ∧
    storeOf (exec (.rsmPush segG1x) (storing skipState storeG0G2)) = some { storeG0G2 with skipped := 1 } ∧
    resultOf (exec (.rsmPush segG0) (storing testState storeFailed)) = some (.integrityError 1) := by decide +kernel

/-- V-R3. -/
theorem test_rsm_finish_gap :
    resultOf (exec .rsmFinish (storing testState storeG0G2)) = some (.reassembled ⟨[0, 1, 2, 3, 8, 9], some ⟨3, 2⟩, 0⟩) ∧
    storeOf (exec .rsmFinish (storing testState storeG0G2)) = some Rsm.reset := by decide +kernel

/-- V-R1, V-R14, V-R15. -/
theorem test_rsm_finish_errors :
    resultOf (exec .rsmFinish (storing testState Rsm.started)) = some .emptyInput ∧
    resultOf (exec .rsmFinish testState) = some (.refused .rsmNotStarted) ∧
    resultOf (exec .rsmFinish (storing testState storeFailed)) = some (.integrityError 1) := by decide +kernel

/-- V-R2, V-R4. -/
theorem test_reassemble :
    resultOf (exec (.reassemble [segG2, segG0, segG1]) testState) =
      some (.reassembled ⟨[0, 1, 2, 3, 4, 5, 6, 7, 8, 9], none, 0⟩) ∧
    resultOf (exec (.reassemble [segG2, segG1x, [0x78, 0x78]]) testState) = some (.integrityError 1) := by decide +kernel

/-- V-R7, V-R18. -/
theorem test_reassemble_duplicates_and_capacity :
    resultOf (exec (.reassemble [segG1, segG1, segG2]) testState) =
      some (.reassembled ⟨[4, 5, 6, 7, 4, 5, 6, 7, 8, 9], some ⟨3, 2⟩, 0⟩) ∧
    resultOf (exec (.reassemble [segG0, segG1, segG2]) (State.construct { testParams with maxBytes := some 9 })) =
      some (.refused .rsmCapacity) := by decide +kernel

/-! ### The wire-format rows -/

/-- V-A6: reserved bits are dropped. -/
theorem test_wire_admission_header :
    resultOf (step (testState.withInbox [.request .wire128 ((packetOf 0x10 1).set 1 0xFF)])) =
      some (.admHeader ⟨1, 0, 0, 0, 1, 0⟩) := by decide +kernel

/-- V-A6 under layout LOW. -/
theorem test_wire_admission_header_low :
    resultOf (step (testState.withInbox [.request .wire128Low ((packetOf 0x10 1).set 1 0xFF)])) =
      some (.admHeader ⟨15, 15, 0, 0, 1, 0⟩) := by decide +kernel

/-- V-S5, V-S10. -/
theorem test_wire_segment_header :
    resultOf (step (testState.withInbox [.request .wire448 (segE.take 56)])) = some (.segHeader headerE) ∧
    resultOf (step (testState.withInbox [.request .wire448 ((segE.take 56).set 1 0x33)])) = some (.formatError .segMagic) := by
  decide +kernel

/-! ### Witnesses: values that meet the hypotheses of the obligations -/

/-- An instance with a queue and a store in COLLECTING. -/
def busyState : State := (storing testState storeG0G2).withInbox [.request .cmd8 (0x41 :: putBytes segG1)]

/-- `busyState` once its push is taken and done. -/
def pushedState : State :=
  (storing testState ⟨.collecting, some 3, [⟨0, [0, 1, 2, 3]⟩, ⟨1, [4, 5, 6, 7]⟩, ⟨2, [8, 9]⟩], 0⟩).answered .ok

theorem storeG0G2_inv : storeG0G2.Inv testParams :=
  ⟨by decide, by decide, fun e h => absurd h (by simp [storeG0G2]), by decide, fun q h => absurd h (by simp [storeG0G2]), by decide,
    by decide, by decide, by decide⟩

theorem storeFailed_inv : storeFailed.Inv testParams :=
  ⟨by decide, by decide, fun _ _ => rfl, by decide, fun _ _ => ⟨rfl, rfl⟩, by decide, by decide, by decide, by decide⟩

theorem witness_StepKeepsInvariant : busyState.Inv ∧ step busyState = .next pushedState :=
  ⟨storeG0G2_inv, (eq_next_iff _ _).mpr (by decide +kernel)⟩

theorem witness_StepRunsDecodedOperation :
    busyState.inbox = .request .cmd8 (0x41 :: putBytes segG1) :: [] ∧
    decodeRequest .cmd8 (0x41 :: putBytes segG1) = .ok (.rsmPush segG1) ∧
    decodeTableWord 8 0x42 = some .rsmFinish ∧ decodeTableWord 128 0 = some (.admissionHeader ⟨0, 0, 0, 0, 0, 0⟩ 0) := by
  decide +kernel

theorem witness_IdleInstanceStandsStill : State.reset.inbox = [] := rfl

theorem witness_LaterResetKeepsConfiguration :
    ((storing testState storeG0G2).withInbox [.reset]).inbox = .reset :: [] := rfl

theorem witness_UnassignedCodeIsIllegalCommand :
    ∀ code ∈ ([0x00, 0x02, 0x0F, 0x13, 0x24, 0x34, 0x44, 0xFF] : Bytes),
      code ∉ ([0x01, 0x10, 0x11, 0x12, 0x20, 0x21, 0x22, 0x23, 0x30, 0x31, 0x32, 0x33, 0x40, 0x41, 0x42, 0x43] : Bytes) ∧
      (testState.withInbox [.request .cmd8 [code, 0x99]]).inbox = .request .cmd8 (code :: [0x99]) :: [] := by decide

theorem witness_DecodeOfEncodeIsIdentity :
    (Instr.digestVerify [0x61, 0x62, 0x63] digestAbc).wf = true ∧ (Instr.segTag 4294967301).wf = true ∧
    (Instr.segmentHeader headerE).wf = true := by decide

theorem witness_EncodeOfDecodeIsIdentity :
    decodeRequest .cmd8 [0x30, 0x80, 0x80, 0x08] = .ok (.segTag 131072) ∧
    decodeRequest .wire448 (segE.take 56) = .ok (.segmentHeader headerE) := by decide +kernel

/-- Both layouts, both slicing modes (under EXPLICIT a payload of exactly `payloadLength` bytes), and a word whose magic is off by one. -/
theorem witness_WireWordsAgreeWithCodecs :
    packetA2.length = 16 ∧ testState.params.vtLayout = .high ∧ lowState.params.vtLayout = .low ∧
    (segE.take 56).length = 56 ∧ (segE.take 56).take 2 = [0x44, 0x32] ∧ remainderState.params.payloadSlice = .remainder ∧
    testState.params.payloadSlice = .explicit ∧ decodeRequest .wire448 (segE.take 56) = .ok (.segmentHeader headerE) ∧
    headerE.payloadLength.toNat ≤ [0x61, 0x62, 0x63].length ∧
    ((segE.take 56).set 1 0x33).length = 56 ∧ ((segE.take 56).set 1 0x33).take 2 ≠ [0x44, 0x32] ∧
    (testState.withInbox [.request .wire448 ((segE.take 56).set 1 0x33)]).inbox =
      .request .wire448 ((segE.take 56).set 1 0x33) :: [] := by
  decide +kernel

/-- Both the clause of a present key, at the first and the last, and the clause of an absent one. -/
theorem witness_PolicyLookupIsExactKeyMatch :
    ((1, 0) : U32 × Level) ∈ testState.params.policyTable.rows ∧ ((4, 3) : U32 × Level) ∈ testState.params.policyTable.rows ∧
    (∀ row ∈ testState.params.policyTable.rows, row.1 ≠ 5) ∧ (∀ row ∈ testState.params.policyTable.rows, row.1 ≠ 0x101) := by decide

theorem witness_AdmDecodeAssemblesFields :
    (packetA2.take 15).length ≠ 16 ∧ (packetA2 ++ [0]).length ≠ 16 ∧ packetA2.length = 16 ∧
    testState.params.vtLayout = .high ∧ lowState.params.vtLayout = .low := by decide

theorem witness_AdmissionCodecRoundTrips : packetA2.length = 16 := by decide

/-- One packet per clause, at the boundary of its length and version, under both layouts. -/
theorem witness_AdmitTestsInFixedOrder :
    (packetA2.take 15).length < 16 ∧
    (16 ≤ (packetOf 0x20 1).length ∧ versionOf testState.params.vtLayout (packetOf 0x20 1) ≠ 1) ∧
    (16 ≤ packetA2.length ∧ versionOf lowState.params.vtLayout packetA2 ≠ 1) ∧
    (16 ≤ (packetOf 0x10 5).length ∧ versionOf testState.params.vtLayout (packetOf 0x10 5) = 1 ∧
      ∀ row ∈ testState.params.policyTable.rows, row.1 ≠ fieldAt (packetOf 0x10 5) 10) ∧
    (16 ≤ packetA2.length ∧ versionOf testState.params.vtLayout packetA2 = 1 ∧
      ∃ row ∈ testState.params.policyTable.rows, row.1 = fieldAt packetA2 10) := by decide +kernel

theorem witness_AdmissionDecisionIsDetermined :
    (storing testState storeG0G2).params.policyTable = testState.params.policyTable ∧
    ((packetOf 0x10 1).length < 16 ↔ (packetA2 ++ [7]).length < 16) ∧
    versionOf (storing testState storeG0G2).params.vtLayout (packetA2 ++ [7]) = versionOf testState.params.vtLayout (packetOf 0x10 1) ∧
    fieldAt (packetA2 ++ [7]) 10 = fieldAt (packetOf 0x10 1) 10 ∧
    exec (.admitPacket (packetOf 0x10 1) ⟨3⟩) testState = .next (testState.answered (.decision (.forward 1 ⟨3⟩))) ∧
    exec (.admitPacket (packetA2 ++ [7]) ⟨4⟩) (storing testState storeG0G2) =
      .next ((storing testState storeG0G2).answered (.decision (.forward 1 ⟨4⟩))) := by
  simp only [eq_next_iff]; decide +kernel

theorem witness_DigestVerifyAcceptsExactlyTheDigest : lowState.params.digest = testState.params.digest := rfl

theorem witness_SegEncodeWritesHeaderAndPayload :
    ([] : Bytes).length < 2 ^ 32 ∧ (List.replicate (2 ^ 32 - 1) (0 : Byte)).length < 2 ^ 32 := by
  rw [List.length_replicate]; decide

theorem witness_SegEncodeRefusesLongPayload : (List.replicate (2 ^ 32) (0 : Byte)).length > 2 ^ 32 - 1 := by
  rw [List.length_replicate]; decide

/-- One buffer per clause, at the boundary of its length. -/
theorem witness_SegDecodeTestsInFixedOrder :
    (segE.take 55).length < 56 ∧
    (56 ≤ ((segE.take 56).set 1 0x33).length ∧ ((segE.take 56).set 1 0x33).take 2 ≠ [0x44, 0x32]) ∧
    (56 ≤ (segE.take 58).length ∧ (segE.take 58).take 2 = [0x44, 0x32] ∧ testState.params.payloadSlice = .explicit ∧
      (segE.take 58).length - 56 < (fieldAt (segE.take 58) 20).toNat) := by decide +kernel

theorem witness_SegDecodeReadsFieldsAndPayload :
    (56 ≤ segE.length ∧ segE.take 2 = [0x44, 0x32] ∧
      (testState.params.payloadSlice = .explicit → 56 + (fieldAt segE 20).toNat ≤ segE.length)) ∧
    (56 ≤ (segE.take 56).length ∧ (segE.take 56).take 2 = [0x44, 0x32] ∧
      (remainderState.params.payloadSlice = .explicit → 56 + (fieldAt (segE.take 56) 20).toNat ≤ (segE.take 56).length)) := by
  decide +kernel

theorem witness_SegmentCodecRoundTrips :
    [0x61].length ≤ 2 ^ 32 - 1 ∧ testState.params.payloadSlice = .explicit ∧
    exec (.segDecode (segE ++ [0x99])) testState = .next (testState.answered (.segment headerE [0x61, 0x62, 0x63])) ∧
    exec (.digestGen [0x61, 0x62, 0x63]) testState = .next (testState.answered (.bytes headerE.checksum)) := by
  simp only [eq_next_iff]; decide +kernel

theorem witness_SegDecodeSuccessReadsNoPayload :
    (segE.set 57 0).length = segE.length ∧ (segE.set 57 0).take 2 = segE.take 2 ∧ testState.params.payloadSlice = .explicit ∧
    ((segE.set 57 0).drop 20).take 4 = (segE.drop 20).take 4 ∧
    exec (.segDecode segE) testState = .next (testState.answered (.segment headerE [0x61, 0x62, 0x63])) ∧
    (segE ++ [0x99]).take (56 + headerE.payloadLength.toNat) = segE.take (56 + headerE.payloadLength.toNat) := by
  simp only [eq_next_iff]; decide +kernel

/-- One pair per clause, each at its boundary; the last two clauses meet at `L = (2^32 − 1) × S`. -/
theorem witness_SplitRefusesUnfitOperands :
    2 ^ 32 > 2 ^ 32 - 1 ∧
    (0 < 1 ∧ 1 ≤ 2 ^ 32 - 1 ∧ (2 ^ 32 - 1) * 1 < (List.replicate (2 ^ 32) (0 : Byte)).length) ∧
    (0 < 1 ∧ 1 ≤ 2 ^ 32 - 1 ∧ (List.replicate (2 ^ 32 - 1) (0 : Byte)).length ≤ (2 ^ 32 - 1) * 1) ∧
    (0 < 2 ^ 32 - 1 ∧ 2 ^ 32 - 1 ≤ 2 ^ 32 - 1 ∧ ([] : Bytes).length ≤ (2 ^ 32 - 1) * (2 ^ 32 - 1)) := by
  simp only [List.length_replicate]; decide

theorem witness_SplitCoversTheData :
    0 < 4 ∧ 4 ≤ 2 ^ 32 - 1 ∧ ([0, 1, 2, 3, 4, 5, 6, 7, 8, 9] : Bytes).length ≤ (2 ^ 32 - 1) * 4 ∧
    0 < 2 ^ 32 - 1 ∧ 2 ^ 32 - 1 ≤ 2 ^ 32 - 1 ∧ ([] : Bytes).length ≤ (2 ^ 32 - 1) * (2 ^ 32 - 1) := by decide

/-- SPLIT of ten bytes by four (V-G16), which also meets the hypothesis of `SplitThenReassembleIsIdentity`. -/
theorem witness_SplitTagsTheFirstSegments :
    exec (.split [0, 1, 2, 3, 4, 5, 6, 7, 8, 9] (some 4) 1 0xA1B2C3D4) testState =
      .next (testState.answered (.segments [segG0, segG1, segG2])) := by
  simp only [eq_next_iff]; decide +kernel

theorem witness_FilterDropsProhibitedAtExternalNode :
    exec (.segDecode segE) testState = .next (testState.answered (.segment headerE [0x61, 0x62, 0x63])) ∧
    exec (.segDecode segG0) testState = .next (testState.answered (.segment headerG0 [0, 1, 2, 3])) ∧
    exec (.segDecode (segE.take 55)) testState = .next (testState.answered (.formatError .segLength)) := by
  simp only [eq_next_iff]; decide +kernel

theorem segE_decodes : ∃ h p, exec (.segDecode segE) testState = .next (testState.answered (.segment h p)) :=
  ⟨_, _, witness_FilterDropsProhibitedAtExternalNode.1⟩

theorem segG0_decodes : ∃ h p, exec (.segDecode segG0) testState = .next (testState.answered (.segment h p)) :=
  ⟨_, _, witness_FilterDropsProhibitedAtExternalNode.2.1⟩

theorem witness_EnforceForwardsBelowLegalProhibited :
    ∀ B ∈ [segE, segG0], ∃ h p, exec (.segDecode B) testState = .next (testState.answered (.segment h p)) := by
  simpa using ⟨segE_decodes, segG0_decodes⟩

theorem witness_ExternalHopIsMonotoneAndIdempotent :
    segE ∈ hopChain testState.params.payloadSlice ([false] ++ true :: [false, true]) [segG0, segE] ∧
    exec (.segDecode segE) testState = .next (testState.answered (.segment headerE [0x61, 0x62, 0x63])) := by
  simp only [eq_next_iff]; decide +kernel

/-- Under EXPLICIT two buffers that agree in bytes 20 to 23, and under REMAINDER two that do not. -/
theorem witness_FilterVerdictReadsListedBytes :
    (storing testState storeG0G2).params.payloadSlice = testState.params.payloadSlice ∧
    (segE.set 57 0).length = segE.length ∧ (segE.set 57 0).take 2 = segE.take 2 ∧ byteAt (segE.set 57 0) 14 = byteAt segE 14 ∧
    ((segE.set 57 0).drop 20).take 4 = (segE.drop 20).take 4 ∧
    exec (.filterOne segE true) testState = .next (testState.answered (.verdict (.forward segE))) ∧
    exec (.filterOne (segE.set 57 0) true) (storing testState storeG0G2) =
      .next ((storing testState storeG0G2).answered (.verdict (.forward (segE.set 57 0)))) ∧
    (remainderState.params.payloadSlice ≠ .explicit ∧ (segE.set 23 9).length = segE.length ∧ (segE.set 23 9).take 2 = segE.take 2 ∧
      byteAt (segE.set 23 9) 14 = byteAt segE 14 ∧
      exec (.filterOne segE true) remainderState = .next (remainderState.answered (.verdict (.forward segE))) ∧
      exec (.filterOne (segE.set 23 9) true) remainderState =
        .next (remainderState.answered (.verdict (.forward (segE.set 23 9))))) := by
  simp only [eq_next_iff]; decide +kernel

/-- G1 decodes and verifies, G1x decodes and does not. -/
theorem decodes_G1 (rsm : Rsm) :
    exec (.segDecode segG1) (storing testState rsm) = .next ((storing testState rsm).answered (.segment headerG1 [4, 5, 6, 7])) ∧
    exec (.digestVerify [4, 5, 6, 7] headerG1.checksum) (storing testState rsm) =
      .next ((storing testState rsm).answered (.bool true)) ∧
    exec (.segDecode segG1x) (storing testState rsm) =
      .next ((storing testState rsm).answered (.segment headerG1 [4, 0xFA, 6, 7])) ∧
    exec (.digestVerify [4, 0xFA, 6, 7] headerG1.checksum) (storing testState rsm) =
      .next ((storing testState rsm).answered (.bool false)) :=
  ⟨(exec_segDecode_segment _ _ _ _).mpr (show segDecode .explicit segG1 = _ by decide +kernel),
   (exec_digestVerify_bool _ _ _ _).mpr (show digestVerify .sha256 [4, 5, 6, 7] headerG1.checksum = _ by decide +kernel),
   (exec_segDecode_segment _ _ _ _).mpr (show segDecode .explicit segG1x = _ by decide +kernel),
   (exec_digestVerify_bool _ _ _ _).mpr (show digestVerify .sha256 [4, 0xFA, 6, 7] headerG1.checksum = _ by decide +kernel)⟩

/-- An instance whose two capacities are just enough for one more segment of four bytes beside G0 and G2, and one where neither is. -/
def fullState (spare : Nat) : State :=
  storing (State.construct { testParams with maxSegments := some (2 + spare), maxBytes := some (6 + 4 * spare) }) storeG0G2

/-- One state and buffer per row of the table. -/
theorem witness_StoreTransitionsAreTheTable :
    (testState.withInbox [.reset]).inbox = .reset :: [] ∧ testState.rsm.phase = .idle ∧
    -- COLLECTING, accepted at the capacity and refused above it
    ((fullState 1).rsm.phase = .collecting ∧
      exec (.segDecode segG1) (fullState 1) = .next ((fullState 1).answered (.segment headerG1 [4, 5, 6, 7])) ∧
      exec (.digestVerify [4, 5, 6, 7] headerG1.checksum) (fullState 1) = .next ((fullState 1).answered (.bool true)) ∧
      (∀ m, (fullState 1).params.maxSegments = some m → (fullState 1).rsm.entries.length + 1 ≤ m) ∧
      (∀ m, (fullState 1).params.maxBytes = some m →
        ((fullState 1).rsm.entries.map fun e => e.payload.length).sum + ([4, 5, 6, 7] : Bytes).length ≤ m)) ∧
    ((fullState 0).rsm.phase = .collecting ∧
      exec (.segDecode segG1) (fullState 0) = .next ((fullState 0).answered (.segment headerG1 [4, 5, 6, 7])) ∧
      exec (.digestVerify [4, 5, 6, 7] headerG1.checksum) (fullState 0) = .next ((fullState 0).answered (.bool true)) ∧
      (∃ m, (fullState 0).params.maxSegments = some m ∧ m < (fullState 0).rsm.entries.length + 1) ∧
      (∃ m, (fullState 0).params.maxBytes = some m ∧
        m < ((fullState 0).rsm.entries.map fun e => e.payload.length).sum + ([4, 5, 6, 7] : Bytes).length)) ∧
    -- COLLECTING, corrupted, under either policy, and not a segment
    (skipState.params.corruptPolicy = .skip ∧ testState.params.corruptPolicy = .abort ∧
      exec (.segDecode segG1x) (storing skipState storeG0G2) =
        .next ((storing skipState storeG0G2).answered (.segment headerG1 [4, 0xFA, 6, 7])) ∧
      exec (.digestVerify [4, 0xFA, 6, 7] headerG1.checksum) (storing skipState storeG0G2) =
        .next ((storing skipState storeG0G2).answered (.bool false)) ∧
      exec (.segDecode [0x78]) (storing testState storeG0G2) =
        .next ((storing testState storeG0G2).answered (.formatError .segLength))) ∧
    -- FAILED, and RSM_FINISH of COLLECTING
    (storing testState storeFailed).rsm.phase = .failed (.integrity 1) ∧
    ((storing testState storeG0G2).rsm.Inv (storing testState storeG0G2).params ∧ (storing testState storeG0G2).rsm.phase ≠ .idle) := by
  refine ⟨rfl, rfl, ?_, ?_, ?_, rfl, storeG0G2_inv, by decide⟩
  · refine ⟨rfl, ?_, ?_, ?_, ?_⟩
    · simp only [eq_next_iff]; decide +kernel
    · simp only [eq_next_iff]; decide +kernel
    · intro m hm; cases hm; decide
    · intro m hm; cases hm; decide
  · refine ⟨rfl, ?_, ?_, ⟨2, rfl, by decide⟩, ⟨6, rfl, by decide⟩⟩
    · simp only [eq_next_iff]; decide +kernel
    · simp only [eq_next_iff]; decide +kernel
  · simp only [eq_next_iff]; decide +kernel

theorem witness_PushIsStableInsertion :
    (storing testState storeG0G2).rsm.Inv (storing testState storeG0G2).params ∧
    (storing testState storeG0G2).rsm.phase = .collecting ∧
    exec (.segDecode segG1) (storing testState storeG0G2) =
      .next ((storing testState storeG0G2).answered (.segment headerG1 [4, 5, 6, 7])) ∧
    exec (.rsmPush segG1) (storing testState storeG0G2) = .next pushedState ∧ pushedState.result = some .ok :=
  ⟨storeG0G2_inv, rfl, (decodes_G1 storeG0G2).1, (eq_next_iff _ _).mpr (by decide +kernel), rfl⟩

theorem witness_PushAcceptsAnyEncodedSegment :
    (fullState 1).rsm.phase = .collecting ∧ ([4, 5, 6, 7] : Bytes).length < 2 ^ 32 ∧
    (∀ m, (fullState 1).params.maxSegments = some m → (fullState 1).rsm.entries.length + 1 ≤ m) ∧
    (∀ m, (fullState 1).params.maxBytes = some m →
      ((fullState 1).rsm.entries.map fun e => e.payload.length).sum + ([4, 5, 6, 7] : Bytes).length ≤ m) :=
  ⟨rfl, by decide, fun m hm => by cases hm; decide, fun m hm => by cases hm; decide⟩

theorem witness_FinishReportsDataAndGap :
    ((storing testState Rsm.started).rsm.phase = .collecting ∧ (storing testState Rsm.started).rsm.expected = none) ∧
    ((storing testState storeG0G2).rsm.phase = .collecting ∧ (storing testState storeG0G2).rsm.expected = some 3) ∧
    (storing testState storeFailed).rsm.phase = .failed (.integrity 1) := by decide

theorem witness_PushAndFinishNeedStart : testState.rsm.phase = .idle := rfl

theorem witness_FailedIsStickyUntilFinishOrStart :
    (storing testState storeFailed).rsm.phase = .failed (.integrity 1) ∧
    ((storing testState storeFailed).withInbox [.reset]).inbox = .reset :: [] ∧
    ([segG2, [0x78, 0x78]] : List Bytes) ≠ [] ∧
    (Instr.segTag 5 ≠ .rsmFinish ∧ Instr.segTag 5 ≠ .rsmStart ∧ (∀ segs, Instr.segTag 5 ≠ .reassemble segs) ∧
      exec (.segTag 5) (storing testState storeFailed) = .next ((storing testState storeFailed).answered (.tag 2 2))) :=
  ⟨rfl, rfl, by simp, by simp, by simp, by simp, rfl⟩

theorem witness_ConsumedOnceAndDuplicatesKept :
    ((storing testState storeG0G2).rsm.Inv (storing testState storeG0G2).params ∧
      exec .rsmFinish (storing testState storeG0G2) =
        .next ((storing testState Rsm.reset).answered (.reassembled ⟨[0, 1, 2, 3, 8, 9], some ⟨3, 2⟩, 0⟩))) ∧
    ((storing testState storeG0G2).params.unbounded ∧
      exec (.segDecode segG1) (storing testState storeG0G2) =
        .next ((storing testState storeG0G2).answered (.segment headerG1 [4, 5, 6, 7])) ∧
      exec (.digestVerify [4, 5, 6, 7] headerG1.checksum) (storing testState storeG0G2) =
        .next ((storing testState storeG0G2).answered (.bool true))) :=
  ⟨⟨storeG0G2_inv, (eq_next_iff _ _).mpr (by decide +kernel)⟩, ⟨rfl, rfl⟩, (decodes_G1 _).1, (decodes_G1 _).2.1⟩

/-- G1 against G1 with another sensitivity; and, corrupted and with no total set yet, G1x against G1x with another checksum. -/
theorem witness_PushIgnoresOtherHeaderFields :
    (storing testState storeG0G2).rsm.expected.isSome ∧
    exec (.segDecode segG1) (storing testState storeG0G2) =
      .next ((storing testState storeG0G2).answered (.segment headerG1 [4, 5, 6, 7])) ∧
    exec (.segDecode (segG1.set 14 0)) (storing testState storeG0G2) =
      .next ((storing testState storeG0G2).answered (.segment { headerG1 with sensitivity := 0 } [4, 5, 6, 7])) ∧
    ({ headerG1 with sensitivity := 0 } : SegmentHeader).seqNum = headerG1.seqNum ∧
    exec (.digestVerify [4, 5, 6, 7] headerG1.checksum) (storing testState storeG0G2) =
      .next ((storing testState storeG0G2).answered (.bool true)) ∧
    (({ headerG1 with checksum := headerG1.checksum.set 0 0 } : SegmentHeader).totalSegments = headerG1.totalSegments ∧
      exec (.segDecode segG1x) (storing testState Rsm.started) =
        .next ((storing testState Rsm.started).answered (.segment headerG1 [4, 0xFA, 6, 7])) ∧
      exec (.segDecode (segG1x.set 24 0)) (storing testState Rsm.started) = .next ((storing testState Rsm.started).answered
        (.segment { headerG1 with checksum := headerG1.checksum.set 0 0 } [4, 0xFA, 6, 7])) ∧
      exec (.digestVerify [4, 0xFA, 6, 7] headerG1.checksum) (storing testState Rsm.started) =
        .next ((storing testState Rsm.started).answered (.bool false)) ∧
      exec (.digestVerify [4, 0xFA, 6, 7] (headerG1.checksum.set 0 0)) (storing testState Rsm.started) =
        .next ((storing testState Rsm.started).answered (.bool false))) := by
  simp only [eq_next_iff]; decide +kernel

/-- `REASSEMBLE([G0, G1x, 78 78])`: G1x is G1 with its second payload byte changed to FA. -/
theorem witness_CorruptedPayloadAbortsReassembly :
    testState.params.corruptPolicy = .abort ∧ testState.params.unbounded ∧
    (∀ C ∈ [segG0], ∃ g q, exec (.segDecode C) testState = .next (testState.answered (.segment g q)) ∧
      exec (.digestVerify q g.checksum) testState = .next (testState.answered (.bool true))) ∧
    exec (.segDecode segG1) testState = .next (testState.answered (.segment headerG1 [4, 5, 6, 7])) ∧
    exec (.digestVerify [4, 5, 6, 7] headerG1.checksum) testState = .next (testState.answered (.bool true)) ∧
    1 < ([4, 5, 6, 7] : Bytes).length ∧
    digestOf testState.params.digest (([4, 5, 6, 7] : Bytes).set 1 0xFA) ≠ digestOf testState.params.digest [4, 5, 6, 7] ∧
    segG1.set (56 + 1) 0xFA = segG1x := by
  refine ⟨rfl, ⟨rfl, rfl⟩, ?_, (decodes_G1 testState.rsm).1, (decodes_G1 testState.rsm).2.1, by decide, by decide +kernel,
    by decide⟩
  intro C hC
  cases List.mem_singleton.mp hC
  refine ⟨headerG0, [0, 1, 2, 3], ?_⟩
  simp only [eq_next_iff]; decide +kernel

/-- `REASSEMBLE([G1x, G1])` under SKIP (V-R17). -/
theorem witness_SkipPolicyCountsCorruptedAsMissing :
    skipState.params.corruptPolicy = .skip ∧ skipState.params.unbounded ∧
    exec (.segDecode segG1x) skipState = .next (skipState.answered (.segment headerG1 [4, 0xFA, 6, 7])) ∧
    (∀ B ∈ [segG1], ∃ g q, exec (.segDecode B) skipState = .next (skipState.answered (.segment g q))) := by
  refine ⟨rfl, ⟨rfl, rfl⟩, by simp only [eq_next_iff]; decide +kernel, ?_⟩
  intro B hB
  cases List.mem_singleton.mp hB
  exact ⟨headerG1, [4, 5, 6, 7], by simp only [eq_next_iff]; decide +kernel⟩

theorem witness_ReassembleIsItsExpansion : testState.params.unbounded ∧ State.reset.params.unbounded := by decide

/-- One segment fits and the second does not (V-R18 with `RSM_MAX_SEGMENTS = 1`). -/
theorem witness_ReassembleRefusedForCapacity :
    let s := State.construct { testParams with maxSegments := some 1 }
    let t := s.answeredRsm ⟨.collecting, some 3, [⟨0, [0, 1, 2, 3]⟩], 0⟩ .ok
    runOps (.rsmStart :: [segG0].map .rsmPush) s = .next t ∧
      exec (.rsmPush segG1) t = .next (t.answered (.refused .rsmCapacity)) ∧
      (t.answered (.refused .rsmCapacity)).result = some (.refused .rsmCapacity) := by
  simp only [eq_next_iff]; decide +kernel

theorem witness_ReassembleEqualsReferenceAlgorithm :
    testState.params.unbounded ∧ testState.params.corruptPolicy = .abort ∧ State.reset.params.unbounded ∧
    State.reset.params.corruptPolicy = .abort := by decide

/-- The split of ten bytes, reordered, in an instance of the other slicing mode; and a split of nothing. -/
theorem witness_SplitThenReassembleIsIdentity :
    ([0, 1, 2, 3, 4, 5, 6, 7, 8, 9] : Bytes) ≠ [] ∧
    exec (.split [0, 1, 2, 3, 4, 5, 6, 7, 8, 9] (some 4) 1 0xA1B2C3D4) testState =
      .next (testState.answered (.segments [segG0, segG1, segG2])) ∧
    [segG2, segG0, segG1].Perm [segG0, segG1, segG2] ∧ remainderState.params.digest = testState.params.digest ∧
    remainderState.params.unbounded ∧ 0 < 4 ∧ 4 ≤ 2 ^ 32 - 1 :=
  ⟨by simp, witness_SplitTagsTheFirstSegments, by decide, rfl, ⟨rfl, rfl⟩, by decide, by decide⟩

/-- G0 and G2 kept of the split of ten bytes (V-R3); 131073 bytes in two chunks, of which the first starts below 131072; and ten bytes in
three chunks, of which all do. -/
theorem witness_PartialTransferCollapsesGaps :
    (exec (.split [0, 1, 2, 3, 4, 5, 6, 7, 8, 9] (some 4) 1 0xA1B2C3D4) testState =
        .next (testState.answered (.segments [segG0, segG1, segG2])) ∧
      [segG0, segG2].Sublist [segG0, segG1, segG2] ∧ [segG0, segG2] ≠ []) ∧
    (exec (.split (List.replicate 131073 0) (some 131072) 1 7) testState =
        .next (testState.answered (.segments (splitList .sha256 (List.replicate 131073 0) 131072 1 7))) ∧
      131072 ≤ 1 * 131072 ∧ (∀ m, 131072 ≤ m * 131072 → 1 ≤ m) ∧
      1 < (splitList .sha256 (List.replicate 131073 0) 131072 1 7).length) ∧
    (131072 ≤ 32768 * 4 ∧ (∀ m, 131072 ≤ m * 4 → 32768 ≤ m) ∧ [segG0, segG1, segG2].length ≤ 32768) ∧
    remainderState.params.digest = testState.params.digest ∧ remainderState.params.unbounded := by
  have hn : ceilDiv (List.replicate 131073 (0 : Byte)).length 131072 = 2 := by rw [List.length_replicate]; decide
  refine ⟨⟨witness_SplitTagsTheFirstSegments, by decide, by simp⟩, ⟨?_, by decide, fun m h => by omega, ?_⟩,
    ⟨by decide, fun m h => by omega, by decide⟩, rfl, rfl, rfl⟩
  · exact exec_split_fits _ _ _ _ _ (by decide) (by decide) (by rw [hn]; decide)
  · rw [splitList_length, hn]; decide

theorem witness_OperationFrame : touchesStore (.split [1] none 1 0) = false ∧ touchesStore (.enforce [] true) = false := by decide

theorem witness_StepNeverWritesParameters : step busyState = .next pushedState := witness_StepKeepsInvariant.2

theorem witness_OutcomesStayInTheTable :
    (encodeRequest (.rsmPush segG1)).1 = .cmd8 ∧ (storing testState storeFailed).Inv ∧ Opcode.ofCode 0x44 = none ∧
    (testState.withInbox [.request .cmd8 (0x44 :: [])]).inbox = .request .cmd8 (0x44 :: []) :: [] ∧
    step (testState.withInbox [.request .cmd8 (0x44 :: [])]) = .next (testState.answered (.refused .illegalCommand)) :=
  ⟨rfl, storeFailed_inv, by decide, rfl, (eq_next_iff _ _).mpr (by decide +kernel)⟩

theorem witness_StatelessOperationsCommute :
    touchesStore (.admitPacket packetA2 ⟨1⟩) = false ∧ touchesStore (.segTag 5) = false := by decide

theorem witness_StepStopsOnlyOnMalformedRequests :
    (Instr.rsmPush segG1).wf = true ∧
    busyState.inbox = .request (encodeRequest (.rsmPush segG1)).1 (encodeRequest (.rsmPush segG1)).2 :: [] ∧
    testState.inbox = [] ∧ (testState.withInbox [.reset]).inbox = .reset :: [] ∧ Opcode.ofCode 0x44 = none ∧
    (testState.withInbox [.request .cmd8 [0x44]]).inbox = .request .cmd8 (0x44 :: []) :: [] ∧
    ((segE.take 56).set 0 0).length = 56 ∧ ((segE.take 56).set 0 0).take 2 ≠ [0x44, 0x32] ∧
    (testState.withInbox [.request .wire448 ((segE.take 56).set 0 0)]).inbox =
      .request .wire448 ((segE.take 56).set 0 0) :: [] := by decide +kernel

end Sys2Proof.Tests
end

section
/-! Scope (spec/00_scope.md): what a step does with a request that decodes, the operation a table word stands for, and the segment
size of a SPLIT. -/

namespace Sys2Proof

/-- A table word means what its request decodes to. -/
theorem decodeTableWord_eq_some_iff (nbits w : Nat) (i : Instr) :
    decodeTableWord nbits w = some i ↔ decodeRequest (tableRequest nbits w).1 (tableRequest nbits w).2 = .ok i := by
  unfold decodeTableWord
  cases decodeRequest (tableRequest nbits w).1 (tableRequest nbits w).2 <;> simp

end Sys2Proof

namespace Sys2Proof.Machine

/-- R9, R71: the oldest request is taken from the queue, and the operation it decodes to is carried out. -/
theorem step_request_of_decode {s : State} {fmt : Format} {bytes : Bytes} {rest : List HostEvent} {i : Instr}
    (hinbox : s.inbox = .request fmt bytes :: rest) (hdecode : decodeRequest fmt bytes = .ok i) :
    step s = exec i (s.withInbox rest) := by
  simp only [step, hinbox, hdecode]

/-- Issuing a table word puts its request at the head of the queue. -/
theorem State.withFetchWord_inbox (s : State) (nbits w : Nat) :
    (s.withFetchWord nbits w).inbox = .request (tableRequest nbits w).1 (tableRequest nbits w).2 :: s.inbox := rfl

/-- Taking the request of a table word from the queue gives back the state in which it was issued. -/
@[simp] theorem State.withFetchWord_withInbox_inbox (s : State) (nbits w : Nat) :
    (s.withFetchWord nbits w).withInbox s.inbox = s := rfl

/-- Settles O4. A table word is the case of the first clause in which the request was issued ahead of the queue. -/
theorem stepRunsDecodedOperation : Obligations.StepRunsDecodedOperation := by
  unfold Obligations.StepRunsDecodedOperation
  refine ⟨fun s fmt bytes rest i hinbox hdecode => step_request_of_decode hinbox hdecode, fun s nbits w i hword => ?_⟩
  have hdecode := (decodeTableWord_eq_some_iff nbits w i).mp hword
  calc step (s.withFetchWord nbits w)
      = exec i ((s.withFetchWord nbits w).withInbox s.inbox) := step_request_of_decode (s.withFetchWord_inbox nbits w) hdecode
    _ = exec i s := by rw [State.withFetchWord_withInbox_inbox]

@[simp] theorem segmentSizeOf_none : segmentSizeOf none = 65536 := rfl

@[simp] theorem segmentSizeOf_some (S : Nat) : segmentSizeOf (some S) = S := rfl

/-- R193: SPLIT reads its segment size operand only through `segmentSizeOf`. -/
theorem exec_split_congr {a b : Option Nat} (h : segmentSizeOf a = segmentSizeOf b) (s : State) (data : Bytes)
    (policyId segmentId : U32) : exec (.split data a policyId segmentId) s = exec (.split data b policyId segmentId) s := by
  simp only [exec, execSplit, h]

/-- Settles O27: leaving the segment size out and naming 65536 give `segmentSizeOf` the same value. -/
theorem splitDefaultSizeIs65536 : Obligations.SplitDefaultSizeIs65536 := by
  unfold Obligations.SplitDefaultSizeIs65536
  have hsize : segmentSizeOf none = segmentSizeOf (some 65536) := by rw [segmentSizeOf_none, segmentSizeOf_some]
  exact exec_split_congr hsize

end Sys2Proof.Machine
end

section
/-! The frame of an operation and of a step (spec/10_state.md R33, R40; spec/20_memory.md R71, R72; spec/60_exceptions.md R254). -/

namespace Sys2Proof.Machine

/-! ### Operations -/

/-- R72: the operations that touch the store are the four of unit RSM. -/
theorem touchesStore_eq_true_iff (i : Instr) :
    touchesStore i = true ↔ i = .rsmStart ∨ (∃ buf, i = .rsmPush buf) ∨ i = .rsmFinish ∨ ∃ segs, i = .reassemble segs := by
  cases i <;> simp [touchesStore]

/-- R214: RSM_START is its function on the store. -/
theorem exec_rsmStart (s : State) : exec .rsmStart s = .next (s.answeredRsm Rsm.started .ok) := rfl

/-- R17, R254: an operation outside unit RSM only answers. -/
theorem exec_answers_of_not_touchesStore {i : Instr} (h : touchesStore i = false) (s : State) :
    ∃ r, exec i s = .next (s.answered r) := by
  cases i with
  | admDecode buf => simp only [exec, execAdmDecode]; split <;> exact ⟨_, rfl⟩
  | segEncode => simp only [exec, execSegEncode]; split <;> exact ⟨_, rfl⟩
  | segDecode buf => simp only [exec, execSegDecode]; split <;> exact ⟨_, rfl⟩
  | split => simp only [exec, execSplit]; split <;> exact ⟨_, rfl⟩
  | rsmStart | rsmPush _ | rsmFinish | reassemble _ => cases h
  | ptLookup _ | admEncode _ | admitPacket _ _ | digestGen _ | digestVerify _ _ | segTag _ | filterOne _ _ | enforce _ _
  | admissionHeader _ _ | admissionHeaderLow _ _ | segmentHeader _ => exact ⟨_, rfl⟩

/-- R40, R240: every operation ends in a next state that differs at most in the store and the result record. -/
theorem exec_answersRsm (i : Instr) (s : State) : ∃ rsm r, exec i s = .next (s.answeredRsm rsm r) := by
  cases h : touchesStore i with
  | false =>
    obtain ⟨r, hr⟩ := exec_answers_of_not_touchesStore h s
    exact ⟨s.rsm, r, hr⟩
  | true =>
    obtain rfl | ⟨buf, rfl⟩ | rfl | ⟨segs, rfl⟩ := (touchesStore_eq_true_iff i).mp h
    · exact ⟨_, _, exec_rsmStart s⟩
    · exact ⟨_, _, exec_rsmPush buf s⟩
    · exact ⟨_, _, exec_rsmFinish s⟩
    · exact ⟨_, _, exec_reassemble segs s⟩

/-- Settles O50. -/
theorem operationFrame : Obligations.OperationFrame := by
  unfold Obligations.OperationFrame
  intro i s
  cases h : touchesStore i with
  | false =>
    obtain ⟨r, hr⟩ := exec_answers_of_not_touchesStore h s
    exact ⟨s.rsm, r, hr, fun _ => hr⟩
  | true =>
    obtain ⟨rsm, r, hr⟩ := exec_answersRsm i s
    exact ⟨rsm, r, hr, nofun⟩

/-! ### Steps -/

/-- R101, R116: request bytes that are no operation and are answered all the same. -/
theorem rejectRequest_eq_next {why : DecodeError} {s t : State} (h : rejectRequest why s = .next t) :
    (∃ code, why = .illegalCommand code ∧ t = s.answered (.refused .illegalCommand)) ∨
    (why = .notASegment ∧ t = s.answered (.formatError .segMagic)) := by
  cases why with
  | illegalCommand code => exact .inl ⟨code, rfl, answer_eq_next.mp h⟩
  | notASegment => exact .inr ⟨rfl, answer_eq_next.mp h⟩
  | emptyRequest | truncatedOperand | badOperand | trailingBytes | wireLength => cases h

/-- R32, R263: with nothing issued the state stands still. -/
theorem step_of_inbox_nil {s : State} (h : s.inbox = []) : step s = .next s := by
  simp only [step, h, idleStep]

/-- R281, R282: a reset event is taken and carried out. -/
theorem step_of_reset {s : State} {rest : List HostEvent} (h : s.inbox = .reset :: rest) :
    step s = .next (s.withInbox rest).resetInPlace := by
  simp only [step, h, resetStep]

/-- A request that does not decode is taken and rejected. -/
theorem step_request_of_decode_error {s : State} {fmt : Format} {bytes : Bytes} {rest : List HostEvent} {why : DecodeError}
    (hinbox : s.inbox = .request fmt bytes :: rest) (hdecode : decodeRequest fmt bytes = .error why) :
    step s = rejectRequest why (s.withInbox rest) := by
  simp only [step, hinbox, hdecode]

/-- R9, R71: everything a step that goes on can do. -/
theorem step_cases {s t : State} (h : step s = .next t) :
    (s.inbox = [] ∧ t = s) ∨
    (∃ rest, s.inbox = .reset :: rest ∧ t = (s.withInbox rest).resetInPlace) ∨
    (∃ fmt bytes rest i, s.inbox = .request fmt bytes :: rest ∧ decodeRequest fmt bytes = .ok i ∧
      exec i (s.withInbox rest) = .next t) ∨
    (∃ fmt bytes rest why, s.inbox = .request fmt bytes :: rest ∧ decodeRequest fmt bytes = .error why ∧
      rejectRequest why (s.withInbox rest) = .next t) := by
  match hinbox : s.inbox with
  | [] =>
    rw [step_of_inbox_nil hinbox] at h
    exact .inl ⟨rfl, (Host.Outcome.next.inj h).symm⟩
  | .reset :: rest =>
    rw [step_of_reset hinbox] at h
    exact .inr (.inl ⟨rest, rfl, (Host.Outcome.next.inj h).symm⟩)
  | .request fmt bytes :: rest =>
    cases hdecode : decodeRequest fmt bytes with
    | ok i =>
      rw [step_request_of_decode hinbox hdecode] at h
      exact .inr (.inr (.inl ⟨fmt, bytes, rest, i, rfl, hdecode, h⟩))
    | error why =>
      rw [step_request_of_decode_error hinbox hdecode] at h
      exact .inr (.inr (.inr ⟨fmt, bytes, rest, why, rfl, hdecode, h⟩))

/-- Settles O5. -/
theorem idleInstanceStandsStill : Obligations.IdleInstanceStandsStill := by
  unfold Obligations.IdleInstanceStandsStill
  exact fun _ h => step_of_inbox_nil h

/-- Settles O51: an idle step finds no event to take, a reset restores the store alone, and an operation has its frame. -/
theorem stepNeverWritesParameters : Obligations.StepNeverWritesParameters := by
  unfold Obligations.StepNeverWritesParameters
  intro s t h
  obtain ⟨hinbox, rfl⟩ | ⟨rest, hinbox, rfl⟩ | ⟨_, _, rest, i, hinbox, -, hexec⟩ | ⟨_, _, rest, why, hinbox, -, hreject⟩ := step_cases h
  · rw [hinbox]
    exact ⟨rfl, rfl⟩
  · rw [hinbox]
    exact ⟨rfl, rfl⟩
  · obtain ⟨rsm, r, hframe⟩ := exec_answersRsm i (s.withInbox rest)
    obtain rfl := Host.Outcome.next.inj (hframe.symm.trans hexec)
    rw [hinbox]
    exact ⟨rfl, rfl⟩
  · rw [hinbox]
    obtain ⟨_, -, rfl⟩ | ⟨-, rfl⟩ := rejectRequest_eq_next hreject <;> exact ⟨rfl, rfl⟩

end Sys2Proof.Machine
end

section
/-! The invariant of the reassembly store (spec/10_state.md R34 to R38, spec/44_reassembly.md R213 to R220): it holds of an empty store,
every operation of unit RSM keeps it, and so every step does. -/

namespace Sys2Proof.Machine

/-! ### Stores that meet the invariant -/

@[simp] theorem payloadBytes_nil : payloadBytes [] = 0 := rfl

@[simp] theorem exceeds_zero (bound : Option Nat) : exceeds 0 bound = false := by cases bound <;> simp

/-- R213: a store that holds nothing and latches nothing. -/
theorem Rsm.inv_of_nothing_held (p : Params) {r : Rsm} (hphase : ∀ e, r.phase ≠ .failed e) (hexpected : r.expected = none)
    (hentries : r.entries = []) (hskipped : r.skipped = 0) : r.Inv p where
  sorted := hentries ▸ List.Pairwise.nil
  idle_empty _ := ⟨hexpected, hentries, hskipped⟩
  failed_empty e he := absurd he (hphase e)
  failed_sub := hphase _
  failed_integrity q hq := absurd hq (hphase _)
  nothing_pushed _ _ := ⟨hentries, hskipped⟩
  abort_skips_none _ := hskipped
  within_segments := by simp [hentries]
  within_bytes := by simp [hentries]

/-- R215: a store in COLLECTING after a buffer that decodes. -/
theorem Rsm.inv_of_collecting {p : Params} {r : Rsm} {n : U32} (hphase : r.phase = .collecting) (hexpected : r.expected = some n)
    (hsorted : Sorted r.entries) (habort : p.corruptPolicy = .abort → r.skipped = 0)
    (hsegments : exceeds r.entries.length p.maxSegments = false) (hbytes : exceeds (payloadBytes r.entries) p.maxBytes = false) :
    r.Inv p where
  sorted := hsorted
  idle_empty h := by simp [hphase] at h
  failed_empty e h := by simp [hphase] at h
  failed_sub := by simp [hphase]
  failed_integrity q h := by simp [hphase] at h
  nothing_pushed _ h := by simp [hexpected] at h
  abort_skips_none := habort
  within_segments := hsegments
  within_bytes := hbytes

/-- R254: a store that has just latched an error that RSM_PUSH can latch. -/
theorem Rsm.fail_inv {p : Params} {r : Rsm} {e : RsmError} (hsub : e ≠ .format .admLength)
    (hintegrity : ∀ q, e = .integrity q → p.corruptPolicy = .abort ∧ r.expected.isSome)
    (habort : p.corruptPolicy = .abort → r.skipped = 0) : (r.fail e).Inv p where
  sorted := List.Pairwise.nil
  idle_empty h := by simp at h
  failed_empty _ _ := rfl
  failed_sub h := hsub (RsmPhase.failed.inj h)
  failed_integrity q h := hintegrity q (RsmPhase.failed.inj h)
  nothing_pushed h := by simp at h
  abort_skips_none := habort
  within_segments := by simp
  within_bytes := by simp

theorem Rsm.reset_inv (p : Params) : Rsm.reset.Inv p := Rsm.inv_of_nothing_held p nofun rfl rfl rfl

theorem Rsm.started_inv (p : Params) : Rsm.started.Inv p := Rsm.inv_of_nothing_held p nofun rfl rfl rfl

/-- R219: one more payload than the store holds is within both capacity parameters. -/
theorem Rsm.overCapacity_eq_false_iff (p : Params) (r : Rsm) (payload : Bytes) :
    r.overCapacity p payload = false ↔
      exceeds (r.entries.length + 1) p.maxSegments = false ∧ exceeds (payloadBytes r.entries + payload.length) p.maxBytes = false :=
  Bool.or_eq_false_iff

/-! ### The operations of unit RSM -/

/-- R215, R219: an accepted segment is stored in its place, within the capacity it was tested against. -/
theorem Rsm.insert_expect_inv {p : Params} {r : Rsm} (hr : r.Inv p) (hphase : r.phase = .collecting) (total : U32) (e : Entry)
    (hcap : r.overCapacity p e.payload = false) : ((r.expect total).insert e).Inv p := by
  obtain ⟨hsegments, hbytes⟩ := (r.overCapacity_eq_false_iff p e.payload).mp hcap
  refine Rsm.inv_of_collecting (n := r.expected.getD total) ?_ ?_ ?_ ?_ ?_ ?_
  · rw [Rsm.insert_phase, Rsm.expect_phase, hphase]
  · rw [Rsm.insert_expected, Rsm.expect_expected]
  · exact Rsm.insert_sorted _ e (by rw [Rsm.expect_entries]; exact hr.sorted)
  · rw [Rsm.insert_skipped, Rsm.expect_skipped]
    exact hr.abort_skips_none
  · rw [Rsm.insert_length, Rsm.expect_entries]
    exact hsegments
  · rw [payloadBytes_insert, Rsm.expect_entries]
    exact hbytes

/-- R216: a corrupted segment that is skipped is counted, which happens under SKIP alone. -/
theorem Rsm.skip_inv {p : Params} {r : Rsm} (hr : r.Inv p) (hphase : r.phase = .collecting) (hskip : p.corruptPolicy = .skip)
    (total : U32) (n : Nat) : Rsm.Inv p { r.expect total with skipped := n } := by
  refine Rsm.inv_of_collecting (n := r.expected.getD total) ?_ (r.expect_expected total) ?_ ?_ ?_ ?_
  · exact (r.expect_phase total).trans hphase
  · exact (r.expect_entries total).symm ▸ hr.sorted
  · exact fun habort => nomatch hskip.symm.trans habort
  · exact (r.expect_entries total).symm ▸ hr.within_segments
  · exact (r.expect_entries total).symm ▸ hr.within_bytes

/-- R215, R254: a push keeps the invariant. -/
theorem rsmPush_inv {p : Params} {r : Rsm} (hr : r.Inv p) (B : Bytes) : (rsmPush p r B).1.Inv p := by
  obtain ⟨-, e⟩ | ⟨_, -, e⟩ | ⟨sub, -, hdecode, e⟩ | ⟨_, _, -, -, -, -, e⟩ | ⟨h, payload, hphase, -, -, hcap, e⟩ |
    ⟨h, payload, hphase, -, -, hskip, e⟩ | ⟨h, payload, -, -, -, habort, e⟩ := rsmPush_cases p r B <;> rw [e]
  · exact hr
  · exact hr
  · have hsub : RsmError.format sub ≠ .format .admLength := fun hs =>
      segDecode_ne_admLength p.payloadSlice B (RsmError.format.inj hs ▸ hdecode)
    exact Rsm.fail_inv hsub nofun hr.abort_skips_none
  · exact hr
  · exact Rsm.insert_expect_inv hr hphase _ ⟨h.seqNum, payload⟩ hcap
  · exact Rsm.skip_inv hr hphase hskip _ _
  · exact Rsm.fail_inv nofun (fun _ _ => ⟨habort, by simp⟩) (by simpa using hr.abort_skips_none)

/-- R217: a finish keeps the invariant. It drops no entries when it leaves FAILED, and clears nothing at all when no buffer has
decoded: there the invariant says that there is nothing to clear. -/
theorem rsmFinish_inv {p : Params} {r : Rsm} (hr : r.Inv p) : (rsmFinish r).1.Inv p := by
  obtain ⟨-, e⟩ | ⟨error, hphase, e⟩ | ⟨hphase, hexpected, e⟩ | ⟨_, -, -, e⟩ := rsmFinish_cases r <;> rw [e]
  · exact hr
  · exact Rsm.inv_of_nothing_held p nofun rfl (hr.failed_empty error hphase) rfl
  · obtain ⟨hentries, hskipped⟩ := hr.nothing_pushed hphase hexpected
    exact Rsm.inv_of_nothing_held p nofun hexpected hentries hskipped
  · exact Rsm.reset_inv p

/-- R220: so do the pushes of a REASSEMBLE. -/
theorem pushAll_inv {p : Params} (segs : List Bytes) {r : Rsm} (hr : r.Inv p) : (pushAll p r segs).1.Inv p := by
  induction segs generalizing r with
  | nil => exact hr
  | cons B segs ih =>
    rw [pushAll_cons]
    split
    · exact rsmPush_inv hr B
    · exact ih (rsmPush_inv hr B)

/-- R220: a REASSEMBLE ends in a store of the invariant, whatever store it discards. -/
theorem reassemble_inv (p : Params) (segs : List Bytes) : (reassemble p segs).1.Inv p := by
  rw [reassemble_eq]
  split
  · exact Rsm.reset_inv p
  · exact rsmFinish_inv (pushAll_inv segs (Rsm.started_inv p))

/-! ### The whole state -/

theorem State.construct_inv (p : Params) : (State.construct p).Inv := Rsm.reset_inv p

/-- Settles O2. -/
theorem invariantHoldsAfterReset : Obligations.InvariantHoldsAfterReset := by
  unfold Obligations.InvariantHoldsAfterReset
  exact ⟨State.construct_inv Params.default, State.construct_inv⟩

/-- Every operation keeps the invariant: outside unit RSM the store is left alone. -/
theorem exec_inv {i : Instr} {s t : State} (hs : s.Inv) (h : exec i s = .next t) : t.Inv := by
  cases hi : touchesStore i with
  | false =>
    obtain ⟨r, hr⟩ := exec_answers_of_not_touchesStore hi s
    obtain rfl := Host.Outcome.next.inj (hr.symm.trans h)
    exact hs
  | true =>
    obtain rfl | ⟨buf, rfl⟩ | rfl | ⟨segs, rfl⟩ := (touchesStore_eq_true_iff i).mp hi
    · obtain rfl := Host.Outcome.next.inj ((exec_rsmStart s).symm.trans h)
      exact Rsm.started_inv s.params
    · obtain rfl := Host.Outcome.next.inj ((exec_rsmPush buf s).symm.trans h)
      exact rsmPush_inv hs buf
    · obtain rfl := Host.Outcome.next.inj ((exec_rsmFinish s).symm.trans h)
      exact rsmFinish_inv hs
    · obtain rfl := Host.Outcome.next.inj ((exec_reassemble segs s).symm.trans h)
      exact reassemble_inv s.params segs

/-- Settles O3, by what a step can do: stand still, reset the store, carry out an operation, or answer a request that is none. -/
theorem stepKeepsInvariant : Obligations.StepKeepsInvariant := by
  unfold Obligations.StepKeepsInvariant
  intro s t hs h
  obtain ⟨-, rfl⟩ | ⟨rest, -, rfl⟩ | ⟨_, _, rest, i, -, -, hexec⟩ | ⟨_, _, rest, why, -, -, hreject⟩ := step_cases h
  · exact hs
  · exact Rsm.reset_inv s.params
  · exact exec_inv (s := s.withInbox rest) hs hexec
  · obtain ⟨_, -, rfl⟩ | ⟨-, rfl⟩ := rejectRequest_eq_next hreject <;> exact hs

end Sys2Proof.Machine
end

section
/-! Unit PT (spec/40_policy_table.md R131 to R135). -/

namespace Sys2Proof.Machine

/-- R131: PT_LOOKUP answers what the table holds. -/
theorem exec_ptLookup (id : U32) (s : State) :
    exec (.ptLookup id) s = .next (s.answered (.level (ptRead s.params.policyTable id))) := rfl

/-- R11: the default table gives the keys 1 to 4 the levels 0 to 3. -/
theorem mem_defaultPolicyTable_rows (id : U32) (l : Level) :
    (id, l) ∈ Config.defaultPolicyTable.rows ↔ (1 ≤ id.toNat ∧ id.toNat ≤ 4) ∧ l = id.toNat - 1 := by
  constructor
  · simp only [Config.defaultPolicyTable, List.mem_cons, List.not_mem_nil, or_false, Prod.mk.injEq]
    rintro (⟨rfl, rfl⟩ | ⟨rfl, rfl⟩ | ⟨rfl, rfl⟩ | ⟨rfl, rfl⟩) <;> decide
  · rintro ⟨hrange, rfl⟩
    obtain rfl | rfl | rfl | rfl : id = 1 ∨ id = 2 ∨ id = 3 ∨ id = 4 := by bv_omega
    all_goals decide

/-- R11, R132: a lookup in the default table. -/
theorem ptRead_defaultPolicyTable (id : U32) :
    ptRead Config.defaultPolicyTable id = if 1 ≤ id.toNat ∧ id.toNat ≤ 4 then some (id.toNat - 1) else none := by
  split
  · next hrange => exact (ptRead_eq_some _ id _).mpr ((mem_defaultPolicyTable_rows id _).mpr ⟨hrange, rfl⟩)
  · next hrange =>
    refine (ptRead_eq_none _ id).mpr ?_
    rintro ⟨_, l⟩ hrow rfl
    exact hrange ((mem_defaultPolicyTable_rows _ l).mp hrow).1

/-- Settles O12. -/
theorem policyLookupIsExactKeyMatch : Obligations.PolicyLookupIsExactKeyMatch := by
  unfold Obligations.PolicyLookupIsExactKeyMatch
  refine ⟨fun s id => ⟨fun l hrow => ?_, fun habsent => ?_⟩, fun id => ?_⟩
  · have hread := (ptRead_eq_some s.params.policyTable id l).mpr hrow
    refine ⟨by rw [exec_ptLookup, hread], ptRead_lt s.params hread, fun l' hrow' => ?_⟩
    exact Option.some.inj (((ptRead_eq_some s.params.policyTable id l').mpr hrow').symm.trans hread)
  · rw [exec_ptLookup, (ptRead_eq_none s.params.policyTable id).mpr habsent]
  · have htable : State.reset.params.policyTable = Config.defaultPolicyTable := rfl
    rw [exec_ptLookup, htable, ptRead_defaultPolicyTable]

end Sys2Proof.Machine
end

section
/-! Operations that touch no mutable state (spec/20_memory.md R72). -/

namespace Sys2Proof.Machine

/-- R72: what an operation outside unit RSM answers is fixed by its operands and the parameters of the instance; it is the same
whatever the store, the queue and the last result are. -/
theorem exec_answers_from_params {i : Instr} (h : touchesStore i = false) (p : Params) :
    ∃ r, ∀ s : State, s.params = p → exec i s = .next (s.answered r) := by
  cases i with
  | admDecode buf =>
    cases hdecode : admDecode p.vtLayout buf <;>
      exact ⟨_, fun s hs => by simp only [exec, execAdmDecode, hs, hdecode]; rfl⟩
  | segEncode segmentId seqNum total sens hint policyId payload =>
    cases hencode : segEncode p.digest segmentId seqNum total sens hint policyId payload <;>
      exact ⟨_, fun s hs => by simp only [exec, execSegEncode, hs, hencode]; rfl⟩
  | segDecode buf =>
    cases hdecode : segDecode p.payloadSlice buf <;>
      exact ⟨_, fun s hs => by simp only [exec, execSegDecode, hs, hdecode]; rfl⟩
  | split data segSize policyId segmentId =>
    cases hsplit : split p.digest data (segmentSizeOf segSize) policyId segmentId <;>
      exact ⟨_, fun s hs => by simp only [exec, execSplit, hs, hsplit]; rfl⟩
  | rsmStart | rsmPush _ | rsmFinish | reassemble _ => cases h
  | segTag _ | admissionHeader _ _ | admissionHeaderLow _ _ | segmentHeader _ => exact ⟨_, fun _ _ => rfl⟩
  | ptLookup _ | admEncode _ | admitPacket _ _ | digestGen _ | digestVerify _ _ | filterOne _ _ | enforce _ _ =>
    exact ⟨_, fun s hs => by
      simp only [exec, execPtLookup, execAdmEncode, execAdmitPacket, execDigestGen, execDigestVerify, execFilterOne,
        execEnforce, hs]
      rfl⟩

/-- Settles O53: neither operation writes a parameter, and its answer is read off the parameters. -/
theorem statelessOperationsCommute : Obligations.StatelessOperationsCommute := by
  unfold Obligations.StatelessOperationsCommute
  intro i j s hi hj
  obtain ⟨ri, hri⟩ := exec_answers_from_params hi s.params
  obtain ⟨rj, hrj⟩ := exec_answers_from_params hj s.params
  exact ⟨s.answered ri, s.answered rj, _, _, hri s rfl, hrj s rfl, hrj (s.answered ri) rfl, hri (s.answered rj) rfl,
    rfl, rfl, rfl, rfl⟩

end Sys2Proof.Machine
end

section
/-! The round trip of the request framing (spec/30_encoding.md R96, R104, R115, R121): a request's bytes and its operation determine
each other. -/

namespace Sys2Proof

open Machine

/-! ### Command codes -/

/-- R115: the command code of an operation. -/
def Opcode.code : Opcode → Byte
  | .ptLookup => 0x01 | .admDecode => 0x10 | .admEncode => 0x11 | .admitPacket => 0x12
  | .digestGen => 0x20 | .digestVerify => 0x21 | .segEncode => 0x22 | .segDecode => 0x23
  | .segTag => 0x30 | .split => 0x31 | .filterOne => 0x32 | .enforce => 0x33
  | .rsmStart => 0x40 | .rsmPush => 0x41 | .rsmFinish => 0x42 | .reassemble => 0x43

@[simp] theorem Opcode.ofCode_code (op : Opcode) : Opcode.ofCode op.code = some op := by
  cases op <;> rfl

/-- R115: a code selects an operation exactly when it is that operation's code. -/
theorem Opcode.ofCode_eq_some_iff (code : Byte) (op : Opcode) : Opcode.ofCode code = some op ↔ code = op.code := by
  constructor
  · intro h
    have hrow : ∀ row ∈ opcodeTable, row.1 = row.2.code := by decide
    exact hrow _ (Opcode.ofCode_mem h)
  · rintro rfl
    exact Opcode.ofCode_code op

theorem decodeCommand_code_cons (op : Opcode) (bs : Bytes) : decodeCommand (op.code :: bs) = decodeOperands op bs := by
  simp only [decodeCommand, Opcode.ofCode_code]

/-! ### Writing then reading -/

/-- R115: a command read from in front of any bytes is the one written, and those bytes are left. -/
theorem decodeCommand_encodeRequest {i : Instr} (hcmd : (encodeRequest i).1 = .cmd8) (hwf : i.wf = true) (rest : Bytes) :
    decodeCommand ((encodeRequest i).2 ++ rest) = .ok (i, rest) := by
  cases i with
  | ptLookup _ => exact (decodeCommand_code_cons .ptLookup _).trans (by simp [decodeOperands])
  | admDecode _ => exact (decodeCommand_code_cons .admDecode _).trans (by simp [decodeOperands])
  | admEncode _ => exact (decodeCommand_code_cons .admEncode _).trans (by simp [decodeOperands])
  | admitPacket _ _ => exact (decodeCommand_code_cons .admitPacket _).trans (by simp [decodeOperands])
  | digestGen _ => exact (decodeCommand_code_cons .digestGen _).trans (by simp [decodeOperands])
  | digestVerify _ c =>
    have hc : c.length = 32 := by simpa [Instr.wf, U256.wf] using hwf
    exact (decodeCommand_code_cons .digestVerify _).trans (by simp [decodeOperands, takeRaw_append' c rest hc])
  | segEncode _ _ _ _ _ _ _ => exact (decodeCommand_code_cons .segEncode _).trans (by simp [decodeOperands])
  | segDecode _ => exact (decodeCommand_code_cons .segDecode _).trans (by simp [decodeOperands])
  | segTag _ => exact (decodeCommand_code_cons .segTag _).trans (by simp [decodeOperands])
  | split _ _ _ _ => exact (decodeCommand_code_cons .split _).trans (by simp [decodeOperands])
  | filterOne _ _ => exact (decodeCommand_code_cons .filterOne _).trans (by simp [decodeOperands])
  | enforce _ _ => exact (decodeCommand_code_cons .enforce _).trans (by simp [decodeOperands])
  | rsmStart => exact decodeCommand_code_cons .rsmStart _
  | rsmPush _ => exact (decodeCommand_code_cons .rsmPush _).trans (by simp [decodeOperands])
  | rsmFinish => exact decodeCommand_code_cons .rsmFinish _
  | reassemble _ => exact (decodeCommand_code_cons .reassemble _).trans (by simp [decodeOperands])
  | admissionHeader _ _ | admissionHeaderLow _ _ | segmentHeader _ => cases hcmd

theorem decodeRequest_cmd8_encodeRequest {i : Instr} (hcmd : (encodeRequest i).1 = .cmd8) (hwf : i.wf = true) :
    decodeRequest .cmd8 (encodeRequest i).2 = .ok i := by
  have h := decodeCommand_encodeRequest hcmd hwf []
  rw [List.append_nil] at h
  simp only [decodeRequest, h, if_true]

/-- Settles O9. A command is read back operand by operand, a wire-format word field by field. -/
theorem decodeOfEncodeIsIdentity : Obligations.DecodeOfEncodeIsIdentity := by
  unfold Obligations.DecodeOfEncodeIsIdentity
  intro i hwf
  cases i with
  | admissionHeader h rsv =>
    simp only [encodeRequest, decodeRequest, beBytes_length, if_true, beNat_beBytes 16 _ (encodeWire128_lt h rsv),
      decodeWire128_encodeWire128]
  | admissionHeaderLow h rsv =>
    simp only [encodeRequest, decodeRequest, beBytes_length, if_true, beNat_beBytes 16 _ (encodeWire128Low_lt h rsv),
      decodeWire128Low_encodeWire128Low]
  | segmentHeader h =>
    have hc : h.checksum.length = 32 := by simpa [Instr.wf, U256.wf] using hwf
    simp only [encodeRequest, decodeRequest, beBytes_length, if_true, beNat_beBytes 56 _ (encodeWire448_lt h hc),
      decodeWire448_encodeWire448 h hc]
  | _ => exact decodeRequest_cmd8_encodeRequest rfl hwf

/-! ### Reading then writing -/

/-- The bytes `bs` are the operands of the operation `i`, whose code is `code`, and then `rest`. -/
def SpelledBy (code : Byte) (i : Instr) (bs rest : Bytes) : Prop :=
  ∃ operands, encodeRequest i = (.cmd8, code :: operands) ∧ bs = operands ++ rest ∧ i.wf = true

/-- An operation of one operand was read where its operand was. -/
theorem andThen_one_eq_ok {α : Type} {take : Bytes → Parsed α} {put : α → Bytes} {mk : α → Instr} {bs rest : Bytes} {i : Instr}
    (htake : ∀ {bs rest : Bytes} {a : α}, take bs = .ok (a, rest) → bs = put a ++ rest)
    (h : andThen (take bs) (fun a bs => .ok (mk a, bs)) = .ok (i, rest)) : ∃ a, i = mk a ∧ bs = put a ++ rest := by
  obtain ⟨a, r, ha, hi⟩ := andThen_eq_ok h
  cases hi
  exact ⟨a, rfl, htake ha⟩

/-- An operation of two operands was read where its operands were, the first in front. -/
theorem andThen_two_eq_ok {α β : Type} {take : Bytes → Parsed α} {put : α → Bytes} {take' : Bytes → Parsed β} {put' : β → Bytes}
    {mk : α → β → Instr} {bs rest : Bytes} {i : Instr}
    (htake : ∀ {bs rest : Bytes} {a : α}, take bs = .ok (a, rest) → bs = put a ++ rest)
    (htake' : ∀ {bs rest : Bytes} {b : β}, take' bs = .ok (b, rest) → bs = put' b ++ rest)
    (h : andThen (take bs) (fun a bs => andThen (take' bs) fun b bs => .ok (mk a b, bs)) = .ok (i, rest)) :
    ∃ a b, i = mk a b ∧ bs = put a ++ put' b ++ rest := by
  obtain ⟨a, r, ha, h⟩ := andThen_eq_ok h
  obtain ⟨b, rfl, rfl⟩ := andThen_one_eq_ok htake' h
  exact ⟨a, b, rfl, by rw [htake ha, List.append_assoc]⟩

/-- R115: operands that were read are written back as they stood, and make a well-formed operation. -/
theorem decodeOperands_spelledBy {op : Opcode} {bs rest : Bytes} {i : Instr} (h : decodeOperands op bs = .ok (i, rest)) :
    SpelledBy op.code i bs rest := by
  cases op with
  | ptLookup =>
    obtain ⟨_, rfl, rfl⟩ := andThen_one_eq_ok takeU32_eq_ok h
    exact ⟨_, rfl, rfl, rfl⟩
  | admDecode | digestGen | segDecode | rsmPush =>
    obtain ⟨_, rfl, rfl⟩ := andThen_one_eq_ok takeBytes_eq_ok h
    exact ⟨_, rfl, rfl, rfl⟩
  | admEncode =>
    obtain ⟨_, rfl, rfl⟩ := andThen_one_eq_ok takeHeader_eq_ok h
    exact ⟨_, rfl, rfl, rfl⟩
  | segTag =>
    obtain ⟨_, rfl, rfl⟩ := andThen_one_eq_ok takeNat_eq_ok h
    exact ⟨_, rfl, rfl, rfl⟩
  | reassemble =>
    obtain ⟨_, rfl, rfl⟩ := andThen_one_eq_ok takeList_eq_ok h
    exact ⟨_, rfl, rfl, rfl⟩
  | rsmStart | rsmFinish =>
    cases h
    exact ⟨[], rfl, rfl, rfl⟩
  | admitPacket =>
    obtain ⟨_, _, rfl, rfl⟩ := andThen_two_eq_ok (mk := fun p t => .admitPacket p ⟨t⟩) takeBytes_eq_ok takeNat_eq_ok h
    exact ⟨_, rfl, rfl, rfl⟩
  | filterOne =>
    obtain ⟨_, _, rfl, rfl⟩ := andThen_two_eq_ok takeBytes_eq_ok takeBit_eq_ok h
    exact ⟨_, rfl, rfl, rfl⟩
  | enforce =>
    obtain ⟨_, _, rfl, rfl⟩ := andThen_two_eq_ok takeList_eq_ok takeBit_eq_ok h
    exact ⟨_, rfl, rfl, rfl⟩
  | digestVerify =>
    obtain ⟨p, r, hp, h⟩ := andThen_eq_ok h
    obtain ⟨c, r', hc, h⟩ := andThen_eq_ok h
    cases h
    obtain ⟨rfl, hlen⟩ := takeRaw_eq_ok hc
    exact ⟨_, rfl, by rw [takeBytes_eq_ok hp, List.append_assoc], by simpa [Instr.wf, U256.wf] using hlen⟩
  | segEncode =>
    obtain ⟨_, _, hid, h⟩ := andThen_eq_ok h
    obtain ⟨_, _, hseq, h⟩ := andThen_eq_ok h
    obtain ⟨_, _, htotal, h⟩ := andThen_eq_ok h
    obtain ⟨_, _, hsens, h⟩ := andThen_eq_ok h
    obtain ⟨_, _, hhint, h⟩ := andThen_eq_ok h
    obtain ⟨_, _, rfl, hlast⟩ := andThen_two_eq_ok takeU32_eq_ok takeBytes_eq_ok h
    refine ⟨_, rfl, ?_, rfl⟩
    rw [takeU32_eq_ok hid, takeU32_eq_ok hseq, takeU32_eq_ok htotal, takeU8_eq_ok hsens, takeU8_eq_ok hhint, hlast]
    simp only [List.append_assoc, List.cons_append, List.nil_append]
  | split =>
    obtain ⟨_, _, hdata, h⟩ := andThen_eq_ok h
    obtain ⟨_, _, hsize, h⟩ := andThen_eq_ok h
    obtain ⟨_, _, rfl, hlast⟩ := andThen_two_eq_ok takeU32_eq_ok takeU32_eq_ok h
    refine ⟨_, rfl, ?_, rfl⟩
    rw [takeBytes_eq_ok hdata, takeSize_eq_ok hsize, hlast]
    simp only [List.append_assoc]

/-- R115, R116: a command that was read is its code and its operands. -/
theorem decodeCommand_eq_ok {bs rest : Bytes} {i : Instr} (h : decodeCommand bs = .ok (i, rest)) :
    ∃ code tail, bs = code :: tail ∧ SpelledBy code i tail rest := by
  unfold decodeCommand at h
  split at h
  · cases h
  · next code tail =>
    split at h
    · next op hop =>
      obtain rfl := (Opcode.ofCode_eq_some_iff code op).mp hop
      exact ⟨op.code, tail, rfl, decodeOperands_spelledBy h⟩
    · cases h

/-- R115: a command request that decodes has no byte but its code and its operands. -/
theorem decodeRequest_cmd8_eq_ok {bs : Bytes} {i : Instr} (h : decodeRequest .cmd8 bs = .ok i) :
    encodeRequest i = (.cmd8, bs) ∧ i.wf = true := by
  simp only [decodeRequest] at h
  split at h
  · next j rest hj =>
    split at h
    · next hrest =>
      cases h
      obtain ⟨code, tail, rfl, operands, henc, rfl, hwf⟩ := decodeCommand_eq_ok hj
      rw [hrest, List.append_nil]
      exact ⟨henc, hwf⟩
    · cases h
  · cases h

/-- The number that a word's bytes make is below the bound its encoder needs. -/
theorem beNat_lt_of_length {B : Bytes} {n : Nat} (h : B.length = n) : beNat B < 256 ^ n := h ▸ beNat_lt B

theorem beBytes_beNat_of_length {B : Bytes} {n : Nat} (h : B.length = n) : beBytes n (beNat B) = B := h ▸ beBytes_beNat B

/-- Settles O10. What a reader took off the front is what the writer puts there, for each operand and each field of a word. -/
theorem encodeOfDecodeIsIdentity : Obligations.EncodeOfDecodeIsIdentity := by
  unfold Obligations.EncodeOfDecodeIsIdentity
  intro fmt bytes i h
  cases fmt with
  | cmd8 => exact decodeRequest_cmd8_eq_ok h
  | wire128 =>
    simp only [decodeRequest] at h
    split at h
    · next hlen =>
      obtain ⟨hdr, rsv, hdec, henc⟩ := encodeWire128_decodeWire128 (beNat bytes) (beNat_lt_of_length hlen)
      obtain rfl := (Except.ok.inj h).symm.trans hdec
      exact ⟨by rw [encodeRequest, henc, beBytes_beNat_of_length hlen], rfl⟩
    · cases h
  | wire128Low =>
    simp only [decodeRequest] at h
    split at h
    · next hlen =>
      obtain ⟨hdr, rsv, hdec, henc⟩ := encodeWire128Low_decodeWire128Low (beNat bytes) (beNat_lt_of_length hlen)
      obtain rfl := (Except.ok.inj h).symm.trans hdec
      exact ⟨by rw [encodeRequest, henc, beBytes_beNat_of_length hlen], rfl⟩
    · cases h
  | wire448 =>
    simp only [decodeRequest] at h
    split at h
    · next hlen =>
      obtain ⟨hdr, rfl, henc, hc⟩ := encodeWire448_decodeWire448 (beNat bytes) (beNat_lt_of_length hlen) i h
      exact ⟨by rw [encodeRequest, henc, beBytes_beNat_of_length hlen], by simpa [Instr.wf, U256.wf] using hc⟩
    · cases h

end Sys2Proof
end

section
/-! Command codes and written-out words (spec/30_encoding.md R96, R104, R115, R116). -/

namespace Sys2Proof.Machine

/-- R115, R116: a code selects no operation exactly when it is outside the table. -/
theorem ofCode_eq_none_iff (code : Byte) : Opcode.ofCode code = none ↔ code ∉ opcodeTable.map Prod.fst := by
  rw [Opcode.ofCode, Option.map_eq_none_iff, List.find?_eq_none]
  simp only [beq_iff_eq, List.mem_map, not_exists, not_and]

/-- R116: a command with an unassigned code is rejected for its code, whatever follows it. -/
theorem decodeRequest_of_unassigned {code : Byte} (h : code ∉ opcodeTable.map Prod.fst) (bs : Bytes) :
    decodeRequest .cmd8 (code :: bs) = .error (.illegalCommand code) := by
  simp only [decodeRequest, decodeCommand, (ofCode_eq_none_iff code).mpr h]

/-- Settles O7. -/
theorem unassignedCodeIsIllegalCommand : Obligations.UnassignedCodeIsIllegalCommand := by
  unfold Obligations.UnassignedCodeIsIllegalCommand
  refine ⟨fun s code bs rest hcode hinbox => ?_, by decide +kernel⟩
  rw [step_request_of_decode_error hinbox (decodeRequest_of_unassigned hcode bs)]
  rfl

/-- Settles O8. Every word but the longest is spelled as its operation encodes; that one is evaluated. -/
theorem writtenOutWordsDecode : Obligations.WrittenOutWordsDecode := by
  unfold Obligations.WrittenOutWordsDecode
  exact ⟨decodeOfEncodeIsIdentity (.ptLookup 4) rfl, decodeOfEncodeIsIdentity (.segDecode [0x44, 0x32, 0xA1]) rfl,
    decodeOfEncodeIsIdentity (.segTag 131072) rfl, decodeOfEncodeIsIdentity (.filterOne [0x78] true) rfl,
    decodeOfEncodeIsIdentity .rsmStart rfl, decodeOfEncodeIsIdentity (.reassemble [[0x78], []]) rfl,
    decodeOfEncodeIsIdentity (.admissionHeader ⟨1, 3, 7, 0x654F8A10, 1, 0xBEEF⟩ 0) rfl,
    decodeOfEncodeIsIdentity (.admissionHeaderLow ⟨1, 3, 7, 0x654F8A10, 1, 0xBEEF⟩ 0) rfl,
    by decide +kernel⟩

end Sys2Proof.Machine
end

section
/-! The bytes of the header formats (spec/30_encoding.md R90 to R96, R100 to R104, spec/41_admission.md R141, R142,
spec/42_segment_codec.md R165, R167): what the codecs write and read, and that the wire-format words are those bytes. -/

namespace Sys2Proof.Machine

/-! ### The admission codec -/

theorem exec_admEncode (h : AdmissionHeader) (s : State) :
    exec (.admEncode h) s = .next (s.answered (.bytes (admEncode s.params.vtLayout h))) := rfl

/-- R141: ADM_DECODE of sixteen bytes. -/
theorem exec_admDecode_of_length {B : Bytes} (hB : B.length = 16) (s : State) :
    exec (.admDecode B) s = .next (s.answered (.admHeader (admFields s.params.vtLayout B))) := by
  simp only [exec, execAdmDecode, admDecode_of_length _ B hB, answer]

/-- R141: ADM_DECODE of any other number of bytes. -/
theorem exec_admDecode_of_length_ne {B : Bytes} (hB : B.length ≠ 16) (s : State) :
    exec (.admDecode B) s = .next (s.answered (.formatError .admLength)) := by
  have hdecode : admDecode s.params.vtLayout B = .error .admLength := if_pos hB
  simp only [exec, execAdmDecode, hdecode, raiseFormat, answer]

/-- Settles O13. -/
theorem admDecodeAssemblesFields : Obligations.AdmDecodeAssemblesFields := by
  unfold Obligations.AdmDecodeAssemblesFields
  refine ⟨fun s B hB => exec_admDecode_of_length_ne hB s, fun s B hB => ⟨_, exec_admDecode_of_length hB s, ?_⟩⟩
  have hvt : read16 B 0 = byteAt B 0 ++ byteAt B 1 := read16_eq B 0 (by omega)
  refine ⟨read32_eq B 2 (by omega), read32_eq B 6 (by omega), read32_eq B 10 (by omega), read16_eq B 14 (by omega), ?_, ?_⟩
  · intro hhigh
    simp only [admFields, hhigh, hvt, splitVt_append, and_self]
  · intro hlow
    simp only [admFields, hlow, hvt, splitVt_append, and_self]

/-- Settles O14. -/
theorem admEncodeWritesSixteenBytes : Obligations.AdmEncodeWritesSixteenBytes := by
  unfold Obligations.AdmEncodeWritesSixteenBytes
  intro s h
  rw [exec_admEncode]
  cases s.params.vtLayout <;> rw [admEncode, be16_joinVt, be32_eq, be32_eq, be32_eq, be16_eq]

/-! ### The bytes of a bit pattern -/

/-- The pattern of fields given as (bytes, value). -/
def wholeBytes (fields : List (Nat × Nat)) : List (Nat × Nat) := fields.map fun f => (8 * f.1, f.2)

theorem patternWidth_cons (w x : Nat) (fs : List (Nat × Nat)) : patternWidth ((w, x) :: fs) = w + patternWidth fs := rfl

theorem wholeBytes_cons (f : Nat × Nat) (fs : List (Nat × Nat)) : wholeBytes (f :: fs) = (8 * f.1, f.2) :: wholeBytes fs := rfl

theorem patternWidth_wholeBytes (fs : List (Nat × Nat)) : patternWidth (wholeBytes fs) = 8 * (fs.map Prod.fst).sum := by
  induction fs with
  | nil => rfl
  | cons f fs ih => rw [wholeBytes_cons, patternWidth_cons, ih, List.map_cons, List.sum_cons, Nat.mul_add]

/-- A pattern of fields of whole bytes is the bytes of the first field, then of the second, and so on. -/
theorem beBytes_packBits_wholeBytes (fs : List (Nat × Nat)) (hfits : PatternFits (wholeBytes fs)) :
    beBytes (fs.map Prod.fst).sum (packBits (wholeBytes fs)) = fs.flatMap fun f => beBytes f.1 f.2 := by
  induction fs with
  | nil => rfl
  | cons f fs ih =>
    have hrest : PatternFits (wholeBytes fs) := fun g hg => hfits g (List.mem_cons_of_mem _ hg)
    have hw := patternWidth_wholeBytes fs
    have hpow : 2 ^ patternWidth (wholeBytes fs) = 256 ^ (fs.map Prod.fst).sum := by rw [hw, pow_mul]; rfl
    rw [List.flatMap_cons, ← ih hrest, List.map_cons, List.sum_cons, wholeBytes_cons, packBits_cons, hpow]
    exact beBytes_add _ _ _ _ (packBits_lt_bytes _ hrest hw)

/-- Two neighbouring nibbles of a pattern are one byte. -/
theorem packBits_nibbles (as fs : List (Nat × Nat)) (v t : U4) :
    packBits (as ++ (4, v.toNat) :: (4, t.toNat) :: fs) = packBits (as ++ (8, (v ++ t).toNat) :: fs) := by
  have hbyte : (v ++ t).toNat = v.toNat * 2 ^ 4 + t.toNat := by
    rw [BitVec.toNat_append, ← Nat.shiftLeft_add_eq_or_of_lt t.isLt, Nat.shiftLeft_eq]
  simp only [packBits_append, packBits_cons, patternWidth_cons, hbyte, pow_add]
  ring

theorem beBytes_one (b : Byte) : beBytes 1 b.toNat = [b] := by simp [beBytes]

/-! ### Wire-format words as the codecs' bytes -/

/-- R91, R96: a word of layout HIGH is the header that ADM_ENCODE writes, with the reserved bits put in. -/
theorem beBytes_encodeWire128 (h : AdmissionHeader) (rsv : U8) :
    beBytes 16 (encodeWire128 h rsv) = (admEncode .high h).set 1 rsv := by
  have hbytes := beBytes_packBits_wholeBytes
    [(1, (h.version ++ h.pktType).toNat), (1, rsv.toNat), (4, h.sequence.toNat), (4, h.timestamp.toNat), (4, h.policyId.toNat),
      (2, h.checksum.toNat)]
    (.cons (h.version ++ h.pktType).isLt (.cons rsv.isLt (.cons h.sequence.isLt (.cons h.timestamp.isLt (.cons h.policyId.isLt
      (.cons h.checksum.isLt .nil))))))
  rw [encodeWire128]
  refine (congrArg (beBytes 16) (packBits_nibbles [] _ _ _)).trans (hbytes.trans ?_)
  rw [admEncode, be16_joinVt]
  simp [beBytes_one, be32, be16]

/-- R91, R96: the same in layout LOW. -/
theorem beBytes_encodeWire128Low (h : AdmissionHeader) (rsv : U8) :
    beBytes 16 (encodeWire128Low h rsv) = (admEncode .low h).set 0 rsv := by
  have hbytes := beBytes_packBits_wholeBytes
    [(1, rsv.toNat), (1, (h.version ++ h.pktType).toNat), (4, h.sequence.toNat), (4, h.timestamp.toNat), (4, h.policyId.toNat),
      (2, h.checksum.toNat)]
    (.cons rsv.isLt (.cons (h.version ++ h.pktType).isLt (.cons h.sequence.isLt (.cons h.timestamp.isLt (.cons h.policyId.isLt
      (.cons h.checksum.isLt .nil))))))
  rw [encodeWire128Low]
  refine (congrArg (beBytes 16) (packBits_nibbles [_] _ _ _)).trans (hbytes.trans ?_)
  rw [admEncode, be16_joinVt]
  simp [beBytes_one, be32, be16]

/-- R102, R104: the word of a segment header, field by field. -/
theorem beBytes_encodeWire448 (h : SegmentHeader) (hc : h.checksum.length = 32) :
    beBytes 56 (encodeWire448 h) = Config.segMagic ++ be32 h.segmentId ++ be32 h.seqNum ++ be32 h.totalSegments ++
      [h.sensitivity] ++ [h.opHint] ++ be32 h.policyId ++ be32 h.payloadLength ++ h.checksum := by
  have hck : beNat h.checksum < 2 ^ (8 * 32) := by
    rw [pow_mul]
    exact beNat_lt_of_length hc
  have hmagic : beBytes 2 wireMagic.toNat = Config.segMagic := rfl
  have hbytes := beBytes_packBits_wholeBytes
    [(2, wireMagic.toNat), (4, h.segmentId.toNat), (4, h.seqNum.toNat), (4, h.totalSegments.toNat), (1, h.sensitivity.toNat),
      (1, h.opHint.toNat), (4, h.policyId.toNat), (4, h.payloadLength.toNat), (32, beNat h.checksum)]
    (.cons wireMagic.isLt (.cons h.segmentId.isLt (.cons h.seqNum.isLt (.cons h.totalSegments.isLt (.cons h.sensitivity.isLt
      (.cons h.opHint.isLt (.cons h.policyId.isLt (.cons h.payloadLength.isLt (.cons hck .nil)))))))))
  refine hbytes.trans ?_
  simp only [List.flatMap_cons, List.flatMap_nil, hmagic, beBytes_one, beBytes_beNat_of_length hc, be32, List.append_assoc,
    List.append_nil]

/-! ### The segment codec -/

/-- R165: SEG_ENCODE's bytes are the word of the header, then the payload. -/
theorem segBuild_eq_word_append (d : DigestChoice) (a b c : U32) (e f : U8) (g : U32) (p : Bytes) :
    segBuild d a b c e f g p =
      beBytes 56 (encodeWire448 ⟨a, b, c, e, f, g, BitVec.ofNat 32 p.length, digestOf d p⟩) ++ p := by
  rw [beBytes_encodeWire448 _ (digestOf_length d p), segBuild]

/-- Settles O19. -/
theorem segEncodeWritesHeaderAndPayload : Obligations.SegEncodeWritesHeaderAndPayload := by
  unfold Obligations.SegEncodeWritesHeaderAndPayload
  intro s segmentId seqNum total sens hint policyId p hp
  have hfits : p.length ≤ Config.maxU32 := Nat.le_sub_one_of_lt hp
  exact ⟨_, _, exec_segEncode_fits s segmentId seqNum total sens hint policyId p hfits, rfl, segBuild_eq_word_append ..⟩

/-- R102: the fields of a header, each from the bytes at its offset. -/
theorem segFields_eq {B : Bytes} (hB : 56 ≤ B.length) :
    segFields B = ⟨fieldAt B 2, fieldAt B 6, fieldAt B 10, byteAt B 14, byteAt B 15, fieldAt B 16, fieldAt B 20,
      (B.drop 24).take 32⟩ := by
  simp only [segFields, read32_eq B 2 (by omega), read32_eq B 6 (by omega), read32_eq B 10 (by omega),
    read32_eq B 16 (by omega), read32_eq B 20 (by omega), slice]

/-- Settles O22. -/
theorem segDecodeReadsFieldsAndPayload : Obligations.SegDecodeReadsFieldsAndPayload := by
  unfold Obligations.SegDecodeReadsFieldsAndPayload
  intro s B hB hmagic hlen
  have hlength : (segFields B).payloadLength = fieldAt B 20 := by rw [segFields_eq hB]
  rw [exec_segDecode_segment, segDecode_of_tests _ B hB hmagic (by rwa [hlength]), segFields_eq hB]
  cases s.params.payloadSlice <;> rfl

/-! ### What a wire-format word decodes to -/

/-- R91, R94: every sixteen bytes are the word of layout HIGH of the fields that ADM_DECODE reads there. -/
theorem encodeRequest_admissionHeader_admFields {B : Bytes} (hB : B.length = 16) :
    encodeRequest (.admissionHeader (admFields .high B) (byteAt B 1)) = (.wire128, B) := by
  have hrsv : byteAt B 1 = B[1] := List.getD_eq_getElem _ _ _
  rw [encodeRequest, beBytes_encodeWire128, admEncode_admFields _ _ hB, if_pos rfl, List.set_set, hrsv, List.set_getElem_self]

/-- R91, R94: the same in layout LOW. -/
theorem encodeRequest_admissionHeaderLow_admFields {B : Bytes} (hB : B.length = 16) :
    encodeRequest (.admissionHeaderLow (admFields .low B) (byteAt B 0)) = (.wire128Low, B) := by
  have hrsv : byteAt B 0 = B[0] := List.getD_eq_getElem _ _ _
  rw [encodeRequest, beBytes_encodeWire128Low, admEncode_admFields _ _ hB, if_neg nofun, List.set_set, hrsv, List.set_getElem_self]

/-- R102, R104: 56 bytes with the magic are the word of the fields that SEG_DECODE reads there. -/
theorem encodeRequest_segmentHeader_segFields {B : Bytes} (hB : B.length = 56) (hmagic : B.take 2 = Config.segMagic) :
    encodeRequest (.segmentHeader (segFields B)) = (.wire448, B) := by
  rw [encodeRequest, beBytes_encodeWire448 _ (slice_length B 24 56 (by omega)), ← hmagic, ← slice_zero]
  simp (disch := omega) only [segFields, be32_read32, ← slice_byte, Nat.reduceAdd, slice_append_slice]
  rw [slice_zero, List.take_of_length_le (by omega)]

/-- R102, R104: 56 bytes with the magic decode to those fields. -/
theorem decodeRequest_wire448_of_magic {B : Bytes} (hB : B.length = 56) (hmagic : B.take 2 = Config.segMagic) :
    decodeRequest .wire448 B = .ok (.segmentHeader (segFields B)) := by
  have hc : (segFields B).checksum.length = 32 := slice_length B 24 56 (by omega)
  have hdecode := decodeOfEncodeIsIdentity (.segmentHeader (segFields B)) (by simp [Instr.wf, U256.wf, hc])
  rwa [encodeRequest_segmentHeader_segFields hB hmagic] at hdecode

/-- R102: the header is read from the first 56 bytes alone. -/
theorem segFields_append {B : Bytes} (hB : B.length = 56) (payload : Bytes) : segFields (B ++ payload) = segFields B := by
  have hbyte (i : Nat) (hi : i < 56) : byteAt (B ++ payload) i = byteAt B i := List.getD_append _ _ _ _ (by omega)
  simp (disch := omega) only [segFields, read32, memRead, slice_append_left, hbyte]

theorem decodeWire448_eq_error {w : BitVec 448} {why : DecodeError} (h : decodeWire448 w = .error why) : why = .notASegment := by
  unfold decodeWire448 at h
  split at h
  · cases h
  · exact (Except.error.inj h).symm

/-- R101, R104: 56 bytes without the magic are no segment word: the word of any segment header begins with it. -/
theorem decodeRequest_wire448_of_not_magic {B : Bytes} (hB : B.length = 56) (hmagic : B.take 2 ≠ Config.segMagic) :
    decodeRequest .wire448 B = .error .notASegment := by
  rw [decodeRequest, if_pos hB]
  cases hword : decodeWire448 (BitVec.ofNat 448 (beNat B)) with
  | error why => rw [decodeWire448_eq_error hword]
  | ok i =>
    obtain ⟨h, -, henc, hc⟩ := encodeWire448_decodeWire448 (beNat B) (beNat_lt_of_length hB) i hword
    have hbytes := beBytes_encodeWire448 h hc
    rw [henc, beBytes_beNat_of_length hB] at hbytes
    exact absurd (by rw [hbytes]; rfl) hmagic

/-- R251: the second test of SEG_DECODE. -/
theorem segDecode_of_not_magic (mode : PayloadSlice) {B : Bytes} (hB : 56 ≤ B.length) (hmagic : B.take 2 ≠ Config.segMagic) :
    segDecode mode B = .error .segMagic := by
  unfold segDecode
  rw [if_neg (show ¬ B.length < Config.segHdrLen from Nat.not_lt.mpr hB), if_pos (by rwa [slice_zero])]

/-- R102, R103: a header with the magic and any payload that is long enough for the slicing mode. -/
theorem segDecode_header_append (mode : PayloadSlice) {B : Bytes} (hB : B.length = 56) (hmagic : B.take 2 = Config.segMagic)
    (payload : Bytes) (hlen : mode = .explicit → (segFields B).payloadLength.toNat ≤ payload.length) :
    segDecode mode (B ++ payload) = .ok (segFields B,
      if mode = .explicit then payload.take (segFields B).payloadLength.toNat else payload) := by
  have htake : (B ++ payload).take 2 = B.take 2 := List.take_append_of_le_length (by omega)
  have hdrop : (B ++ payload).drop 56 = payload := List.drop_left' hB
  have hlength : (B ++ payload).length = 56 + payload.length := by rw [List.length_append, hB]
  rw [segDecode_of_tests mode (B ++ payload) (by omega) (htake.trans hmagic), segFields_append hB, hdrop]
  rw [segFields_append hB, hlength]
  exact fun hmode => Nat.add_le_add_left (hlen hmode) 56

/-- Settles O11. The bytes of a word are the encoding of the record that the codec reads in them, and a word decodes to what it
encodes. -/
theorem wireWordsAgreeWithCodecs : Obligations.WireWordsAgreeWithCodecs := by
  unfold Obligations.WireWordsAgreeWithCodecs
  refine ⟨fun _ _ _ => ⟨rfl, rfl⟩, fun _ _ => rfl, ?high, ?low, ?remainder, ?explicit, ?noMagic⟩
  case high =>
    intro s B hB hlayout
    have hdecode := decodeOfEncodeIsIdentity (.admissionHeader (admFields .high B) (byteAt B 1)) rfl
    rw [encodeRequest_admissionHeader_admFields hB] at hdecode
    exact ⟨_, _, hdecode, rfl, hlayout ▸ exec_admDecode_of_length hB s⟩
  case low =>
    intro s B hB hlayout
    have hdecode := decodeOfEncodeIsIdentity (.admissionHeaderLow (admFields .low B) (byteAt B 0)) rfl
    rw [encodeRequest_admissionHeaderLow_admFields hB] at hdecode
    exact ⟨_, _, hdecode, rfl, hlayout ▸ exec_admDecode_of_length hB s⟩
  case remainder =>
    intro s B payload hB hmagic hmode
    refine ⟨segFields B, decodeRequest_wire448_of_magic hB hmagic, rfl, ?_⟩
    rw [exec_segDecode_segment, hmode]
    exact segDecode_header_append .remainder hB hmagic payload nofun
  case explicit =>
    intro s B payload hB hmagic hmode
    refine ⟨segFields B, decodeRequest_wire448_of_magic hB hmagic, rfl, fun hlen => ?_⟩
    rw [exec_segDecode_segment, hmode]
    exact segDecode_header_append .explicit hB hmagic payload fun _ => hlen
  case noMagic =>
    intro s B rest hB hmagic hinbox
    refine ⟨step_request_of_decode_error hinbox (decodeRequest_wire448_of_not_magic hB hmagic), ?_⟩
    rw [exec_segDecode_formatError]
    exact segDecode_of_not_magic _ hB.ge hmagic

end Sys2Proof.Machine
end

section
/-! The admission codec and the gate (spec/41_admission.md R143 to R149), and the numbers of the spec's tables of codes (R146, R241,
R242, R247). -/

namespace Sys2Proof.Machine

/-! ### The admission codec -/

/-- Settles O15. -/
theorem admissionCodecRoundTrips : Obligations.AdmissionCodecRoundTrips := by
  unfold Obligations.AdmissionCodecRoundTrips
  refine fun s => ⟨fun h => ?_, fun B hB => ⟨_, exec_admDecode_of_length hB s, ?_⟩⟩
  · have hlength := admEncode_length s.params.vtLayout h
    refine ⟨_, exec_admEncode h s, hlength, ?_⟩
    rw [exec_admDecode_of_length hlength, admFields_admEncode]
  · rw [exec_admEncode, admEncode_admFields _ B hB]

/-! ### The admission gate -/

/-- R15: a slice of a buffer's first `n` bytes is that slice of the buffer. -/
theorem slice_slice_zero (B : Bytes) {i j n : Nat} (h : j ≤ n) : slice (slice B 0 n) i j = slice B i j := by
  rw [slice_zero, slice, List.drop_take, List.take_take, Nat.min_eq_left (Nat.sub_le_sub_right h i), slice]

/-- R149: the header is read from the first sixteen bytes of a packet alone. -/
theorem admFields_slice_zero (layout : VtLayout) (P : Bytes) : admFields layout (slice P 0 16) = admFields layout P := by
  simp (disch := omega) only [admFields, read16, read32, memRead, slice_slice_zero]

/-- R94: the version of a header is a nibble of one of its first two bytes. -/
theorem admFields_version (layout : VtLayout) {B : Bytes} (hB : 2 ≤ B.length) :
    (admFields layout B).version = versionOf layout B := by
  rw [admFields, read16_eq B 0 hB, splitVt_append]
  cases layout <;> rfl

/-- R94: the policy id of a header is its 32-bit field at offset 10. -/
theorem admFields_policyId (layout : VtLayout) {B : Bytes} (hB : 14 ≤ B.length) :
    (admFields layout B).policyId = fieldAt B 10 :=
  read32_eq B 10 hB

/-- R144: ADMIT answers its decision. -/
theorem exec_admitPacket (P : Bytes) (now : Time) (s : State) :
    exec (.admitPacket P now) s = .next (s.answered (.decision (admission s.params P now))) := rfl

/-- R144: the decision answered is that of `admission`. -/
theorem exec_admitPacket_decision (P : Bytes) (now : Time) (s : State) (d : Decision) :
    exec (.admitPacket P now) s = .next (s.answered (.decision d)) ↔ d = admission s.params P now := by
  simp [exec_admitPacket, eq_comm]

/-- R144, R250: the decision of ADMIT from the bytes of the packet, its tests in their order. -/
theorem admission_eq (p : Params) (P : Bytes) (now : Time) :
    admission p P now =
      if P.length < 16 then .drop .tooShort
      else if versionOf p.vtLayout P ≠ 1 then .drop (.badVersion (versionOf p.vtLayout P))
      else if ptRead p.policyTable (fieldAt P 10) = none then .drop (.policyRejected (fieldAt P 10))
      else .forward (fieldAt P 10) now := by
  by_cases hP : P.length < 16
  · rw [if_pos hP]
    exact if_pos hP
  · rw [if_neg hP, ← admFields_version p.vtLayout (by omega), ← admFields_policyId p.vtLayout (by omega),
      ← admFields_slice_zero]
    exact if_neg hP

/-- Settles O17. The same test of ADMIT decides in both runs, with the same argument; the clock value is all that a decision carries
besides. -/
theorem admissionDecisionIsDetermined : Obligations.AdmissionDecisionIsDetermined := by
  unfold Obligations.AdmissionDecisionIsDetermined
  intro s s' P P' now now' d d' htable hshort hversion hpolicy hd hd'
  rw [exec_admitPacket_decision, admission_eq] at hd hd'
  simp only [htable, ← hshort, hversion, hpolicy] at hd'
  subst hd hd'
  split_ifs <;> rfl

/-! ### The numbers of the spec's tables -/

/-- Settles O55: each number is an entry of a table of codes. -/
theorem codesAreTheSpecsNumbers : Obligations.CodesAreTheSpecsNumbers := by
  unfold Obligations.CodesAreTheSpecsNumbers
  refine ⟨?dropReasons, ?formatSubs, ?refuseReasons, ?outcomes⟩
  case dropReasons => exact ⟨rfl, fun _ => rfl, fun _ => rfl⟩
  case formatSubs => exact ⟨rfl, rfl, rfl, rfl⟩
  case refuseReasons => rfl
  case outcomes =>
    exact ⟨rfl, fun _ => rfl, fun _ => rfl, fun _ => rfl, fun _ => rfl, fun _ _ _ => rfl, rfl, fun _ => rfl⟩

end Sys2Proof.Machine
end

section
/-! Units SHC and DG (spec/42_segment_codec.md R161 to R171). -/

namespace Sys2Proof.Machine

/-! ### The digest unit -/

/-- R162: DIGEST_GEN answers the digest under the configured function. -/
theorem exec_digestGen (p : Bytes) (s : State) :
    exec (.digestGen p) s = .next (s.answered (.bytes (digestOf s.params.digest p))) := rfl

theorem exec_digestGen_bytes (p : Bytes) (s : State) (c : Bytes) :
    exec (.digestGen p) s = .next (s.answered (.bytes c)) ↔ c = digestOf s.params.digest p := by
  simp [exec_digestGen, eq_comm]

/-- Settles O18. -/
theorem digestVerifyAcceptsExactlyTheDigest : Obligations.DigestVerifyAcceptsExactlyTheDigest := by
  unfold Obligations.DigestVerifyAcceptsExactlyTheDigest
  refine fun s p => ⟨digestOf s.params.digest p, digestOf_length _ _, fun s' hs' => ?_, fun c => ?_⟩
  · rw [exec_digestGen, hs']
  · rw [exec_digestVerify_bool, Bool.eq_iff_iff, digestVerify_iff, decide_eq_true_iff]

/-! ### Encoding a segment -/

/-- R166: a payload that does not fit its length field is refused. -/
theorem exec_segEncode_tooLong (s : State) (a b c : U32) (d e : U8) (f : U32) {p : Bytes} (h : Config.maxU32 < p.length) :
    exec (.segEncode a b c d e f p) s = .next (s.answered (.refused .payloadTooLong)) := by
  have hs : segEncode s.params.digest a b c d e f p = .error .payloadTooLong := if_pos h
  simp only [exec, execSegEncode, hs, refuse, answer]

/-- Settles O20. -/
theorem segEncodeRefusesLongPayload : Obligations.SegEncodeRefusesLongPayload := by
  unfold Obligations.SegEncodeRefusesLongPayload
  exact fun s segmentId seqNum total sens hint policyId _ hp =>
    exec_segEncode_tooLong s segmentId seqNum total sens hint policyId hp

/-- Settles O23. -/
theorem segmentCodecRoundTrips : Obligations.SegmentCodecRoundTrips := by
  unfold Obligations.SegmentCodecRoundTrips
  refine ⟨?decodeOfEncode, ?encodeOfDecode⟩
  case decodeOfEncode =>
    intro s segmentId seqNum total sens hint policyId p hp
    refine ⟨_, _, exec_segEncode_fits s segmentId seqNum total sens hint policyId p hp, exec_digestGen p s, ?_, ?_⟩
    · rw [exec_segDecode_segment]
      exact segDecode_segBuild _ _ _ _ _ _ _ _ p (Nat.lt_of_le_pred (by decide) hp)
    · rw [exec_digestVerify_bool, digestVerify_iff]
  case encodeOfDecode =>
    intro s B h p hmode hdecode hdigest
    rw [exec_segDecode_segment, hmode] at hdecode
    rw [exec_digestGen_bytes] at hdigest
    obtain ⟨hbuild, hlength⟩ := segBuild_of_segDecode s.params.digest hdecode hdigest
    have hfits : p.length ≤ Config.maxU32 := hlength ▸ Nat.le_sub_one_of_lt h.payloadLength.isLt
    rw [exec_segEncode_fits _ _ _ _ _ _ _ p hfits, hbuild]

/-! ### What a decode reads -/

/-- R102: the header is read from the first 56 bytes alone. -/
theorem segFields_take {B : Bytes} (hB : 56 ≤ B.length) : segFields (B.take 56) = segFields B := by
  have h := segFields_append (List.length_take_of_le hB) (B.drop 56)
  rwa [List.take_append_drop, eq_comm] at h

/-- R171: when the bytes behind the header of a buffer that decodes are replaced, it decodes to the same header and to the payload
that the slicing mode cuts from the new bytes, whatever they are, if there are enough of them. -/
theorem segDecode_replace_payload {mode : PayloadSlice} {B : Bytes} {h : SegmentHeader} {p : Bytes}
    (hdecode : segDecode mode B = .ok (h, p)) {rest : Bytes}
    (hlen : mode = .explicit → h.payloadLength.toNat ≤ rest.length) :
    segDecode mode (B.take 56 ++ rest) =
      .ok (h, if mode = .explicit then rest.take h.payloadLength.toNat else rest) := by
  obtain ⟨hB, hmagic, rfl, -, -⟩ := segDecode_eq_ok hdecode
  have hfields := segFields_take hB
  have hmagic' : (B.take 56).take 2 = Config.segMagic := by rwa [List.take_take]
  rw [segDecode_header_append mode (List.length_take_of_le hB) hmagic' rest (by rwa [hfields]), hfields]

/-- R103: the payload of a buffer that decodes, by slicing mode. -/
theorem payload_of_segDecode {mode : PayloadSlice} {B : Bytes} {h : SegmentHeader} {p : Bytes}
    (hdecode : segDecode mode B = .ok (h, p)) :
    (mode = .explicit → h.payloadLength.toNat ≤ (B.drop 56).length) ∧
      p = if mode = .explicit then (B.drop 56).take h.payloadLength.toNat else B.drop 56 := by
  obtain ⟨-, -, rfl, hexplicit, hremainder⟩ := segDecode_eq_ok hdecode
  cases mode with
  | explicit =>
    obtain ⟨hlen, hp⟩ := hexplicit rfl
    exact ⟨fun _ => by rwa [List.length_drop], hp⟩
  | remainder => exact ⟨nofun, hremainder rfl⟩

/-- R167, R171: the tests of SEG_DECODE read the length, the magic and, under EXPLICIT, the length field. -/
theorem segDecode_succeeds_congr {mode : PayloadSlice} {B B' : Bytes} {h : SegmentHeader} {p : Bytes}
    (hlength : B'.length = B.length) (hmagic : B'.take 2 = B.take 2)
    (hfield : mode = .explicit → (B'.drop 20).take 4 = (B.drop 20).take 4) (hdecode : segDecode mode B = .ok (h, p)) :
    ∃ h' p', segDecode mode B' = .ok (h', p') := by
  obtain ⟨hB, hmagicB, -, hexplicit, -⟩ := segDecode_eq_ok hdecode
  refine ⟨_, _, segDecode_of_tests mode B' (hlength ▸ hB) (hmagic.trans hmagicB) fun hmode => ?_⟩
  obtain ⟨hlen, -⟩ := hexplicit hmode
  have hread : (segFields B').payloadLength = (segFields B).payloadLength := read32_congr (hfield hmode)
  rw [hread]
  omega

/-- R103, R171: under EXPLICIT nothing behind the payload slice is read. -/
theorem segDecode_explicit_congr {B B' : Bytes} {h : SegmentHeader} {p : Bytes} (hdecode : segDecode .explicit B = .ok (h, p))
    (htake : B'.take (56 + h.payloadLength.toNat) = B.take (56 + h.payloadLength.toNat)) :
    segDecode .explicit B' = .ok (h, p) := by
  obtain ⟨hlen, hp⟩ := payload_of_segDecode hdecode
  have hpayload : (B'.drop 56).take h.payloadLength.toNat = (B.drop 56).take h.payloadLength.toNat := by
    rw [List.take_drop, htake, List.take_drop]
  have hhead : B'.take 56 = B.take 56 := by
    simpa [List.take_take] using congrArg (List.take 56) htake
  have hlen' : h.payloadLength.toNat ≤ (B'.drop 56).length := by
    have hcount := congrArg List.length hpayload
    rw [List.length_take_of_le (hlen rfl), List.length_take] at hcount
    omega
  have hreplaced := segDecode_replace_payload hdecode (rest := B'.drop 56) fun _ => hlen'
  rw [if_pos rfl] at hp hreplaced
  rwa [← hhead, List.take_append_drop, hpayload, ← hp] at hreplaced

/-- Settles O24. -/
theorem segDecodeSuccessReadsNoPayload : Obligations.SegDecodeSuccessReadsNoPayload := by
  unfold Obligations.SegDecodeSuccessReadsNoPayload
  simp only [exec_segDecode_segment]
  refine ⟨fun s B B' h p hlength hmagic hfield hdecode => segDecode_succeeds_congr hlength hmagic hfield hdecode, ?_⟩
  intro s B B' h p hmode hdecode htake
  rw [hmode] at hdecode ⊢
  exact segDecode_explicit_congr hdecode htake

/-- R103, R171: a byte changed behind the header of a buffer that decodes changes that byte of the payload and nothing else. -/
theorem segDecode_set_payload {mode : PayloadSlice} {B : Bytes} {h : SegmentHeader} {p : Bytes}
    (hdecode : segDecode mode B = .ok (h, p)) (k : Nat) (b : Byte) :
    segDecode mode (B.set (56 + k) b) = .ok (h, p.set k b) := by
  obtain ⟨hB, -⟩ := segDecode_eq_ok hdecode
  obtain ⟨hlen, hp⟩ := payload_of_segDecode hdecode
  have hset : B.set (56 + k) b = B.take 56 ++ (B.drop 56).set k b := by
    rw [List.set_drop, ← List.take_set_of_le (Nat.le_add_right 56 k), List.take_append_drop]
  rw [hset, segDecode_replace_payload hdecode (by rwa [List.length_set]), hp, apply_ite (List.set · k b), List.take_set]

end Sys2Proof.Machine
end

section
/-! A corrupted segment in a reassembly (spec/44_reassembly.md R215, R220, R225). -/

namespace Sys2Proof.Machine

/-! ### One push -/

/-- R215: a sound segment pushed within capacity is stored. -/
theorem rsmPush_of_sound {p : Params} {r : Rsm} {B : Bytes} {h : SegmentHeader} {payload : Bytes} (hphase : r.phase = .collecting)
    (hdecode : segDecode p.payloadSlice B = .ok (h, payload)) (hverify : digestVerify p.digest payload h.checksum = true)
    (hcap : r.overCapacity p payload = false) :
    rsmPush p r B = ((r.expect h.totalSegments).insert ⟨h.seqNum, payload⟩, .ok) := by
  simp [rsmPush, hphase, hdecode, hverify, hcap]

/-- R215, R216: a segment that fails its digest is latched as an IntegrityError under ABORT. -/
theorem rsmPush_of_corrupted {p : Params} {r : Rsm} {B : Bytes} {h : SegmentHeader} {payload : Bytes}
    (hpolicy : p.corruptPolicy = .abort) (hphase : r.phase = .collecting)
    (hdecode : segDecode p.payloadSlice B = .ok (h, payload)) (hverify : digestVerify p.digest payload h.checksum = false) :
    rsmPush p r B = ((r.expect h.totalSegments).fail (.integrity h.seqNum), .integrityError h.seqNum) := by
  simp [rsmPush, hphase, hdecode, hverify, hpolicy]

/-- R256: a push in FAILED reports the latched error and leaves the store. -/
theorem rsmPush_of_failed (p : Params) {r : Rsm} {e : RsmError} (hphase : r.phase = .failed e) (B : Bytes) :
    rsmPush p r B = (r, e.result) := by
  simp [rsmPush, hphase]

theorem rsmFinish_of_failed {r : Rsm} {e : RsmError} (hphase : r.phase = .failed e) : rsmFinish r = (r.release, e.result) := by
  simp [rsmFinish, hphase]

/-! ### The pushes of a REASSEMBLE -/

theorem RsmError.result_ne_refused (e : RsmError) (reason : RefuseReason) : e.result ≠ .refused reason := by
  cases e <;> nofun

/-- R256: pushes in FAILED leave the store, whatever they push. -/
theorem pushAll_of_failed (p : Params) {r : Rsm} {e : RsmError} (hphase : r.phase = .failed e) (segs : List Bytes) :
    pushAll p r segs = (r, false) := by
  induction segs with
  | nil => rfl
  | cons B segs ih => rw [pushAll_cons, rsmPush_of_failed p hphase, if_neg (e.result_ne_refused _), ih]

/-- R219, R220: pushes of sound segments at unbounded capacity go on in COLLECTING to the pushes that follow. -/
theorem pushAll_append_of_sound {p : Params} (hcap : p.unbounded) {before : List Bytes} (after : List Bytes)
    (hsound : ∀ C ∈ before, ∃ g q, segDecode p.payloadSlice C = .ok (g, q) ∧ digestVerify p.digest q g.checksum = true)
    {r : Rsm} (hphase : r.phase = .collecting) :
    ∃ r', r'.phase = .collecting ∧ pushAll p r (before ++ after) = pushAll p r' after := by
  induction before generalizing r with
  | nil => exact ⟨r, hphase, rfl⟩
  | cons C before ih =>
    obtain ⟨⟨g, q, hdecode, hverify⟩, hrest⟩ := List.forall_mem_cons.mp hsound
    have hpush := rsmPush_of_sound hphase hdecode hverify (Rsm.overCapacity_unbounded hcap.1 hcap.2 r q)
    rw [List.cons_append, pushAll_cons, hpush, if_neg nofun]
    exact ih hrest (by rw [Rsm.insert_phase, Rsm.expect_phase, hphase])

/-- R225: under ABORT the first corrupted segment decides a REASSEMBLE. -/
theorem reassemble_of_corrupted {p : Params} (hpolicy : p.corruptPolicy = .abort) (hcap : p.unbounded) {before : List Bytes}
    (hsound : ∀ C ∈ before, ∃ g q, segDecode p.payloadSlice C = .ok (g, q) ∧ digestVerify p.digest q g.checksum = true)
    {B : Bytes} {h : SegmentHeader} {payload : Bytes} (hdecode : segDecode p.payloadSlice B = .ok (h, payload))
    (hverify : digestVerify p.digest payload h.checksum = false) (after : List Bytes) :
    reassemble p (before ++ B :: after) = (Rsm.reset, .integrityError h.seqNum) := by
  obtain ⟨r, hphase, hbefore⟩ := pushAll_append_of_sound hcap (B :: after) hsound Rsm.started_phase
  have hfailed : ((r.expect h.totalSegments).fail (.integrity h.seqNum)).phase = .failed (.integrity h.seqNum) := rfl
  have hpushes : pushAll p Rsm.started (before ++ B :: after) =
      ((r.expect h.totalSegments).fail (.integrity h.seqNum), false) := by
    rw [hbefore, pushAll_cons, rsmPush_of_corrupted hpolicy hphase hdecode hverify, if_neg nofun, pushAll_of_failed p hfailed]
  rw [reassemble_eq, hpushes, if_neg nofun, rsmFinish_of_failed hfailed]
  rfl

/-- Settles O43. The changed byte lies behind the header, so the buffer decodes to the same header, with the checksum of the payload
before the change. -/
theorem corruptedPayloadAbortsReassembly : Obligations.CorruptedPayloadAbortsReassembly := by
  unfold Obligations.CorruptedPayloadAbortsReassembly
  intro s before after B h p k b hpolicy hcap hsound hdecode hverify _ hdigest
  simp only [exec_segDecode_segment, exec_digestVerify_bool] at hsound hdecode hverify
  have hcorrupted : digestVerify s.params.digest (p.set k b) h.checksum = false := by
    rw [← Bool.not_eq_true, digestVerify_iff, (digestVerify_iff ..).mp hverify]
    exact hdigest.symm
  rw [exec_reassemble, reassemble_of_corrupted hpolicy hcap hsound (segDecode_set_payload hdecode k b) hcorrupted after]
  rfl

end Sys2Proof.Machine
end

section
/-! Unit SG (spec/43_segmenter_filter.md R190 to R196): the tags, what SPLIT refuses and what it makes. -/

namespace Sys2Proof.Machine

/-! ### Tags -/

/-- R191: SEG_TAG is its function. -/
theorem exec_segTag (offset : Nat) (s : State) :
    exec (.segTag offset) s = .next (s.answered (.tag (segTag offset).1 (segTag offset).2)) := rfl

/-- R47, R48, R191: the tags by number. -/
theorem segTag_eq (offset : Nat) : segTag offset = if offset < 131072 then (0x02, 0x02) else (0x00, 0x00) := rfl

/-- Settles O25. -/
theorem tagDependsOnStartingOffset : Obligations.TagDependsOnStartingOffset := by
  unfold Obligations.TagDependsOnStartingOffset
  intro s offset
  rw [exec_segTag, segTag_eq]
  split <;> rfl

/-! ### What SPLIT refuses -/

/-- R194: a SPLIT that its function refuses. -/
theorem exec_split_of_error {s : State} {data : Bytes} {S : Nat} {policyId segmentId : U32} {reason : RefuseReason}
    (h : split s.params.digest data S policyId segmentId = .error reason) :
    exec (.split data (some S) policyId segmentId) s = .next (s.answered (.refused reason)) := by
  simp only [exec, execSplit, segmentSizeOf_some, h, refuse, answer]

theorem split_zero (d : DigestChoice) (data : Bytes) (policyId segmentId : U32) :
    split d data 0 policyId segmentId = .error .segmentSizeZero := if_pos rfl

theorem split_of_size_tooLarge (d : DigestChoice) (data : Bytes) {S : Nat} (policyId segmentId : U32) (h : Config.maxU32 < S) :
    split d data S policyId segmentId = .error .segmentSizeTooLarge := by
  rw [split, if_neg (Nat.ne_of_gt (Nat.zero_lt_of_lt h)), if_pos h]

theorem split_of_tooManySegments (d : DigestChoice) {data : Bytes} {S : Nat} (policyId segmentId : U32) (h0 : 0 < S)
    (h1 : S ≤ Config.maxU32) (h2 : Config.maxU32 * S < data.length) :
    split d data S policyId segmentId = .error .tooManySegments := by
  have hn : Config.maxU32 < ceilDiv data.length S := by
    rwa [← Nat.not_le, ceilDiv_le_iff _ _ _ h0, Nat.not_le]
  rw [split, if_neg (Nat.ne_of_gt h0), if_neg (Nat.not_lt.mpr h1), if_pos hn]

/-- R194: the operands that SPLIT accepts. -/
structure SplitAccepts (data : Bytes) (S : Nat) : Prop where
  size_pos : 0 < S
  size_le : S ≤ Config.maxU32
  count_le : data.length ≤ Config.maxU32 * S

/-- R194: the number of segments fits its field. -/
theorem SplitAccepts.ceilDiv_le {data : Bytes} {S : Nat} (h : SplitAccepts data S) : ceilDiv data.length S ≤ Config.maxU32 :=
  (ceilDiv_le_iff _ _ _ h.size_pos).mpr h.count_le

theorem SplitAccepts.ceilDiv_lt {data : Bytes} {S : Nat} (h : SplitAccepts data S) : ceilDiv data.length S < 2 ^ 32 :=
  Nat.lt_of_le_pred (by decide) h.ceilDiv_le

/-- R193, R194: SPLIT answers segments exactly when it accepts its operands, and then those of its loop. -/
theorem exec_split_segments (s : State) (data : Bytes) (S : Nat) (policyId segmentId : U32) (l : List Bytes) :
    exec (.split data (some S) policyId segmentId) s = .next (s.answered (.segments l)) ↔
      SplitAccepts data S ∧ l = splitList s.params.digest data S policyId segmentId := by
  constructor
  · intro h
    have hno (reason : RefuseReason) : split s.params.digest data S policyId segmentId ≠ .error reason := fun he => by
      simp [exec_split_of_error he] at h
    have h0 : 0 < S := Nat.pos_of_ne_zero fun hS => hno _ (hS ▸ split_zero ..)
    have h1 : S ≤ Config.maxU32 := not_lt.mp fun hS => hno _ (split_of_size_tooLarge _ _ _ _ hS)
    have h2 : data.length ≤ Config.maxU32 * S := not_lt.mp fun hL => hno _ (split_of_tooManySegments _ _ _ h0 h1 hL)
    have haccepts : SplitAccepts data S := ⟨h0, h1, h2⟩
    rw [exec_split_fits s data S policyId segmentId h0 h1 haccepts.ceilDiv_le] at h
    simp only [Host.Outcome.next.injEq, State.mk.injEq, Option.some.injEq, Result.segments.injEq, true_and] at h
    exact ⟨haccepts, h.symm⟩
  · rintro ⟨haccepts, rfl⟩
    exact exec_split_fits s data S policyId segmentId haccepts.size_pos haccepts.size_le haccepts.ceilDiv_le

/-- Settles O26. -/
theorem splitRefusesUnfitOperands : Obligations.SplitRefusesUnfitOperands := by
  unfold Obligations.SplitRefusesUnfitOperands
  intro s data S policyId segmentId
  refine ⟨?zero, fun hS => exec_split_of_error (split_of_size_tooLarge _ _ _ _ hS),
    fun h0 h1 h2 => exec_split_of_error (split_of_tooManySegments _ _ _ h0 h1 h2), ?accepted⟩
  case zero =>
    rintro rfl
    exact exec_split_of_error (split_zero ..)
  case accepted => exact fun h0 h1 h2 => ⟨_, (exec_split_segments ..).mpr ⟨⟨h0, h1, h2⟩, rfl⟩⟩

/-! ### The segments of a SPLIT -/

/-- R193, R196: the header of segment `i` of `n`. -/
def splitHeader (d : DigestChoice) (data : Bytes) (S : Nat) (policyId segmentId : U32) (n i : Nat) : SegmentHeader where
  segmentId := segmentId
  seqNum := BitVec.ofNat 32 i
  totalSegments := BitVec.ofNat 32 n
  sensitivity := if i * S < 131072 then 0x02 else 0x00
  opHint := if i * S < 131072 then 0x02 else 0x00
  policyId := policyId
  payloadLength := BitVec.ofNat 32 (chunkOf data S i).length
  checksum := digestOf d (chunkOf data S i)

/-- R193: a segment of a SPLIT as SEG_ENCODE makes it. -/
theorem splitSegment_eq_segOf (d : DigestChoice) (data : Bytes) (S : Nat) (policyId segmentId : U32) (n i : Nat) :
    splitSegment d data S policyId segmentId n i =
      segOf d (splitHeader d data S policyId segmentId n i) (chunkOf data S i) := by
  rw [splitSegment, segTag_eq, segOf, splitHeader]
  split <;> rfl

theorem chunkOf_length_le (data : Bytes) (S i : Nat) : (chunkOf data S i).length ≤ S := by
  rw [chunkOf_length]
  exact Nat.min_le_left ..

theorem SplitAccepts.chunkOf_length_lt {data : Bytes} {S : Nat} (h : SplitAccepts data S) (i : Nat) :
    (chunkOf data S i).length < 2 ^ 32 :=
  Nat.lt_of_le_pred (by decide) ((chunkOf_length_le data S i).trans h.size_le)

/-- R196: a segment of a SPLIT decodes to its header and its chunk, in either slicing mode. -/
theorem segDecode_splitSegment (mode : PayloadSlice) (d : DigestChoice) {data : Bytes} {S : Nat} (h : SplitAccepts data S)
    (policyId segmentId : U32) (n i : Nat) :
    segDecode mode (splitSegment d data S policyId segmentId n i) =
      .ok (splitHeader d data S policyId segmentId n i, chunkOf data S i) := by
  rw [splitSegment_eq_segOf]
  exact segDecode_segBuild mode d _ _ _ _ _ _ _ (h.chunkOf_length_lt i)

/-- R193: the chunks cover the data. -/
theorem SplitAccepts.length_le_chunks {data : Bytes} {S : Nat} (h : SplitAccepts data S) :
    data.length ≤ ceilDiv data.length S * S :=
  (ceilDiv_le_iff _ _ _ h.size_pos).mp le_rfl

/-- R196: the chunks in order are the data. -/
theorem SplitAccepts.chunks_flatten_eq {data : Bytes} {S : Nat} (h : SplitAccepts data S) :
    ((List.range (ceilDiv data.length S)).map (chunkOf data S)).flatten = data := by
  rw [chunks_flatten, List.take_of_length_le h.length_le_chunks]

/-- R193: what stands at a place of the segments. -/
theorem splitList_getElem?_eq_some {d : DigestChoice} {data : Bytes} {S : Nat} {policyId segmentId : U32} {i : Nat} {b : Bytes} :
    (splitList d data S policyId segmentId)[i]? = some b ↔
      i < ceilDiv data.length S ∧ b = splitSegment d data S policyId segmentId (ceilDiv data.length S) i := by
  by_cases hi : i < ceilDiv data.length S <;> simp [splitList, hi, eq_comm]

/-- Settles O28. -/
theorem splitCoversTheData : Obligations.SplitCoversTheData := by
  unfold Obligations.SplitCoversTheData
  intro s data S policyId segmentId h0 h1 h2
  have haccepts : SplitAccepts data S := ⟨h0, h1, h2⟩
  have hn := haccepts.ceilDiv_lt
  refine ⟨_, (exec_split_segments ..).mpr ⟨haccepts, rfl⟩, ?_⟩
  simp only [splitList_length]
  refine ⟨haccepts.length_le_chunks, fun m hm => (ceilDiv_le_iff _ _ _ h0).mpr hm,
    (List.range (ceilDiv data.length S)).map (chunkOf data S), by rw [List.length_map, List.length_range],
    haccepts.chunks_flatten_eq, ?_⟩
  intro i b p hb hp
  obtain ⟨hi, rfl⟩ := splitList_getElem?_eq_some.mp hb
  obtain rfl : chunkOf data S i = p := by simpa [hi] using hp
  refine ⟨chunkOf_length data S i, _, exec_digestGen _ s, ?_, hi.trans hn, hn, haccepts.chunkOf_length_lt i⟩
  rw [exec_segDecode_segment]
  exact segDecode_splitSegment _ _ haccepts policyId segmentId _ i

/-! ### The tags of a SPLIT -/

/-- R192: with `k` the least number of chunks that reaches byte `T`, the chunks that start below `T` are the first `k`. -/
theorem mul_lt_iff_lt_of_least {S T k : Nat} (hcover : T ≤ k * S) (hleast : ∀ m, T ≤ m * S → k ≤ m) (i : Nat) :
    i * S < T ↔ i < k := by
  constructor
  · exact fun h => not_le.mp fun hki => absurd (hcover.trans (Nat.mul_le_mul_right S hki)) (not_le.mpr h)
  · exact fun h => not_le.mp fun hT => absurd (hleast i hT) (not_le.mpr h)

/-- R102: the fields of a segment are what it was built from. -/
theorem segFields_segOf (d : DigestChoice) (h : SegmentHeader) (p : Bytes) :
    segFields (segOf d h p) = { h with payloadLength := BitVec.ofNat 32 p.length, checksum := digestOf d p } := by
  have hsplit := (segBuild_split d h.segmentId h.seqNum h.totalSegments h.sensitivity h.opHint h.policyId p).1
  rw [segOf, ← hsplit, segFields_segBuild]

/-- R102, R192: the sensitivity and the hint of a segment of a SPLIT. -/
theorem byteAt_splitSegment_tags (d : DigestChoice) (data : Bytes) (S : Nat) (policyId segmentId : U32) (n i : Nat) :
    (byteAt (splitSegment d data S policyId segmentId n i) 14, byteAt (splitSegment d data S policyId segmentId n i) 15) =
      if i * S < 131072 then (0x02, 0x02) else (0x00, 0x00) := by
  have hfields := segFields_segOf d (splitHeader d data S policyId segmentId n i) (chunkOf data S i)
  rw [← splitSegment_eq_segOf] at hfields
  have h14 := congrArg SegmentHeader.sensitivity hfields
  have h15 := congrArg SegmentHeader.opHint hfields
  simp only [segFields, splitHeader] at h14 h15
  rw [h14, h15]
  split <;> rfl

/-- A list of one value at the first `k` of `n` places and another from there on. -/
theorem map_range_ite_lt {α : Type} (n k : Nat) (a b : α) :
    (List.range n).map (fun i => if i < k then a else b) = List.replicate (min n k) a ++ List.replicate (n - k) b := by
  refine List.ext_getElem (by simp; omega) fun i hi _ => ?_
  have hin : i < n := by simpa using hi
  have hplace : i < min n k ↔ i < k := by rw [lt_min_iff, and_iff_right hin]
  simp [List.getElem_append, hplace]

/-- Settles O29. -/
theorem splitTagsTheFirstSegments : Obligations.SplitTagsTheFirstSegments := by
  unfold Obligations.SplitTagsTheFirstSegments
  intro s data S policyId segmentId l hsplit
  obtain ⟨haccepts, rfl⟩ := (exec_split_segments ..).mp hsplit
  have h0 := haccepts.size_pos
  have hcover : 131072 ≤ ceilDiv 131072 S * S := (ceilDiv_le_iff _ _ _ h0).mp le_rfl
  have hleast (m : Nat) (hm : 131072 ≤ m * S) : ceilDiv 131072 S ≤ m := (ceilDiv_le_iff _ _ _ h0).mpr hm
  refine ⟨ceilDiv 131072 S, hcover, hleast, ?_⟩
  rw [splitList_length, ← map_range_ite_lt, splitList, List.map_map]
  refine List.map_congr_left fun i _ => ?_
  simp only [Function.comp_apply, byteAt_splitSegment_tags, mul_lt_iff_lt_of_least hcover hleast]

end Sys2Proof.Machine
end

section
/-! Unit GF (spec/43_segmenter_filter.md R197 to R203): what FILTER_ONE decides by, and what ENFORCE and chains of hops forward. -/

namespace Sys2Proof.Machine

/-! ### FILTER_ONE -/

/-- R197: FILTER_ONE is its function. -/
theorem exec_filterOne (B : Bytes) (ext : Bool) (s : State) :
    exec (.filterOne B ext) s = .next (s.answered (.verdict (filterOne s.params.payloadSlice B ext))) := rfl

theorem exec_filterOne_verdict (B : Bytes) (ext : Bool) (s : State) (v : FilterVerdict) :
    exec (.filterOne B ext) s = .next (s.answered (.verdict v)) ↔ v = filterOne s.params.payloadSlice B ext := by
  simp [exec_filterOne, eq_comm]

/-- R198: at a node that is not external the buffer is not examined. -/
@[simp] theorem filterOne_false (mode : PayloadSlice) (B : Bytes) : filterOne mode B false = .forward B := rfl

/-- R197: an external node decides by the sensitivity of a buffer that decodes. -/
theorem filterOne_true_of_ok {mode : PayloadSlice} {B : Bytes} {h : SegmentHeader} {p : Bytes}
    (hdecode : segDecode mode B = .ok (h, p)) :
    filterOne mode B true = if 2 ≤ h.sensitivity.toNat then .drop else .forward B := by
  simp only [filterOne, hdecode, Bool.true_eq_false, if_false]
  rfl

/-- R197: an external node reports a buffer that does not decode. -/
theorem filterOne_true_of_error {mode : PayloadSlice} {B : Bytes} {sub : FormatSub} (hdecode : segDecode mode B = .error sub) :
    filterOne mode B true = .malformed sub := by
  simp only [filterOne, hdecode, Bool.true_eq_false, if_false]

/-- Settles O30. -/
theorem filterDropsProhibitedAtExternalNode : Obligations.FilterDropsProhibitedAtExternalNode := by
  unfold Obligations.FilterDropsProhibitedAtExternalNode
  intro s B
  simp only [exec_segDecode_segment, exec_segDecode_formatError, exec_filterOne]
  refine ⟨by rw [filterOne_false], fun h p hdecode => ?_, fun sub hdecode => ?_⟩
  · rw [filterOne_true_of_ok hdecode]
  · rw [filterOne_true_of_error hdecode]

/-! ### The bytes a verdict depends on -/

/-- R167, R251: SEG_DECODE, its tests in their order. -/
theorem segDecode_eq (mode : PayloadSlice) (B : Bytes) :
    segDecode mode B =
      if B.length < 56 then .error .segLength
      else if B.take 2 ≠ Config.segMagic then .error .segMagic
      else if mode = .explicit ∧ B.length - 56 < (segFields B).payloadLength.toNat then .error .segTruncated
      else .ok (segFields B, if mode = .explicit then (B.drop 56).take (segFields B).payloadLength.toNat else B.drop 56) := by
  unfold segDecode
  cases mode <;> simp [slice, Config.segHdrLen]

/-- R197, R236: the verdict of an external node from the length, the magic, the sensitivity and, under EXPLICIT, the length field. -/
theorem filterOne_true_eq (mode : PayloadSlice) (B : Bytes) :
    filterOne mode B true =
      if B.length < 56 then .malformed .segLength
      else if B.take 2 ≠ Config.segMagic then .malformed .segMagic
      else if mode = .explicit ∧ B.length - 56 < (segFields B).payloadLength.toNat then .malformed .segTruncated
      else if 2 ≤ (byteAt B 14).toNat then .drop
      else .forward B := by
  cases hdecode : segDecode mode B with
  | error sub =>
    rw [filterOne_true_of_error hdecode]
    rw [segDecode_eq] at hdecode
    split_ifs at hdecode ⊢ <;> cases hdecode <;> rfl
  | ok hp =>
    obtain ⟨hB, hmagic, hheader, hexplicit, -⟩ := segDecode_eq_ok hdecode
    have hfits : ¬ (mode = .explicit ∧ B.length - 56 < (segFields B).payloadLength.toNat) :=
      fun ⟨hmode, hlt⟩ => by obtain ⟨hlen, -⟩ := hexplicit hmode; omega
    rw [filterOne_true_of_ok hdecode, hheader, if_neg (not_lt.mpr hB), if_neg (not_not.mpr hmagic), if_neg hfits]
    rfl

/-- Settles O34: at an external node the same test decides for both buffers. -/
theorem filterVerdictReadsListedBytes : Obligations.FilterVerdictReadsListedBytes := by
  unfold Obligations.FilterVerdictReadsListedBytes
  intro s s' B B' ext v v' hmode hlength hmagic hsens hfield hv hv'
  rw [exec_filterOne_verdict] at hv hv'
  rw [hmode] at hv'
  cases ext with
  | false => simp [hv, hv']
  | true =>
    have htrunc : (s.params.payloadSlice = .explicit ∧ B.length - 56 < (segFields B').payloadLength.toNat) ↔
        (s.params.payloadSlice = .explicit ∧ B.length - 56 < (segFields B).payloadLength.toNat) := by
      refine and_congr_right fun hexplicit => ?_
      have hread : (segFields B').payloadLength = (segFields B).payloadLength := read32_congr (hfield hexplicit)
      rw [hread]
    rw [filterOne_true_eq] at hv hv'
    simp only [hlength, hmagic, htrunc, hsens] at hv'
    subst hv hv'
    split_ifs <;> simp

/-! ### ENFORCE -/

/-- R199: ENFORCE is its function. -/
theorem exec_enforce (segs : List Bytes) (ext : Bool) (s : State) :
    exec (.enforce segs ext) s = .next (s.answered (.enforced (enforce s.params.payloadSlice segs ext))) := rfl

/-- R199, R234: what ENFORCE forwards, what it counts as dropped, and that it accounts for every buffer. -/
theorem enforce_spec (mode : PayloadSlice) (segs : List Bytes) (ext : Bool) :
    (enforce mode segs ext).forwarded = segs.filter (fun B => filterOne mode B ext = .forward B) ∧
    (enforce mode segs ext).droppedCount = segs.countP (fun B => filterOne mode B ext = .drop) ∧
    (enforce mode segs ext).forwarded.length + (enforce mode segs ext).droppedCount + (enforce mode segs ext).malformedCount =
      segs.length := by
  simpa [enforce] using enforce_foldl mode ext segs ⟨[], 0, 0⟩

theorem enforce_forwarded (mode : PayloadSlice) (segs : List Bytes) (ext : Bool) :
    (enforce mode segs ext).forwarded = segs.filter fun B => filterOne mode B ext = .forward B :=
  (enforce_spec mode segs ext).1

/-- Settles O31. -/
theorem enforceForwardsExactlyTheSubset : Obligations.EnforceForwardsExactlyTheSubset := by
  unfold Obligations.EnforceForwardsExactlyTheSubset
  exact fun s segs ext => ⟨_, exec_enforce segs ext s, enforce_spec s.params.payloadSlice segs ext⟩

/-- R199: where the forwarded and the dropped buffers are all, none is malformed. -/
theorem enforce_eq_of_total {mode : PayloadSlice} {segs : List Bytes} {ext : Bool} {forwarded : List Bytes} {dropped : Nat}
    (hforwarded : segs.filter (fun B => filterOne mode B ext = .forward B) = forwarded)
    (hdropped : segs.countP (fun B => filterOne mode B ext = .drop) = dropped)
    (hall : forwarded.length + dropped = segs.length) : enforce mode segs ext = ⟨forwarded, dropped, 0⟩ := by
  obtain ⟨hf, hd, htotal⟩ := enforce_spec mode segs ext
  rw [hforwarded] at hf
  rw [hdropped] at hd
  have hmalformed : (enforce mode segs ext).malformedCount = 0 := by
    rw [hf, hd] at htotal
    omega
  rw [← hf, ← hd, ← hmalformed]

/-- R199: ENFORCE of buffers that are dropped, followed by buffers that are forwarded. -/
theorem enforce_append_of_drop_of_forward {mode : PayloadSlice} {before after : List Bytes} {ext : Bool}
    (hdrop : ∀ B ∈ before, filterOne mode B ext = .drop) (hforward : ∀ B ∈ after, filterOne mode B ext = .forward B) :
    enforce mode (before ++ after) ext = ⟨after, before.length, 0⟩ := by
  have hforwarded : (before ++ after).filter (fun B => filterOne mode B ext = .forward B) = after := by
    rw [List.filter_append, List.filter_eq_nil_iff.mpr fun B hB => by simp [hdrop B hB],
      List.filter_eq_self.mpr fun B hB => by simp [hforward B hB], List.nil_append]
  have hdropped : (before ++ after).countP (fun B => filterOne mode B ext = .drop) = before.length := by
    rw [List.countP_append, List.countP_eq_length.mpr fun B hB => by simp [hdrop B hB],
      List.countP_eq_zero.mpr fun B hB => by simp [hforward B hB], Nat.add_zero]
  exact enforce_eq_of_total hforwarded hdropped (by rw [List.length_append, Nat.add_comm])

/-- R199: ENFORCE of buffers that are all forwarded. -/
theorem enforce_of_all_forwarded {mode : PayloadSlice} {segs : List Bytes} {ext : Bool}
    (h : ∀ B ∈ segs, filterOne mode B ext = .forward B) : enforce mode segs ext = ⟨segs, 0, 0⟩ :=
  enforce_append_of_drop_of_forward (before := []) nofun h

/-- R197, R201: an external node decides by byte 14 of a buffer that decodes. -/
theorem filterOne_true_of_decodes {mode : PayloadSlice} {B : Bytes} (hdecode : ∃ h p, segDecode mode B = .ok (h, p)) :
    filterOne mode B true = if (byteAt B 14).toNat < 2 then .forward B else .drop := by
  obtain ⟨h, p, hdecode⟩ := hdecode
  obtain ⟨-, -, rfl, -, -⟩ := segDecode_eq_ok hdecode
  rw [filterOne_true_of_ok hdecode, ← ite_not]
  simp only [not_le]
  rfl

/-- R201: an external hop on buffers that all decode. -/
theorem enforce_true_of_decodes {mode : PayloadSlice} {segs : List Bytes}
    (hdecode : ∀ B ∈ segs, ∃ h p, segDecode mode B = .ok (h, p)) :
    enforce mode segs true =
      ⟨segs.filter (fun B => (byteAt B 14).toNat < 2), segs.countP (fun B => 2 ≤ (byteAt B 14).toNat), 0⟩ := by
  have hforwarded : segs.filter (fun B => filterOne mode B true = .forward B) = segs.filter fun B => (byteAt B 14).toNat < 2 :=
    List.filter_congr fun B hB => decide_eq_decide.mpr (by rw [filterOne_true_of_decodes (hdecode B hB)]; simp)
  have hdropped : segs.countP (fun B => filterOne mode B true = .drop) = segs.countP fun B => 2 ≤ (byteAt B 14).toNat :=
    List.countP_congr fun B hB => by rw [filterOne_true_of_decodes (hdecode B hB)]; simp [Nat.succ_le_iff]
  have hcount := List.length_eq_countP_add_countP (l := segs) fun B => decide ((byteAt B 14).toNat < 2)
  simp only [decide_eq_true_eq, not_lt] at hcount
  exact enforce_eq_of_total hforwarded hdropped (by rw [hcount, ← List.countP_eq_length_filter])

/-- R198: a hop that is not external. -/
theorem enforce_false (mode : PayloadSlice) (segs : List Bytes) : enforce mode segs false = ⟨segs, 0, 0⟩ :=
  enforce_of_all_forwarded fun B _ => filterOne_false mode B

/-- Settles O32. -/
theorem enforceForwardsBelowLegalProhibited : Obligations.EnforceForwardsBelowLegalProhibited := by
  unfold Obligations.EnforceForwardsBelowLegalProhibited
  simp only [exec_segDecode_segment, exec_enforce]
  refine ⟨fun s segs hdecode => ?_, fun s segs => ?_⟩
  · rw [enforce_true_of_decodes hdecode]
  · rw [enforce_false]

/-! ### Chains of hops -/

/-- R200: a hop forwards a subsequence. -/
theorem enforce_forwarded_sublist (mode : PayloadSlice) (segs : List Bytes) (ext : Bool) :
    (enforce mode segs ext).forwarded.Sublist segs := by
  rw [enforce_forwarded]
  exact List.filter_sublist

theorem filterOne_of_mem_forwarded {mode : PayloadSlice} {segs : List Bytes} {ext : Bool} {B : Bytes}
    (hB : B ∈ (enforce mode segs ext).forwarded) : filterOne mode B ext = .forward B := by
  rw [enforce_forwarded] at hB
  simpa using List.of_mem_filter hB

/-- R200: a second hop of the same kind removes nothing more. -/
theorem enforce_forwarded_again (mode : PayloadSlice) (segs : List Bytes) (ext : Bool) :
    enforce mode (enforce mode segs ext).forwarded ext = ⟨(enforce mode segs ext).forwarded, 0, 0⟩ :=
  enforce_of_all_forwarded fun _ => filterOne_of_mem_forwarded

theorem hopChain_append (mode : PayloadSlice) (before after : List Bool) (segs : List Bytes) :
    hopChain mode (before ++ after) segs = hopChain mode after (hopChain mode before segs) := List.foldl_append

theorem hopChain_cons (mode : PayloadSlice) (ext : Bool) (hops : List Bool) (segs : List Bytes) :
    hopChain mode (ext :: hops) segs = hopChain mode hops (enforce mode segs ext).forwarded := rfl

/-- R200: a chain of hops forwards a subsequence. -/
theorem hopChain_sublist (mode : PayloadSlice) (hops : List Bool) (segs : List Bytes) :
    (hopChain mode hops segs).Sublist segs := by
  induction hops generalizing segs with
  | nil => exact .refl segs
  | cons ext hops ih =>
    rw [hopChain_cons]
    exact (ih _).trans (enforce_forwarded_sublist mode segs ext)

/-- R200: what is left after a chain with an external hop in it is forwarded at an external node. -/
theorem filterOne_true_of_mem_hopChain {mode : PayloadSlice} {before after : List Bool} {segs : List Bytes} {B : Bytes}
    (hB : B ∈ hopChain mode (before ++ true :: after) segs) : filterOne mode B true = .forward B := by
  rw [hopChain_append, hopChain_cons] at hB
  exact filterOne_of_mem_forwarded ((hopChain_sublist mode after _).subset hB)

/-- R197: a buffer that decodes and is forwarded at an external node has sensitivity below LegalProhibited. -/
theorem sensitivity_lt_of_filterOne_true {mode : PayloadSlice} {B : Bytes} {h : SegmentHeader} {p : Bytes}
    (hdecode : segDecode mode B = .ok (h, p)) (hforward : filterOne mode B true = .forward B) : h.sensitivity.toNat < 2 := by
  rw [filterOne_true_of_ok hdecode] at hforward
  by_contra hn
  simp [not_lt.mp hn] at hforward

/-- Settles O33. -/
theorem externalHopIsMonotoneAndIdempotent : Obligations.ExternalHopIsMonotoneAndIdempotent := by
  unfold Obligations.ExternalHopIsMonotoneAndIdempotent
  constructor
  · intro s segs ext
    refine ⟨_, exec_enforce segs ext s, enforce_forwarded_sublist .., ?_⟩
    rintro rfl
    rw [exec_enforce, enforce_forwarded_again]
  · intro s segs before after B hB h p hdecode
    rw [exec_segDecode_segment] at hdecode
    exact sensitivity_lt_of_filterOne_true hdecode (filterOne_true_of_mem_hopChain hB)

end Sys2Proof.Machine
end

section
/-! A partial transfer in a reassembly (spec/43_segmenter_filter.md R192, R200; spec/44_reassembly.md R220 to R224). -/

namespace Sys2Proof.Machine

/-! ### The stable sort of entries -/

/-- R212: the sort is determined by the entries of each number in their order. -/
theorem sortEntries_congr {es es' : List Entry}
    (h : ∀ q : U32, es.filter (fun e => e.seqNum = q) = es'.filter (fun e => e.seqNum = q)) : sortEntries es = sortEntries es' :=
  sorted_ext _ _ (sortEntries_sorted es) (sortEntries_sorted es') fun q => by rw [sortEntries_filter, sortEntries_filter, h]

theorem sortEntries_of_sorted {es : List Entry} (h : Sorted es) : sortEntries es = es :=
  h.insertionSort_eq

/-- R218: an entry inserted before others arrive sorts like one appended before them. -/
theorem sortEntries_insert_append (r : Rsm) (hsorted : Sorted r.entries) (e : Entry) (es : List Entry) :
    sortEntries ((r.insert e).entries ++ es) = sortEntries (r.entries ++ e :: es) :=
  sortEntries_congr fun q => by
    rw [List.filter_append, Rsm.insert_filter r e hsorted, List.filter_append, List.filter_cons]
    by_cases hq : e.seqNum = q <;> simp [hq]

/-! ### Sound segments -/

/-- R215: a buffer that decodes and whose payload has its checksum as digest. -/
def IsSound (p : Params) (B : Bytes) : Prop :=
  ∃ h payload, segDecode p.payloadSlice B = .ok (h, payload) ∧ digestVerify p.digest payload h.checksum = true

theorem soundEntries_cons {mode : PayloadSlice} {d : DigestChoice} {B : Bytes} {h : SegmentHeader} {payload : Bytes}
    (hdecode : segDecode mode B = .ok (h, payload)) (hverify : digestVerify d payload h.checksum = true) (segs : List Bytes) :
    soundEntries mode d (B :: segs) = ⟨h.seqNum, payload⟩ :: soundEntries mode d segs :=
  List.filterMap_cons_some (by simp only [hdecode, hverify, if_true])

/-- R35: once `rsm.expected` is set, later buffers leave it. -/
theorem Rsm.expect_of_some {r : Rsm} {n : U32} (h : r.expected = some n) (total : U32) : r.expect total = r := by
  simp only [Rsm.expect, h]

/-- R215, R218: pushes of sound segments at unbounded capacity sort them into the store. -/
theorem pushAll_of_sound {p : Params} (hcap : p.unbounded) {segs : List Bytes} (hsound : ∀ B ∈ segs, IsSound p B) {r : Rsm} {n : U32}
    (hphase : r.phase = .collecting) (hexpected : r.expected = some n) (hsorted : Sorted r.entries) :
    pushAll p r segs =
      ({ r with entries := sortEntries (r.entries ++ soundEntries p.payloadSlice p.digest segs) }, false) := by
  induction segs generalizing r with
  | nil => rw [soundEntries, List.filterMap_nil, List.append_nil, sortEntries_of_sorted hsorted, pushAll]
  | cons B segs ih =>
    obtain ⟨⟨h, payload, hdecode, hverify⟩, hrest⟩ := List.forall_mem_cons.mp hsound
    have hpush := rsmPush_of_sound hphase hdecode hverify (Rsm.overCapacity_unbounded hcap.1 hcap.2 r payload)
    rw [pushAll_cons, hpush, if_neg nofun, Rsm.expect_of_some hexpected, soundEntries_cons hdecode hverify,
      ← sortEntries_insert_append r hsorted]
    exact ih hrest hphase hexpected (Rsm.insert_sorted r _ hsorted)

/-- R220 to R223: sound segments at unbounded capacity reassemble in the order of their numbers, with the total of the first. -/
theorem reassemble_of_sound {p : Params} (hcap : p.unbounded) {B : Bytes} {segs : List Bytes} {h : SegmentHeader} {payload : Bytes}
    (hdecode : segDecode p.payloadSlice B = .ok (h, payload)) (hsound : ∀ C ∈ B :: segs, IsSound p C) :
    reassemble p (B :: segs) = (Rsm.reset,
      .reassembled (reassembledOf h.totalSegments (sortEntries (soundEntries p.payloadSlice p.digest (B :: segs))) 0)) := by
  obtain ⟨⟨h', payload', hdecode', hverify⟩, hrest⟩ := List.forall_mem_cons.mp hsound
  obtain ⟨rfl, rfl⟩ := Prod.mk.inj (Except.ok.inj (hdecode'.symm.trans hdecode))
  have hpush := rsmPush_of_sound Rsm.started_phase hdecode hverify (Rsm.overCapacity_unbounded hcap.1 hcap.2 Rsm.started payload')
  have hfirst : pushAll p Rsm.started (B :: segs) =
      pushAll p ((Rsm.started.expect h'.totalSegments).insert ⟨h'.seqNum, payload'⟩) segs := by
    rw [pushAll_cons, hpush, if_neg nofun]
  have hpushes := pushAll_of_sound hcap hrest (r := (Rsm.started.expect h'.totalSegments).insert ⟨h'.seqNum, payload'⟩) rfl rfl
    (List.pairwise_singleton _ _)
  rw [reassemble_eq, hfirst, hpushes, if_neg nofun, soundEntries_cons hdecode hverify]
  rfl

/-! ### Some segments of a SPLIT -/

/-- R193: the entry that segment `i` of a SPLIT becomes. -/
def chunkEntry (data : Bytes) (S i : Nat) : Entry := ⟨BitVec.ofNat 32 i, chunkOf data S i⟩

theorem isSound_splitSegment (p : Params) {data : Bytes} {S : Nat} (haccepts : SplitAccepts data S) (policyId segmentId : U32)
    (n i : Nat) : IsSound p (splitSegment p.digest data S policyId segmentId n i) :=
  ⟨_, _, segDecode_splitSegment _ _ haccepts policyId segmentId n i, (digestVerify_iff ..).mpr rfl⟩

theorem soundEntries_map_splitSegment (mode : PayloadSlice) (d : DigestChoice) {data : Bytes} {S : Nat}
    (haccepts : SplitAccepts data S) (policyId segmentId : U32) (n : Nat) (is : List Nat) :
    soundEntries mode d (is.map (splitSegment d data S policyId segmentId n)) = is.map (chunkEntry data S) := by
  induction is with
  | nil => rfl
  | cons i is ih =>
    have hdecode := segDecode_splitSegment mode d haccepts policyId segmentId n i
    rw [List.map_cons, soundEntries_cons hdecode ((digestVerify_iff ..).mpr rfl), ih]
    rfl

theorem ofNat_lt_ofNat {i j : Nat} (hij : i < j) (hj : j < 2 ^ 32) : BitVec.ofNat 32 i < BitVec.ofNat 32 j := by
  rwa [BitVec.lt_def, BitVec.toNat_ofNat, BitVec.toNat_ofNat, Nat.mod_eq_of_lt (hij.trans hj), Nat.mod_eq_of_lt hj]

/-- The numbers of some segments in order ascend: they are numbers of at most 32 bits. -/
theorem pairwise_ofNat_lt {n : Nat} (hn : n < 2 ^ 32) {is : List Nat} (his : is.Sublist (List.range n)) :
    (is.map (BitVec.ofNat 32)).Pairwise (· < ·) := by
  have hlt : is.Pairwise (· < ·) := List.pairwise_lt_range.sublist his
  refine List.pairwise_map.mpr (hlt.imp_of_mem fun {i j} _ hj hij => ofNat_lt_ofNat hij ?_)
  exact (List.mem_range.mp (his.subset hj)).trans hn

/-- R223: the warning against a total that fits its field. -/
theorem gapWarning_ofNat {n : Nat} (hn : n < 2 ^ 32) (got : Nat) :
    gapWarning (BitVec.ofNat 32 n) got = if got < n then some ⟨BitVec.ofNat 32 n, got⟩ else none := by
  rw [gapWarning, BitVec.toNat_ofNat, Nat.mod_eq_of_lt hn]

/-- R217, R223: what a reassembly that ends with the entries of some segments in order returns. -/
theorem reassembledOf_chunkEntries (data : Bytes) (S : Nat) {n : Nat} (hn : n < 2 ^ 32) {is : List Nat}
    (his : is.Sublist (List.range n)) :
    reassembledOf (BitVec.ofNat 32 n) (is.map (chunkEntry data S)) 0 =
      ⟨(is.map (chunkOf data S)).flatten, if is.length < n then some ⟨BitVec.ofNat 32 n, is.length⟩ else none, 0⟩ := by
  have hpayloads : (is.map (chunkEntry data S)).map Entry.payload = is.map (chunkOf data S) := List.map_map
  have hnumbers : (is.map (chunkEntry data S)).map Entry.seqNum = is.map (BitVec.ofNat 32) := List.map_map
  have hnodup := (pairwise_ofNat_lt hn his).imp BitVec.ne_of_lt
  rw [reassembledOf, hpayloads, hnumbers, distinctCount_nodup hnodup, List.length_map, gapWarning_ofNat hn]

/-- R221 to R224: some segments of a SPLIT, in order and at least one, in an instance of the same digest and unbounded capacity. -/
theorem reassemble_map_splitSegment {p : Params} (hcap : p.unbounded) {data : Bytes} {S : Nat} (haccepts : SplitAccepts data S)
    (policyId segmentId : U32) {n : Nat} (hn : n < 2 ^ 32) {is : List Nat} (his : is.Sublist (List.range n)) (hne : is ≠ []) :
    reassemble p (is.map (splitSegment p.digest data S policyId segmentId n)) = (Rsm.reset, .reassembled
      ⟨(is.map (chunkOf data S)).flatten, if is.length < n then some ⟨BitVec.ofNat 32 n, is.length⟩ else none, 0⟩) := by
  have hsorted : Sorted (is.map (chunkEntry data S)) :=
    List.pairwise_map.mpr ((List.pairwise_map.mp (pairwise_ofNat_lt hn his)).imp BitVec.le_of_lt)
  have hsound : ∀ C ∈ is.map (splitSegment p.digest data S policyId segmentId n), IsSound p C :=
    List.forall_mem_map.mpr fun j _ => isSound_splitSegment p haccepts policyId segmentId n j
  have hresult := reassembledOf_chunkEntries data S hn his
  have hentries := soundEntries_map_splitSegment p.payloadSlice p.digest haccepts policyId segmentId n is
  cases is with
  | nil => exact absurd rfl hne
  | cons i is =>
    have hdecode := segDecode_splitSegment p.payloadSlice p.digest haccepts policyId segmentId n i
    have hreassemble := reassemble_of_sound hcap hdecode hsound
    rw [← List.map_cons, hentries, sortEntries_of_sorted hsorted] at hreassemble
    rw [hreassemble, ← hresult]
    rfl

/-- R103: the payload of a segment of a SPLIT is what follows its header. -/
theorem drop_splitSegment (d : DigestChoice) (data : Bytes) (S : Nat) (policyId segmentId : U32) (n i : Nat) :
    (splitSegment d data S policyId segmentId n i).drop 56 = chunkOf data S i := by
  obtain ⟨hsplit, hlength⟩ := segBuild_split d segmentId (BitVec.ofNat 32 i) (BitVec.ofNat 32 n) (segTag (i * S)).1
    (segTag (i * S)).2 policyId (chunkOf data S i)
  rw [splitSegment, ← hsplit]
  exact List.drop_left' hlength

/-- R103: the payloads of some segments of a SPLIT are their chunks. -/
theorem map_drop_splitSegment (d : DigestChoice) (data : Bytes) (S : Nat) (policyId segmentId : U32) (n : Nat) (is : List Nat) :
    (is.map (splitSegment d data S policyId segmentId n)).map (fun B => B.drop 56) = is.map (chunkOf data S) := by
  rw [List.map_map]
  exact List.map_congr_left fun i _ => drop_splitSegment d data S policyId segmentId n i

/-- R224: a partial transfer, said of the segments themselves. -/
theorem reassemble_of_sublist_splitList {p : Params} (hcap : p.unbounded) {data : Bytes} {S : Nat} (haccepts : SplitAccepts data S)
    (policyId segmentId : U32) {kept : List Bytes} (hkept : kept.Sublist (splitList p.digest data S policyId segmentId))
    (hne : kept ≠ []) :
    reassemble p kept = (Rsm.reset, .reassembled ⟨(kept.map fun B => B.drop 56).flatten,
      if kept.length < ceilDiv data.length S then some ⟨BitVec.ofNat 32 (ceilDiv data.length S), kept.length⟩ else none, 0⟩) := by
  obtain ⟨is, his, rfl⟩ := List.sublist_map_iff.mp hkept
  rw [map_drop_splitSegment, List.length_map]
  exact reassemble_map_splitSegment hcap haccepts policyId segmentId haccepts.ceilDiv_lt his fun hnil => hne (by rw [hnil, List.map_nil])

/-! ### What a gap loses -/

/-- The payloads of a SPLIT, read from its segments, are the data. -/
theorem flatten_map_drop_splitList (d : DigestChoice) {data : Bytes} {S : Nat} (haccepts : SplitAccepts data S)
    (policyId segmentId : U32) : ((splitList d data S policyId segmentId).map fun B => B.drop 56).flatten = data := by
  rw [splitList, map_drop_splitSegment, haccepts.chunks_flatten_eq]

/-- Leaving out a list of a list of non-empty lists leaves out at least an element of their concatenation. -/
theorem flatten_length_lt_of_sublist {α : Type} {l l' : List (List α)} (hsub : l.Sublist l') (hlength : l.length < l'.length)
    (hpos : ∀ x ∈ l', x ≠ []) : l.flatten.length < l'.flatten.length := by
  induction hsub with
  | slnil => exact absurd hlength (lt_irrefl 0)
  | @cons l l' x hsub _ =>
    have hx : 0 < x.length := List.length_pos_of_ne_nil (hpos x List.mem_cons_self)
    have hle : l.flatten.length ≤ l'.flatten.length := hsub.flatten.length_le
    rw [List.flatten_cons, List.length_append]
    omega
  | @cons_cons l l' x hsub ih =>
    have hrest := ih (Nat.lt_of_succ_lt_succ hlength) fun y hy => hpos y (List.mem_cons_of_mem x hy)
    rw [List.flatten_cons, List.flatten_cons, List.length_append, List.length_append]
    exact Nat.add_lt_add_left hrest _

/-- R193: no chunk of a SPLIT is empty. -/
theorem chunkOf_ne_nil {data : Bytes} {S : Nat} (hS : 0 < S) {i : Nat} (hi : i < ceilDiv data.length S) : chunkOf data S i ≠ [] := by
  have hstart : i * S < data.length := by
    rwa [← not_le, ← ceilDiv_le_iff _ _ _ hS, not_le]
  refine List.ne_nil_of_length_pos ?_
  rw [chunkOf_length]
  omega

/-- R224: a partial transfer with a gap is shorter than the data. -/
theorem payloads_length_lt_of_gap (d : DigestChoice) {data : Bytes} {S : Nat} (haccepts : SplitAccepts data S)
    (policyId segmentId : U32) {kept : List Bytes} (hkept : kept.Sublist (splitList d data S policyId segmentId))
    (hgap : kept.length < ceilDiv data.length S) : (kept.map fun B => B.drop 56).flatten.length < data.length := by
  obtain ⟨is, his, rfl⟩ := List.sublist_map_iff.mp hkept
  have hlt := flatten_length_lt_of_sublist (his.map (chunkOf data S)) (by simpa using hgap)
    (List.forall_mem_map.mpr fun i hi => chunkOf_ne_nil haccepts.size_pos (List.mem_range.mp hi))
  rwa [haccepts.chunks_flatten_eq, ← map_drop_splitSegment d data S policyId segmentId] at hlt

/-! ### After an external hop -/

/-- R192, R197: an external node drops the segments of a SPLIT that start below byte 131072. -/
theorem filterOne_splitSegment (mode : PayloadSlice) (d : DigestChoice) {data : Bytes} {S : Nat} (haccepts : SplitAccepts data S)
    (policyId segmentId : U32) (n i : Nat) :
    filterOne mode (splitSegment d data S policyId segmentId n i) true =
      if i * S < 131072 then .drop else .forward (splitSegment d data S policyId segmentId n i) := by
  rw [filterOne_true_of_ok (segDecode_splitSegment mode d haccepts policyId segmentId n i), splitHeader]
  split <;> rfl

/-- R192, R200: an external hop drops the first `k` segments of a SPLIT, with `k` the least number that reaches byte 131072. -/
theorem enforce_splitList (mode : PayloadSlice) (d : DigestChoice) {data : Bytes} {S : Nat} (haccepts : SplitAccepts data S)
    (policyId segmentId : U32) {k : Nat} (hcover : 131072 ≤ k * S) (hleast : ∀ m, 131072 ≤ m * S → k ≤ m) :
    enforce mode (splitList d data S policyId segmentId) true =
      ⟨(splitList d data S policyId segmentId).drop k, min k (ceilDiv data.length S), 0⟩ := by
  have hdrop : ∀ B ∈ (splitList d data S policyId segmentId).take k, filterOne mode B true = .drop := by
    rw [splitList, ← List.map_take, List.take_range]
    refine List.forall_mem_map.mpr fun i hi => ?_
    have hik : i < k := (List.mem_range.mp hi).trans_le (min_le_left _ _)
    rw [filterOne_splitSegment mode d haccepts, if_pos ((mul_lt_iff_lt_of_least hcover hleast i).mpr hik)]
  have hforward : ∀ B ∈ (splitList d data S policyId segmentId).drop k, filterOne mode B true = .forward B := by
    rw [splitList, ← List.map_drop, List.range_eq_range', List.drop_range']
    refine List.forall_mem_map.mpr fun i hi => ?_
    obtain ⟨hki, -⟩ := List.mem_range'_1.mp hi
    rw [Nat.zero_add, Nat.mul_one] at hki
    rw [filterOne_splitSegment mode d haccepts, if_neg (mt (mul_lt_iff_lt_of_least hcover hleast i).mp (not_lt.mpr hki))]
  have henforce := enforce_append_of_drop_of_forward hdrop hforward
  rwa [List.take_append_drop, List.length_take, splitList_length] at henforce

/-- R224: without its first `k` segments a SPLIT carries the data without its first `k` chunks. -/
theorem flatten_map_drop_drop_splitList (d : DigestChoice) {data : Bytes} {S : Nat} (haccepts : SplitAccepts data S)
    (policyId segmentId : U32) {k : Nat} (hk : k ≤ ceilDiv data.length S) :
    (((splitList d data S policyId segmentId).drop k).map fun B => B.drop 56).flatten = data.drop (k * S) := by
  have hall := flatten_map_drop_splitList d haccepts policyId segmentId
  have hfirst : (((splitList d data S policyId segmentId).take k).map fun B => B.drop 56).flatten = data.take (k * S) := by
    rw [splitList, ← List.map_take, List.take_range, min_eq_left hk, map_drop_splitSegment, chunks_flatten]
  rw [← List.take_append_drop k (splitList d data S policyId segmentId), List.map_append, List.flatten_append, hfirst] at hall
  exact List.append_cancel_left (hall.trans (List.take_append_drop (k * S) data).symm)

theorem reassemble_nil (p : Params) : reassemble p [] = (Rsm.reset, .emptyInput) := rfl

/-- Settles O49. -/
theorem partialTransferCollapsesGaps : Obligations.PartialTransferCollapsesGaps := by
  unfold Obligations.PartialTransferCollapsesGaps
  refine ⟨?partialTransfer, ?someLeft, ?noneLeft⟩
  case partialTransfer =>
    intro s t data S policyId segmentId l kept hsplit hkept hne hdigest hcap
    obtain ⟨haccepts, rfl⟩ := (exec_split_segments ..).mp hsplit
    rw [splitList_length]
    refine ⟨_, ?_, rfl, payloads_length_lt_of_gap _ haccepts policyId segmentId hkept⟩
    rw [← hdigest] at hkept
    rw [exec_reassemble, reassemble_of_sublist_splitList hcap haccepts policyId segmentId hkept hne]
    rfl
  case someLeft =>
    intro s t data S policyId segmentId l k hsplit hcover hleast hk hdigest hcap
    obtain ⟨haccepts, rfl⟩ := (exec_split_segments ..).mp hsplit
    have hlength := splitList_length s.params.digest data S policyId segmentId
    rw [hlength] at hk ⊢
    refine ⟨(splitList s.params.digest data S policyId segmentId).drop k, ?_, ?_⟩
    · rw [exec_enforce, enforce_splitList _ _ haccepts policyId segmentId hcover hleast, min_eq_left hk.le]
    · have hk0 : 0 < k := Nat.pos_of_ne_zero fun h => by simp [h] at hcover
      have hne : (splitList s.params.digest data S policyId segmentId).drop k ≠ [] :=
        mt List.drop_eq_nil_iff.mp (not_le.mpr (hlength.symm ▸ hk))
      have hpayloads := flatten_map_drop_drop_splitList s.params.digest haccepts policyId segmentId hk.le
      rw [← hdigest] at hlength hne hpayloads ⊢
      rw [exec_reassemble, reassemble_of_sublist_splitList hcap haccepts policyId segmentId (List.drop_sublist _ _) hne,
        hpayloads, List.length_drop, hlength, if_pos (by omega)]
      rfl
  case noneLeft =>
    intro s t data S policyId segmentId l k hsplit hcover hleast hk
    obtain ⟨haccepts, rfl⟩ := (exec_split_segments ..).mp hsplit
    have hnone := List.drop_eq_nil_of_le hk
    rw [splitList_length] at hk ⊢
    refine ⟨?_, ?_⟩
    · rw [exec_enforce, enforce_splitList _ _ haccepts policyId segmentId hcover hleast, hnone, min_eq_right hk]
    · rw [exec_reassemble, reassemble_nil]
      rfl

end Sys2Proof.Machine
end

section
/-! The reassembly store row by row (spec/44_reassembly.md R213 to R219, R222, R223, R227): what one push and one finish do in each
state. -/

namespace Sys2Proof.Machine

/-! ### Capacity -/

theorem exceeds_eq_false_iff (n : Nat) (bound : Option Nat) : exceeds n bound = false ↔ ∀ m, bound = some m → n ≤ m := by
  cases bound <;> simp

theorem exceeds_eq_true_iff (n : Nat) (bound : Option Nat) : exceeds n bound = true ↔ ∃ m, bound = some m ∧ m < n := by
  cases bound <;> simp

/-- R219: one more payload is within both capacity parameters. -/
theorem Rsm.overCapacity_of_within {p : Params} {r : Rsm} {payload : Bytes}
    (hsegments : ∀ m, p.maxSegments = some m → r.entries.length + 1 ≤ m)
    (hbytes : ∀ m, p.maxBytes = some m → payloadBytes r.entries + payload.length ≤ m) : r.overCapacity p payload = false :=
  (r.overCapacity_eq_false_iff p payload).mpr ⟨(exceeds_eq_false_iff ..).mpr hsegments, (exceeds_eq_false_iff ..).mpr hbytes⟩

/-- R219: one more payload is above one of them. -/
theorem Rsm.overCapacity_of_above {p : Params} {r : Rsm} {payload : Bytes}
    (habove : (∃ m, p.maxSegments = some m ∧ m < r.entries.length + 1) ∨
      ∃ m, p.maxBytes = some m ∧ m < payloadBytes r.entries + payload.length) : r.overCapacity p payload = true := by
  rw [Rsm.overCapacity, Bool.or_eq_true, exceeds_eq_true_iff, exceeds_eq_true_iff]
  exact habove

/-! ### The fields that a push writes -/

/-- R35: what setting `rsm.expected` leaves. -/
theorem Rsm.expect_eq (r : Rsm) (total : U32) : r.expect total = { r with expected := some (r.expected.getD total) } := by
  obtain ⟨phase, expected, entries, skipped⟩ := r
  cases expected <;> rfl

/-- R36: the entries not above a number, counted. -/
theorem Rsm.insert_eq (r : Rsm) (e : Entry) :
    r.insert e = ⟨r.phase, r.expected, r.entries.take (r.entries.countP fun x => x.seqNum.toNat ≤ e.seqNum.toNat) ++ e ::
      r.entries.drop (r.entries.countP fun x => x.seqNum.toNat ≤ e.seqNum.toNat), r.skipped⟩ := by
  simp only [Rsm.insert, List.append_assoc, List.singleton_append, List.countP_eq_length_filter, BitVec.le_def]

/-! ### RSM_PUSH -/

theorem rsmPush_of_idle (p : Params) {r : Rsm} (hphase : r.phase = .idle) (B : Bytes) :
    rsmPush p r B = (r, .refused .rsmNotStarted) := by
  simp [rsmPush, hphase]

/-- R215: a buffer that is no segment is latched as a FormatError, under either policy. -/
theorem rsmPush_of_formatError {p : Params} {r : Rsm} {B : Bytes} {sub : FormatSub} (hphase : r.phase = .collecting)
    (hdecode : segDecode p.payloadSlice B = .error sub) : rsmPush p r B = (r.fail (.format sub), .formatError sub) := by
  simp [rsmPush, hphase, hdecode]

/-- R219: a sound segment above capacity is refused before any state is written. -/
theorem rsmPush_of_overCapacity {p : Params} {r : Rsm} {B : Bytes} {h : SegmentHeader} {payload : Bytes}
    (hphase : r.phase = .collecting) (hdecode : segDecode p.payloadSlice B = .ok (h, payload))
    (hverify : digestVerify p.digest payload h.checksum = true) (hcap : r.overCapacity p payload = true) :
    rsmPush p r B = (r, .refused .rsmCapacity) := by
  simp [rsmPush, hphase, hdecode, hverify, hcap]

/-- R216: a segment that fails its digest is counted under SKIP. -/
theorem rsmPush_of_skipped {p : Params} {r : Rsm} {B : Bytes} {h : SegmentHeader} {payload : Bytes} (hpolicy : p.corruptPolicy = .skip)
    (hphase : r.phase = .collecting) (hdecode : segDecode p.payloadSlice B = .ok (h, payload))
    (hverify : digestVerify p.digest payload h.checksum = false) :
    rsmPush p r B = ({ r.expect h.totalSegments with skipped := r.skipped + 1 }, .skipped) := by
  simp [rsmPush, hphase, hdecode, hverify, hpolicy]

/-- R215, R222: what a push reads of a buffer that decodes. -/
theorem rsmPush_congr {p : Params} {r : Rsm} {B B' : Bytes} {h h' : SegmentHeader} {payload : Bytes}
    (hdecode : segDecode p.payloadSlice B = .ok (h, payload)) (hdecode' : segDecode p.payloadSlice B' = .ok (h', payload))
    (hseqNum : h'.seqNum = h.seqNum)
    (hverify : digestVerify p.digest payload h'.checksum = digestVerify p.digest payload h.checksum)
    (hexpect : r.expect h'.totalSegments = r.expect h.totalSegments) : rsmPush p r B' = rsmPush p r B := by
  simp only [rsmPush, hdecode, hdecode', hseqNum, hverify, hexpect]

/-- R215: a push that answers `Ok` has inserted the segment that its buffer decodes to. -/
theorem decoded_of_rsmPush_ok {p : Params} {r : Rsm} {B : Bytes} (hok : (rsmPush p r B).2 = .ok) :
    ∃ h payload, segDecode p.payloadSlice B = .ok (h, payload) ∧
      rsmPush p r B = ((r.expect h.totalSegments).insert ⟨h.seqNum, payload⟩, .ok) := by
  obtain ⟨-, e⟩ | ⟨error, -, e⟩ | ⟨_, -, -, e⟩ | ⟨_, _, -, -, -, -, e⟩ | ⟨h, payload, -, hdecode, -, -, e⟩ |
    ⟨_, _, -, -, -, -, e⟩ | ⟨_, _, -, -, -, -, e⟩ := rsmPush_cases p r B
  case inr.inr.inr.inr.inl => exact ⟨h, payload, hdecode, e⟩
  case inr.inl => cases error <;> simp [e, RsmError.result] at hok
  all_goals simp [e] at hok

/-! ### RSM_FINISH -/

theorem rsmFinish_of_idle {r : Rsm} (hphase : r.phase = .idle) : rsmFinish r = (r, .refused .rsmNotStarted) := by
  simp [rsmFinish, hphase]

/-- R217, R246: no buffer has decoded. -/
theorem rsmFinish_of_nothing_pushed {r : Rsm} (hphase : r.phase = .collecting) (hexpected : r.expected = none) :
    rsmFinish r = ({ r with phase := .idle }, .emptyInput) := by
  simp [rsmFinish, hphase, hexpected]

/-- R217: a buffer has decoded. -/
theorem rsmFinish_of_expected {r : Rsm} {n : U32} (hphase : r.phase = .collecting) (hexpected : r.expected = some n) :
    rsmFinish r = (Rsm.reset, .reassembled (reassembledOf n r.entries r.skipped)) := by
  simp [rsmFinish, hphase, hexpected]

/-- R217, R223: the result of a finish, with its distinct numbers as a set. -/
theorem reassembled_eq_finishedWith (n : U32) (es : List Entry) (skipped : Nat) :
    Result.reassembled (reassembledOf n es skipped) = finishedWith n es skipped := by
  rw [reassembledOf, gapWarning, distinctCount_eq_card]

/-- R217, R254: RSM_FINISH of a reassembly leaves the store empty and IDLE, whether by clearing it or because it held nothing. -/
theorem rsmFinish_eq_reset {p : Params} {r : Rsm} (hr : r.Inv p) (hphase : r.phase ≠ .idle) : (rsmFinish r).1 = Rsm.reset := by
  obtain ⟨hidle, -⟩ | ⟨e, hfailed, hfinish⟩ | ⟨hcollecting, hexpected, hfinish⟩ | ⟨_, -, -, hfinish⟩ := rsmFinish_cases r
  · exact absurd hidle hphase
  · rw [hfinish, Rsm.release, hr.failed_empty e hfailed]
    rfl
  · obtain ⟨hentries, hskipped⟩ := hr.nothing_pushed hcollecting hexpected
    rw [hfinish, hexpected, hentries, hskipped]
    rfl
  · rw [hfinish]

/-! ### With no reassembly started -/

theorem exec_rsmPush_of_idle {s : State} (hphase : s.rsm.phase = .idle) (B : Bytes) :
    exec (.rsmPush B) s = .next (s.answered (.refused .rsmNotStarted)) := by
  rw [exec_rsmPush, rsmPush_of_idle _ hphase]

theorem exec_rsmFinish_of_idle {s : State} (hphase : s.rsm.phase = .idle) :
    exec .rsmFinish s = .next (s.answered (.refused .rsmNotStarted)) := by
  rw [exec_rsmFinish, rsmFinish_of_idle hphase]

/-! ### The obligations on single operations -/

/-- Settles O35, a row of the table after another. -/
theorem storeTransitionsAreTheTable : Obligations.StoreTransitionsAreTheTable := by
  unfold Obligations.StoreTransitionsAreTheTable
  intro s
  simp only [exec_segDecode_segment, exec_segDecode_formatError, exec_digestVerify_bool]
  refine ⟨fun rest hinbox => ⟨_, step_of_reset hinbox, rfl⟩, exec_rsmStart s,
    fun hphase => ⟨exec_rsmPush_of_idle hphase, exec_rsmFinish_of_idle hphase⟩,
    fun hphase B => ⟨fun h p hdecode => ⟨fun hverify hsegments hbytes => ?accepted, fun hverify habove => ?refused,
      fun hverify hpolicy => ?skipped, fun hverify hpolicy => ?corrupted⟩, fun sub hdecode => ?format⟩,
    fun e hphase B => ?pushFailed, fun hr hphase => ⟨(rsmFinish s.rsm).2, ?finish⟩⟩
  case accepted =>
    rw [exec_rsmPush, rsmPush_of_sound hphase hdecode hverify (Rsm.overCapacity_of_within hsegments hbytes), Rsm.expect_eq, hphase]
    exact ⟨_, rfl⟩
  case refused => rw [exec_rsmPush, rsmPush_of_overCapacity hphase hdecode hverify (Rsm.overCapacity_of_above habove)]
  case skipped => rw [exec_rsmPush, rsmPush_of_skipped hpolicy hphase hdecode hverify, Rsm.expect_eq, hphase]
  case corrupted =>
    rw [exec_rsmPush, rsmPush_of_corrupted hpolicy hphase hdecode hverify, Rsm.expect_eq]
    rfl
  case format =>
    rw [exec_rsmPush, rsmPush_of_formatError hphase hdecode]
    rfl
  case pushFailed =>
    rw [exec_rsmPush, rsmPush_of_failed _ hphase]
    cases e <;> rfl
  case finish =>
    rw [exec_rsmFinish, rsmFinish_eq_reset hr hphase]
    rfl

/-- Settles O36. A push that answers `Ok` in COLLECTING is one that inserts. -/
theorem pushIsStableInsertion : Obligations.PushIsStableInsertion := by
  unfold Obligations.PushIsStableInsertion
  intro s t B h p hr hphase hdecode hpush hok
  rw [exec_segDecode_segment] at hdecode
  obtain rfl := Host.Outcome.next.inj ((exec_rsmPush B s).symm.trans hpush)
  obtain ⟨h', payload, hdecode', hinsert⟩ := decoded_of_rsmPush_ok (Option.some.inj hok)
  obtain ⟨rfl, rfl⟩ := Prod.mk.inj (Except.ok.inj (hdecode'.symm.trans hdecode))
  have hsorted : Sorted (s.rsm.expect h'.totalSegments).entries := by
    rw [Rsm.expect_entries]
    exact hr.sorted
  simp only [hinsert]
  refine ⟨Rsm.insert_sorted _ _ hsorted, fun q => ?_, s.rsm.expected.getD h'.totalSegments, ?_, ?_⟩
  · rw [Rsm.insert_filter _ _ hsorted, Rsm.expect_entries]
  · rw [Rsm.insert_expected, Rsm.expect_expected]
  · rw [exec_rsmFinish, rsmFinish_of_expected (by rw [Rsm.insert_phase, Rsm.expect_phase, hphase])
      (by rw [Rsm.insert_expected, Rsm.expect_expected]), reassembled_eq_finishedWith]
    rfl

/-- Settles O37. -/
theorem pushAcceptsAnyEncodedSegment : Obligations.PushAcceptsAnyEncodedSegment := by
  unfold Obligations.PushAcceptsAnyEncodedSegment
  intro s h p hphase hp hsegments hbytes
  have hdecode := segDecode_segBuild s.params.payloadSlice s.params.digest h.segmentId h.seqNum h.totalSegments h.sensitivity h.opHint
    h.policyId p hp
  have hpush := rsmPush_of_sound hphase hdecode ((digestVerify_iff ..).mpr rfl) (Rsm.overCapacity_of_within hsegments hbytes)
  rw [exec_rsmPush, hpush, Rsm.insert_eq, Rsm.expect_eq, hphase]

/-- Settles O38. -/
theorem finishReportsDataAndGap : Obligations.FinishReportsDataAndGap := by
  unfold Obligations.FinishReportsDataAndGap
  refine fun s => ⟨fun hphase hexpected => ⟨_, exec_rsmFinish s, ?nothingPushed⟩, fun n hphase hexpected => ?completed,
    fun e hphase => ⟨_, exec_rsmFinish s, ?failed⟩⟩
  case nothingPushed => rw [rsmFinish_of_nothing_pushed hphase hexpected]
  case completed =>
    rw [exec_rsmFinish, rsmFinish_of_expected hphase hexpected, reassembled_eq_finishedWith]
    rfl
  case failed => rw [rsmFinish_of_failed hphase]

/-- Settles O42. -/
theorem pushIgnoresOtherHeaderFields : Obligations.PushIgnoresOtherHeaderFields := by
  unfold Obligations.PushIgnoresOtherHeaderFields
  intro s B B' h h' p b htotal hdecode hdecode' hseqNum hverify hverify'
  simp only [exec_segDecode_segment, exec_digestVerify_bool] at hdecode hdecode' hverify hverify'
  have hexpect : s.rsm.expect h'.totalSegments = s.rsm.expect h.totalSegments := by
    rcases htotal with hset | htotal
    · obtain ⟨n, hn⟩ := Option.isSome_iff_exists.mp hset
      rw [Rsm.expect_of_some hn, Rsm.expect_of_some hn]
    · rw [htotal]
  rw [exec_rsmPush, exec_rsmPush, rsmPush_congr hdecode hdecode' hseqNum (hverify'.trans hverify.symm) hexpect]

end Sys2Proof.Machine
end

section
/-! REASSEMBLE as a run of pushes (spec/44_reassembly.md R220, R221, R226, R227, R252): its expansion, the capacity refusal that ends it,
what it gives under either policy at unbounded capacity, and any permutation of a SPLIT. -/

namespace Sys2Proof.Machine

/-! ### The pushes of a REASSEMBLE -/

/-- R213: no push leaves for IDLE. -/
theorem rsmPush_phase_ne_idle (p : Params) {r : Rsm} (hphase : r.phase ≠ .idle) (B : Bytes) : (rsmPush p r B).1.phase ≠ .idle := by
  obtain ⟨hidle, -⟩ | ⟨_, -, e⟩ | ⟨_, -, -, e⟩ | ⟨_, _, -, -, -, -, e⟩ | ⟨_, _, -, -, -, -, e⟩ | ⟨_, _, -, -, -, -, e⟩ |
    ⟨_, _, -, -, -, -, e⟩ := rsmPush_cases p r B
  case inl => exact absurd hidle hphase
  all_goals simp [e, hphase]

theorem pushAll_phase_ne_idle (p : Params) (segs : List Bytes) {r : Rsm} (hphase : r.phase ≠ .idle) :
    (pushAll p r segs).1.phase ≠ .idle := by
  induction segs generalizing r with
  | nil => exact hphase
  | cons B segs ih =>
    rw [pushAll_cons]
    split
    · exact rsmPush_phase_ne_idle p hphase B
    · exact ih (rsmPush_phase_ne_idle p hphase B)

/-- R219: at unbounded capacity no push is refused for it. -/
theorem rsmPush_ne_capacity {p : Params} (hcap : p.unbounded) (r : Rsm) (B : Bytes) :
    (rsmPush p r B).2 ≠ .refused .rsmCapacity := by
  obtain ⟨-, e⟩ | ⟨error, -, e⟩ | ⟨_, -, -, e⟩ | ⟨_, payload, -, -, -, habove, -⟩ | ⟨_, _, -, -, -, -, e⟩ | ⟨_, _, -, -, -, -, e⟩ |
    ⟨_, _, -, -, -, -, e⟩ := rsmPush_cases p r B
  case inr.inl => exact e ▸ error.result_ne_refused _
  case inr.inr.inr.inl =>
    rw [Rsm.overCapacity_unbounded hcap.1 hcap.2] at habove
    cases habove
  all_goals simp [e]

theorem pushAll_unbounded {p : Params} (hcap : p.unbounded) (segs : List Bytes) (r : Rsm) : (pushAll p r segs).2 = false := by
  induction segs generalizing r with
  | nil => rfl
  | cons B segs ih =>
    rw [pushAll_cons, if_neg (rsmPush_ne_capacity hcap r B)]
    exact ih _

/-- R220: pushes after others; a capacity refusal among the first ends them all. -/
theorem pushAll_append (p : Params) (before after : List Bytes) (r : Rsm) :
    pushAll p r (before ++ after) =
      if (pushAll p r before).2 = true then pushAll p r before else pushAll p (pushAll p r before).1 after := by
  induction before generalizing r with
  | nil => rfl
  | cons B before ih =>
    rw [List.cons_append, pushAll_cons, pushAll_cons]
    split
    · rfl
    · exact ih _

/-! ### The expansion -/

theorem runOps_cons {i : Instr} {s t : State} (hexec : exec i s = .next t) (ops : List Instr) : runOps (i :: ops) s = runOps ops t := by
  simp only [runOps, hexec]

/-- R220: RSM_PUSH operations, none of them refused for capacity, leave the store that the pushes of a REASSEMBLE leave. -/
theorem runOps_pushes_append (ops : List Instr) {segs : List Bytes} {s : State} (hpushes : (pushAll s.params s.rsm segs).2 = false) :
    ∃ r, runOps (segs.map .rsmPush ++ ops) s = runOps ops { s with rsm := (pushAll s.params s.rsm segs).1, result := r } := by
  induction segs generalizing s with
  | nil => exact ⟨s.result, rfl⟩
  | cons B segs ih =>
    rw [pushAll_cons] at hpushes ⊢
    split at hpushes
    · cases hpushes
    · next hcapacity =>
      obtain ⟨r, hrun⟩ := ih (s := s.answeredRsm (rsmPush s.params s.rsm B).1 (rsmPush s.params s.rsm B).2) hpushes
      exact ⟨r, by rw [List.map_cons, List.cons_append, runOps_cons (exec_rsmPush B s), hrun, if_neg hcapacity]⟩

/-- Settles O45. -/
theorem reassembleIsItsExpansion : Obligations.ReassembleIsItsExpansion := by
  unfold Obligations.ReassembleIsItsExpansion
  intro s segs hcap
  have hpushes := pushAll_unbounded hcap segs Rsm.started
  obtain ⟨r, hrun⟩ := runOps_pushes_append [.rsmFinish] (s := s.answeredRsm Rsm.started .ok) hpushes
  rw [List.cons_append, runOps_cons (exec_rsmStart s), hrun, runOps_cons (exec_rsmFinish _), exec_reassemble, reassemble_eq, hpushes,
    if_neg nofun]
  rfl

/-! ### The end of a REASSEMBLE -/

/-- R220, R252: REASSEMBLE leaves the store empty and IDLE, whatever its outcome. -/
theorem reassemble_store (p : Params) (segs : List Bytes) : (reassemble p segs).1 = Rsm.reset := by
  rw [reassemble_eq]
  split
  · rfl
  · exact rsmFinish_eq_reset (pushAll_inv segs (Rsm.started_inv p)) (pushAll_phase_ne_idle p segs nofun)

/-- R220: a capacity refusal among the pushes is the result. -/
theorem reassemble_of_refused {p : Params} {segs : List Bytes} (hpushes : (pushAll p Rsm.started segs).2 = true) :
    reassemble p segs = (Rsm.reset, .refused .rsmCapacity) := by
  rw [reassemble_eq, if_pos hpushes]

/-- Settles O46. The push that is refused follows others; where one of those was refused, it has ended the REASSEMBLE already. -/
theorem reassembleRefusedForCapacity : Obligations.ReassembleRefusedForCapacity := by
  unfold Obligations.ReassembleRefusedForCapacity
  refine ⟨?refused, fun s segs => ⟨(reassemble s.params segs).2, ?store⟩⟩
  case refused =>
    intro s t u before after B hrun hpush hcapacity
    have hpushes : (pushAll s.params Rsm.started (before ++ B :: after)).2 = true := by
      rw [pushAll_append]
      split
      · assumption
      · next hbefore =>
        obtain ⟨r, hpushed⟩ := runOps_pushes_append [] (s := s.answeredRsm Rsm.started .ok) (Bool.eq_false_of_not_eq_true hbefore)
        rw [runOps_cons (exec_rsmStart s), ← List.append_nil (before.map _), hpushed] at hrun
        obtain rfl := Host.Outcome.next.inj hrun
        obtain rfl := Host.Outcome.next.inj ((exec_rsmPush B _).symm.trans hpush)
        rw [pushAll_cons, if_pos (Option.some.inj hcapacity)]
    rw [exec_reassemble, reassemble_of_refused hpushes]
    rfl
  case store =>
    rw [exec_reassemble, reassemble_store]
    rfl

/-- R220, R227: REASSEMBLE starts a reassembly of its own. -/
theorem reassemble_ne_notStarted (p : Params) (segs : List Bytes) : (reassemble p segs).2 ≠ .refused .rsmNotStarted := by
  rw [reassemble_eq]
  split
  · nofun
  · obtain ⟨hidle, -⟩ | ⟨error, -, e⟩ | ⟨-, -, e⟩ | ⟨_, -, -, e⟩ := rsmFinish_cases (pushAll p Rsm.started segs).1
    · exact absurd hidle (pushAll_phase_ne_idle p segs nofun)
    · exact e ▸ error.result_ne_refused _
    · exact e ▸ nofun
    · exact e ▸ nofun

/-- Settles O39. -/
theorem pushAndFinishNeedStart : Obligations.PushAndFinishNeedStart := by
  unfold Obligations.PushAndFinishNeedStart
  exact ⟨fun s hphase => ⟨exec_rsmPush_of_idle hphase, exec_rsmFinish_of_idle hphase⟩, rfl,
    fun s segs => ⟨_, exec_reassemble segs s, fun h => reassemble_ne_notStarted _ _ (Option.some.inj h)⟩, exec_rsmStart⟩

/-! ### The first buffer -/

/-- R35, R215: at unbounded capacity a buffer that decodes is pushed as if its total had been set before. -/
theorem rsmPush_expect {p : Params} (hcap : p.unbounded) {r : Rsm} {B : Bytes} {h : SegmentHeader} {payload : Bytes}
    (hphase : r.phase = .collecting) (hdecode : segDecode p.payloadSlice B = .ok (h, payload)) :
    rsmPush p (r.expect h.totalSegments) B = rsmPush p r B := by
  have hphase' : (r.expect h.totalSegments).phase = .collecting := (r.expect_phase _).trans hphase
  have hexpect := Rsm.expect_of_some (r.expect_expected h.totalSegments) h.totalSegments
  cases hverify : digestVerify p.digest payload h.checksum with
  | true =>
    rw [rsmPush_of_sound hphase hdecode hverify (Rsm.overCapacity_unbounded hcap.1 hcap.2 _ _),
      rsmPush_of_sound hphase' hdecode hverify (Rsm.overCapacity_unbounded hcap.1 hcap.2 _ _), hexpect]
  | false =>
    cases hpolicy : p.corruptPolicy with
    | skip =>
      rw [rsmPush_of_skipped hpolicy hphase hdecode hverify, rsmPush_of_skipped hpolicy hphase' hdecode hverify, hexpect,
        Rsm.expect_skipped]
    | abort => rw [rsmPush_of_corrupted hpolicy hphase hdecode hverify, rsmPush_of_corrupted hpolicy hphase' hdecode hverify, hexpect]

/-- R220: REASSEMBLE at unbounded capacity, by its pushes into a store that expects the total of the first buffer. -/
theorem reassemble_cons {p : Params} (hcap : p.unbounded) {B : Bytes} {h : SegmentHeader} {payload : Bytes}
    (hdecode : segDecode p.payloadSlice B = .ok (h, payload)) (segs : List Bytes) :
    reassemble p (B :: segs) = rsmFinish (pushAll p (Rsm.started.expect h.totalSegments) (B :: segs)).1 := by
  rw [reassemble_eq, pushAll_unbounded hcap, if_neg nofun, pushAll_cons, pushAll_cons,
    rsmPush_expect hcap Rsm.started_phase hdecode]

/-! ### Policy SKIP -/

theorem soundEntries_cons_of_corrupted {mode : PayloadSlice} {d : DigestChoice} {B : Bytes} {h : SegmentHeader} {payload : Bytes}
    (hdecode : segDecode mode B = .ok (h, payload)) (hverify : digestVerify d payload h.checksum = false) (segs : List Bytes) :
    soundEntries mode d (B :: segs) = soundEntries mode d segs :=
  List.filterMap_cons_none (by simp [hdecode, hverify])

theorem soundEntries_length_le (mode : PayloadSlice) (d : DigestChoice) (segs : List Bytes) :
    (soundEntries mode d segs).length ≤ segs.length :=
  List.length_filterMap_le _ _

/-- R216, R218: pushes under SKIP of buffers that decode sort the sound ones into the store and count the others. -/
theorem pushAll_of_decodes_of_skip {p : Params} (hpolicy : p.corruptPolicy = .skip) (hcap : p.unbounded) {segs : List Bytes}
    (hdecodes : ∀ B ∈ segs, ∃ g q, segDecode p.payloadSlice B = .ok (g, q)) {r : Rsm} {n : U32} (hphase : r.phase = .collecting)
    (hexpected : r.expected = some n) (hsorted : Sorted r.entries) :
    (pushAll p r segs).1 = ⟨.collecting, some n, sortEntries (r.entries ++ soundEntries p.payloadSlice p.digest segs),
      r.skipped + (segs.length - (soundEntries p.payloadSlice p.digest segs).length)⟩ := by
  induction segs generalizing r with
  | nil =>
    rw [soundEntries, List.filterMap_nil, List.append_nil, sortEntries_of_sorted hsorted, ← hphase, ← hexpected]
    rfl
  | cons B segs ih =>
    obtain ⟨⟨h, payload, hdecode⟩, hrest⟩ := List.forall_mem_cons.mp hdecodes
    rw [pushAll_cons, if_neg (rsmPush_ne_capacity hcap r B), List.length_cons]
    cases hverify : digestVerify p.digest payload h.checksum with
    | true =>
      rw [rsmPush_of_sound hphase hdecode hverify (Rsm.overCapacity_unbounded hcap.1 hcap.2 r payload),
        Rsm.expect_of_some hexpected, soundEntries_cons hdecode hverify, ← sortEntries_insert_append r hsorted, List.length_cons,
        Nat.add_sub_add_right]
      exact ih hrest hphase hexpected (Rsm.insert_sorted r _ hsorted)
    | false =>
      have hle := soundEntries_length_le p.payloadSlice p.digest segs
      rw [rsmPush_of_skipped hpolicy hphase hdecode hverify, Rsm.expect_of_some hexpected,
        soundEntries_cons_of_corrupted hdecode hverify, Nat.sub_add_comm hle, ← Nat.add_assoc, Nat.add_right_comm]
      exact ih hrest (r := { r with skipped := r.skipped + 1 }) hphase hexpected hsorted

/-- Settles O44. -/
theorem skipPolicyCountsCorruptedAsMissing : Obligations.SkipPolicyCountsCorruptedAsMissing := by
  unfold Obligations.SkipPolicyCountsCorruptedAsMissing
  intro s first rest h p hpolicy hcap hdecode hrest
  simp only [exec_segDecode_segment] at hdecode hrest
  have hdecodes := List.forall_mem_cons.mpr ⟨⟨h, p, hdecode⟩, hrest⟩
  have hpushes := pushAll_of_decodes_of_skip hpolicy hcap hdecodes (r := Rsm.started.expect h.totalSegments) rfl rfl List.Pairwise.nil
  rw [exec_reassemble, reassemble_cons hcap hdecode, hpushes, rsmFinish_of_expected rfl rfl, reassembled_eq_finishedWith]
  simp only [Rsm.expect_entries, Rsm.started_entries, Rsm.expect_skipped, Rsm.started_skipped, List.nil_append, Nat.zero_add]
  rfl

/-! ### Policy ABORT: the source's algorithm -/

/-- R212, R221: the store after pushes, by what step 3 of the source's algorithm finds in their buffers: the stable sort of the
entries, or the first failure. -/
def Rsm.afterStep3 (r : Rsm) : Except RsmError (List Entry) → Rsm
  | .ok es => { r with entries := sortEntries (r.entries ++ es) }
  | .error e => r.fail e

/-- R221: the simulation: pushes under ABORT are step 3 and the stable sort of step 4. -/
theorem pushAll_of_abort {p : Params} (hpolicy : p.corruptPolicy = .abort) (hcap : p.unbounded) (segs : List Bytes) {r : Rsm} {n : U32}
    (hphase : r.phase = .collecting) (hexpected : r.expected = some n) (hsorted : Sorted r.entries) :
    (pushAll p r segs).1 = r.afterStep3 (verifiedAll p.payloadSlice p.digest segs) := by
  induction segs generalizing r with
  | nil => rw [verifiedAll, Rsm.afterStep3, List.append_nil, sortEntries_of_sorted hsorted, pushAll]
  | cons B segs ih =>
    rw [pushAll_cons, if_neg (rsmPush_ne_capacity hcap r B), verifiedAll]
    cases hdecode : segDecode p.payloadSlice B with
    | error sub =>
      rw [rsmPush_of_formatError hphase hdecode, pushAll_of_failed p (r.fail_phase (.format sub))]
      rfl
    | ok hp =>
      obtain ⟨h, payload⟩ := hp
      cases hverify : digestVerify p.digest payload h.checksum with
      | false =>
        rw [rsmPush_of_corrupted hpolicy hphase hdecode hverify, Rsm.expect_of_some hexpected,
          pushAll_of_failed p (r.fail_phase (.integrity h.seqNum))]
        simp only [hverify]
        rfl
      | true =>
        rw [rsmPush_of_sound hphase hdecode hverify (Rsm.overCapacity_unbounded hcap.1 hcap.2 r payload),
          Rsm.expect_of_some hexpected, ih (r := r.insert ⟨h.seqNum, payload⟩) hphase hexpected (Rsm.insert_sorted r _ hsorted)]
        cases hrest : verifiedAll p.payloadSlice p.digest segs with
        | ok es =>
          simp only [hverify, if_true, Rsm.afterStep3, sortEntries_insert_append r hsorted]
          rfl
        | error e =>
          simp only [hverify, if_true]
          rfl

/-- R221: REASSEMBLE is the source's algorithm. The first buffer decodes or not in both; if it does, its total is what RSM_FINISH
tests against. -/
theorem reassemble_eq_reference {p : Params} (hpolicy : p.corruptPolicy = .abort) (hcap : p.unbounded) (segs : List Bytes) :
    (reassemble p segs).2 = referenceReassemble p.payloadSlice p.digest segs := by
  cases segs with
  | nil => rfl
  | cons B segs =>
    rw [referenceReassemble]
    cases hdecode : segDecode p.payloadSlice B with
    | error sub =>
      have hfailed := Rsm.started.fail_phase (.format sub)
      have hpushes : pushAll p Rsm.started (B :: segs) = (Rsm.started.fail (.format sub), false) := by
        rw [pushAll_cons, rsmPush_of_formatError Rsm.started_phase hdecode, if_neg nofun, pushAll_of_failed p hfailed]
      rw [reassemble_eq, hpushes, if_neg nofun, rsmFinish_of_failed hfailed]
      rfl
    | ok hp =>
      obtain ⟨h, payload⟩ := hp
      have hpushes := pushAll_of_abort hpolicy hcap (B :: segs) (r := Rsm.started.expect h.totalSegments) rfl rfl List.Pairwise.nil
      rw [reassemble_cons hcap hdecode, hpushes]
      cases verifiedAll p.payloadSlice p.digest (B :: segs) with
      | ok es => rfl
      | error e => rfl

/-- Settles O47. -/
theorem reassembleEqualsReferenceAlgorithm : Obligations.ReassembleEqualsReferenceAlgorithm := by
  unfold Obligations.ReassembleEqualsReferenceAlgorithm
  intro s segs hcap hpolicy
  rw [exec_reassemble, reassemble_store, reassemble_eq_reference hpolicy hcap]
  rfl

/-! ### Any permutation of a SPLIT -/

/-- R212: entries whose numbers strictly ascend are the sort of every permutation of themselves. -/
theorem sortEntries_of_perm {es es' : List Entry} (hperm : es.Perm es') (hascending : (seqNumsOf es').Pairwise (· < ·)) :
    sortEntries es = es' := by
  have hsorted : Sorted es' := (List.pairwise_map.mp hascending).imp BitVec.le_of_lt
  have hinj := List.inj_on_of_nodup_map (hascending.imp BitVec.ne_of_lt)
  have hsort : (sortEntries es).Perm es' := (List.perm_insertionSort _ es).trans hperm
  exact hsort.eq_of_pairwise
    (fun a b ha hb hab hba => hinj (hsort.subset ha) hb (BitVec.le_antisymm hab hba)) (sortEntries_sorted es) hsorted

/-- R226: the segments of a SPLIT of non-empty data in any order, in an instance of the same digest and unbounded capacity. -/
theorem reassemble_of_perm_splitList {p : Params} (hcap : p.unbounded) {data : Bytes} {S : Nat} (haccepts : SplitAccepts data S)
    (policyId segmentId : U32) (hdata : data ≠ []) {segs : List Bytes}
    (hperm : segs.Perm (splitList p.digest data S policyId segmentId)) :
    reassemble p segs = (Rsm.reset, .reassembled ⟨data, none, 0⟩) := by
  have hsegment : ∀ C ∈ segs, ∃ i, splitSegment p.digest data S policyId segmentId (ceilDiv data.length S) i = C := fun C hC => by
    obtain ⟨i, -, hi⟩ := List.mem_map.mp (hperm.subset hC)
    exact ⟨i, hi⟩
  have hsound : ∀ C ∈ segs, IsSound p C := fun C hC => by
    obtain ⟨i, rfl⟩ := hsegment C hC
    exact isSound_splitSegment p haccepts policyId segmentId _ i
  have hentries : sortEntries (soundEntries p.payloadSlice p.digest segs) =
      (List.range (ceilDiv data.length S)).map (chunkEntry data S) := by
    refine sortEntries_of_perm ?_ ?_
    · rw [← soundEntries_map_splitSegment p.payloadSlice p.digest haccepts policyId segmentId (ceilDiv data.length S)]
      exact hperm.filterMap _
    · rw [seqNumsOf, List.map_map]
      exact pairwise_ofNat_lt haccepts.ceilDiv_lt (List.Sublist.refl _)
  cases segs with
  | nil =>
    have hnil := flatten_map_drop_splitList p.digest haccepts policyId segmentId
    rw [hperm.nil_eq.symm] at hnil
    exact absurd hnil.symm hdata
  | cons C segs =>
    obtain ⟨i, rfl⟩ := hsegment C List.mem_cons_self
    have hdecode := segDecode_splitSegment p.payloadSlice p.digest haccepts policyId segmentId (ceilDiv data.length S) i
    rw [reassemble_of_sound hcap hdecode hsound, hentries, splitHeader,
      reassembledOf_chunkEntries data S haccepts.ceilDiv_lt (List.Sublist.refl _), List.length_range, if_neg (lt_irrefl _),
      haccepts.chunks_flatten_eq]

/-- Settles O48. -/
theorem splitThenReassembleIsIdentity : Obligations.SplitThenReassembleIsIdentity := by
  unfold Obligations.SplitThenReassembleIsIdentity
  refine ⟨?permutation, fun s S policyId segmentId h0 h1 => ⟨?splitNil, ?reassembleNil⟩⟩
  case permutation =>
    intro s t data S policyId segmentId l l' hdata hsplit hperm hdigest hcap
    obtain ⟨haccepts, rfl⟩ := (exec_split_segments ..).mp hsplit
    rw [← hdigest] at hperm
    rw [exec_reassemble, reassemble_of_perm_splitList hcap haccepts policyId segmentId hdata hperm]
    rfl
  case splitNil =>
    refine (exec_split_segments ..).mpr ⟨⟨h0, h1, Nat.zero_le _⟩, ?_⟩
    have hn : ceilDiv 0 S = 0 := Nat.le_zero.mp ((ceilDiv_le_iff 0 S 0 h0).mpr (Nat.zero_le _))
    rw [splitList, List.length_nil, hn]
    rfl
  case reassembleNil =>
    rw [exec_reassemble, reassemble_nil]
    rfl

end Sys2Proof.Machine
end

section
/-! The fixed orders of tests (spec/60_exceptions.md R250, R251): ADMIT's, SEG_DECODE's and the one of ADM_DECODE. -/

namespace Sys2Proof.Machine

/-! ### ADMIT -/

/-- Settles O16: each clause is one branch of `admission_eq`. -/
theorem admitTestsInFixedOrder : Obligations.AdmitTestsInFixedOrder := by
  unfold Obligations.AdmitTestsInFixedOrder
  intro s P now
  rw [exec_admitPacket, admission_eq]
  refine ⟨fun hshort => ?tooShort, fun hlen hversion => ?badVersion, fun hlen hversion habsent => ?policyRejected,
    fun hlen hversion ⟨row, hrow, hkey⟩ => ?forward⟩
  case tooShort => rw [if_pos hshort]
  case badVersion => rw [if_neg (not_lt.mpr hlen), if_pos hversion]
  case policyRejected =>
    rw [if_neg (not_lt.mpr hlen), if_neg (not_not.mpr hversion), if_pos ((ptRead_eq_none ..).mpr habsent)]
  case forward =>
    have hread : ptRead s.params.policyTable (fieldAt P 10) ≠ none := fun hnone =>
      (ptRead_eq_none ..).mp hnone row hrow hkey
    rw [if_neg (not_lt.mpr hlen), if_neg (not_not.mpr hversion), if_neg hread]

/-! ### SEG_DECODE and ADM_DECODE -/

/-- R141, R251: the one test of ADM_DECODE. -/
theorem exec_admDecode_formatError (B : Bytes) (s : State) :
    exec (.admDecode B) s = .next (s.answered (.formatError .admLength)) ↔ B.length ≠ 16 := by
  refine ⟨fun h hlength => ?_, fun h => exec_admDecode_of_length_ne h s⟩
  rw [exec_admDecode_of_length hlength] at h
  simp at h

/-- Settles O21: each clause on SEG_DECODE is one branch of `segDecode_eq`. -/
theorem segDecodeTestsInFixedOrder : Obligations.SegDecodeTestsInFixedOrder := by
  unfold Obligations.SegDecodeTestsInFixedOrder
  intro s B
  simp only [exec_segDecode_formatError]
  refine ⟨fun hshort => ?length, segDecode_of_not_magic s.params.payloadSlice, fun hlen hmagic hmode hfield => ?truncated,
    fun A => (exec_admDecode_formatError A s).symm⟩
  case length => rw [segDecode_eq, if_pos hshort]
  case truncated =>
    have hpasses : B.take 2 = Config.segMagic := hmagic
    have hshort : B.length - 56 < (segFields B).payloadLength.toNat := by rwa [segFields_eq hlen]
    rw [segDecode_eq, if_neg (not_lt.mpr hlen), if_neg (not_not.mpr hpasses), if_pos ⟨hmode, hshort⟩]

end Sys2Proof.Machine
end

section
/-! The FAILED state of the reassembly store (spec/60_exceptions.md R256): what reports its error, and what leaves it. -/

namespace Sys2Proof.Machine

theorem exec_rsmPush_of_failed {s : State} {e : RsmError} (hphase : s.rsm.phase = .failed e) (B : Bytes) :
    exec (.rsmPush B) s = .next (s.answered e.result) := by
  rw [exec_rsmPush, rsmPush_of_failed _ hphase]

theorem exec_rsmFinish_of_failed {s : State} {e : RsmError} (hphase : s.rsm.phase = .failed e) :
    exec .rsmFinish s = .next (s.answeredRsm s.rsm.release e.result) := by
  rw [exec_rsmFinish, rsmFinish_of_failed hphase]

/-- R256: pushes in FAILED, however many, all report the latched error and leave the store. -/
theorem runOps_pushes_of_failed {s : State} {e : RsmError} (hphase : s.rsm.phase = .failed e) (bufs : List Bytes) :
    runOps (bufs.map .rsmPush) s = .next (if bufs = [] then s else s.answered e.result) := by
  induction bufs generalizing s with
  | nil => rfl
  | cons B bufs ih =>
    rw [List.map_cons, runOps_cons (exec_rsmPush_of_failed hphase B), ih (s := s.answered e.result) hphase,
      if_neg (List.cons_ne_nil B bufs), ite_self]

/-- R256: of the operations that leave FAILED, RSM_FINISH, RSM_START and REASSEMBLE are all. -/
theorem exec_rsm_eq_of_failed {i : Instr} {s t : State} {e : RsmError} (hphase : s.rsm.phase = .failed e) (hfinish : i ≠ .rsmFinish)
    (hstart : i ≠ .rsmStart) (hreassemble : ∀ segs, i ≠ .reassemble segs) (hexec : exec i s = .next t) : t.rsm = s.rsm := by
  cases hi : touchesStore i with
  | false =>
    obtain ⟨r, hr⟩ := exec_answers_of_not_touchesStore hi s
    obtain rfl := Host.Outcome.next.inj (hr.symm.trans hexec)
    rfl
  | true =>
    obtain rfl | ⟨buf, rfl⟩ | rfl | ⟨segs, rfl⟩ := (touchesStore_eq_true_iff i).mp hi
    · exact absurd rfl hstart
    · obtain rfl := Host.Outcome.next.inj ((exec_rsmPush_of_failed hphase buf).symm.trans hexec)
      rfl
    · exact absurd rfl hfinish
    · exact absurd rfl (hreassemble segs)

/-- Settles O40. -/
theorem failedIsStickyUntilFinishOrStart : Obligations.FailedIsStickyUntilFinishOrStart := by
  unfold Obligations.FailedIsStickyUntilFinishOrStart
  refine fun s e hphase => ⟨⟨_, exec_rsmFinish_of_failed hphase, rfl, rfl⟩, ⟨_, exec_rsmStart s, rfl, rfl⟩,
    fun rest hinbox => ⟨_, step_of_reset hinbox, rfl⟩,
    fun bufs => ⟨_, runOps_pushes_of_failed hphase bufs, ?store, fun hbufs => ?result⟩,
    fun i t hfinish hstart hreassemble => exec_rsm_eq_of_failed hphase hfinish hstart hreassemble⟩
  case store => split <;> rfl
  case result => rw [if_neg hbufs]

end Sys2Proof.Machine
end

section
/-! The table of outcomes (spec/60_exceptions.md R248). Outside unit RSM an outcome is in its row by what the operation's function gives; in
unit RSM the invariant of the store says which errors can be latched. -/

namespace Sys2Proof.Machine

/-! ### SEG_DECODE and SPLIT -/

/-- R248: the row of SEG_DECODE. -/
theorem exec_segDecode_allowed (B : Bytes) (s : State) :
    ∃ r, exec (.segDecode B) s = .next (s.answered r) ∧ allowedResult (.segDecode B) r = true := by
  cases hdecode : segDecode s.params.payloadSlice B with
  | ok hp => exact ⟨_, (exec_segDecode_segment B s hp.1 hp.2).mpr hdecode, rfl⟩
  | error sub =>
    have hsub : sub ≠ .admLength := fun h => segDecode_ne_admLength _ B (h ▸ hdecode)
    exact ⟨_, (exec_segDecode_formatError B s sub).mpr hdecode, bne_iff_ne.mpr hsub⟩

/-- R193, R194: SPLIT refuses with one of its three reasons, or gives the segments of its loop. -/
theorem split_cases (d : DigestChoice) (data : Bytes) (S : Nat) (policyId segmentId : U32) :
    split d data S policyId segmentId = .error .segmentSizeZero ∨ split d data S policyId segmentId = .error .segmentSizeTooLarge ∨
    split d data S policyId segmentId = .error .tooManySegments ∨ SplitAccepts data S := by
  obtain rfl | h0 := Nat.eq_zero_or_pos S
  · exact .inl (split_zero ..)
  obtain h1 | h1 := lt_or_ge Config.maxU32 S
  · exact .inr (.inl (split_of_size_tooLarge _ _ _ _ h1))
  obtain h2 | h2 := lt_or_ge (Config.maxU32 * S) data.length
  · exact .inr (.inr (.inl (split_of_tooManySegments _ _ _ h0 h1 h2)))
  · exact .inr (.inr (.inr ⟨h0, h1, h2⟩))

/-- R248: the row of SPLIT. -/
theorem exec_split_allowed (data : Bytes) (size : Option Nat) (policyId segmentId : U32) (s : State) :
    ∃ r, exec (.split data size policyId segmentId) s = .next (s.answered r) ∧
      allowedResult (.split data size policyId segmentId) r = true := by
  have hsize : segmentSizeOf size = segmentSizeOf (some (segmentSizeOf size)) := (segmentSizeOf_some _).symm
  rw [exec_split_congr hsize]
  obtain h | h | h | haccepts := split_cases s.params.digest data (segmentSizeOf size) policyId segmentId
  · exact ⟨_, exec_split_of_error h, rfl⟩
  · exact ⟨_, exec_split_of_error h, rfl⟩
  · exact ⟨_, exec_split_of_error h, rfl⟩
  · exact ⟨_, (exec_split_segments ..).mpr ⟨haccepts, rfl⟩, rfl⟩

/-! ### Unit RSM -/

/-- R248: a latched error is in the rows of RSM_PUSH and RSM_FINISH when it is no error of ADM_DECODE. -/
theorem allowedResult_latched {e : RsmError} (hsub : e ≠ .format .admLength) :
    (∀ B, allowedResult (.rsmPush B) e.result = true) ∧ allowedResult .rsmFinish e.result = true := by
  cases e with
  | format sub =>
    have hne : sub ≠ .admLength := fun h => hsub (h ▸ rfl)
    exact ⟨fun _ => bne_iff_ne.mpr hne, bne_iff_ne.mpr hne⟩
  | integrity q => exact ⟨fun _ => rfl, rfl⟩

/-- In the invariant no error of ADM_DECODE is latched. -/
theorem Rsm.Inv.latched_ne {p : Params} {r : Rsm} {e : RsmError} (hr : r.Inv p) (hphase : r.phase = .failed e) :
    e ≠ .format .admLength :=
  fun h => hr.failed_sub (h ▸ hphase)

/-- R248: the row of RSM_PUSH. -/
theorem rsmPush_allowed {p : Params} {r : Rsm} (hr : r.Inv p) (B : Bytes) :
    allowedResult (.rsmPush B) (rsmPush p r B).2 = true := by
  obtain ⟨-, e⟩ | ⟨error, hphase, e⟩ | ⟨sub, -, hdecode, e⟩ | ⟨_, _, -, -, -, -, e⟩ | ⟨_, _, -, -, -, -, e⟩ |
    ⟨_, _, -, -, -, -, e⟩ | ⟨_, _, -, -, -, -, e⟩ := rsmPush_cases p r B <;> rw [e]
  case inr.inl => exact (allowedResult_latched (hr.latched_ne hphase)).1 B
  case inr.inr.inl => exact bne_iff_ne.mpr fun h => segDecode_ne_admLength _ B (h ▸ hdecode)
  all_goals rfl

/-- R248: the row of RSM_FINISH. -/
theorem rsmFinish_allowed {p : Params} {r : Rsm} (hr : r.Inv p) : allowedResult .rsmFinish (rsmFinish r).2 = true := by
  obtain ⟨-, e⟩ | ⟨error, hphase, e⟩ | ⟨-, -, e⟩ | ⟨_, -, -, e⟩ := rsmFinish_cases r <;> rw [e]
  · rfl
  · exact (allowedResult_latched (hr.latched_ne hphase)).2
  · rfl
  · rfl

/-- R248: the row of REASSEMBLE is that of RSM_FINISH, but for the refusal. -/
theorem allowedResult_reassemble_of_rsmFinish {r : Result} (h : allowedResult .rsmFinish r = true) (hne : r ≠ .refused .rsmNotStarted)
    (segs : List Bytes) : allowedResult (.reassemble segs) r = true := by
  cases r with
  | refused reason => exact absurd (congrArg Result.refused (eq_of_beq h)) hne
  | _ => exact h

/-- R248: the row of REASSEMBLE. -/
theorem reassemble_allowed (p : Params) (segs : List Bytes) : allowedResult (.reassemble segs) (reassemble p segs).2 = true := by
  cases hpushes : (pushAll p Rsm.started segs).2 with
  | true =>
    rw [reassemble_of_refused hpushes]
    rfl
  | false =>
    have hfinish : reassemble p segs = rsmFinish (pushAll p Rsm.started segs).1 := by rw [reassemble_eq, hpushes, if_neg nofun]
    have hallowed := rsmFinish_allowed (pushAll_inv segs (Rsm.started_inv p))
    rw [← hfinish] at hallowed
    exact allowedResult_reassemble_of_rsmFinish hallowed (reassemble_ne_notStarted p segs) segs

/-! ### Every operation -/

/-- R248: every operation, wire-format words among them, answers within its row. -/
theorem exec_allowed (i : Instr) {s : State} (hs : s.Inv) :
    ∃ rsm r, exec i s = .next (s.answeredRsm rsm r) ∧ allowedResult i r = true := by
  cases i with
  | ptLookup _ | admitPacket _ _ | digestVerify _ _ | segTag _ | filterOne _ _ | enforce _ _ | rsmStart
  | admissionHeader _ _ | admissionHeaderLow _ _ | segmentHeader _ => exact ⟨_, _, rfl, rfl⟩
  | admDecode B =>
    obtain hlength | hlength := eq_or_ne B.length 16
    · exact ⟨_, _, exec_admDecode_of_length hlength s, rfl⟩
    · exact ⟨_, _, exec_admDecode_of_length_ne hlength s, rfl⟩
  | admEncode h => exact ⟨_, _, exec_admEncode h s, beq_iff_eq.mpr (admEncode_length _ h)⟩
  | digestGen p => exact ⟨_, _, exec_digestGen p s, beq_iff_eq.mpr (digestOf_length _ p)⟩
  | segEncode segmentId seqNum total sens hint policyId p =>
    obtain hfits | hlong := le_or_gt p.length Config.maxU32
    · exact ⟨_, _, exec_segEncode_fits s segmentId seqNum total sens hint policyId p hfits, beq_iff_eq.mpr (segBuild_length ..)⟩
    · exact ⟨_, _, exec_segEncode_tooLong s segmentId seqNum total sens hint policyId hlong, rfl⟩
  | segDecode B => exact ⟨s.rsm, exec_segDecode_allowed B s⟩
  | split data size policyId segmentId => exact ⟨s.rsm, exec_split_allowed data size policyId segmentId s⟩
  | rsmPush B => exact ⟨_, _, exec_rsmPush B s, rsmPush_allowed hs B⟩
  | rsmFinish => exact ⟨_, _, exec_rsmFinish s, rsmFinish_allowed hs⟩
  | reassemble segs => exact ⟨_, _, exec_reassemble segs s, reassemble_allowed s.params segs⟩

/-- R116: a step on an unassigned command code. -/
theorem step_of_unassigned {s : State} {code : Byte} {bs : Bytes} {rest : List HostEvent} (hcode : Opcode.ofCode code = none)
    (hinbox : s.inbox = .request .cmd8 (code :: bs) :: rest) :
    step s = .next ((s.withInbox rest).answered (.refused .illegalCommand)) := by
  rw [step_request_of_decode_error hinbox (decodeRequest_of_unassigned ((ofCode_eq_none_iff code).mp hcode) bs)]
  rfl

/-- Settles O52. -/
theorem outcomesStayInTheTable : Obligations.OutcomesStayInTheTable := by
  unfold Obligations.OutcomesStayInTheTable
  refine ⟨fun i s _ hs => ?_, fun s t code bs rest hcode hinbox hstep => ?_⟩
  · obtain ⟨rsm, r, hexec, hallowed⟩ := exec_allowed i hs
    exact ⟨_, r, hexec, rfl, hallowed⟩
  · obtain rfl := Host.Outcome.next.inj ((step_of_unassigned hcode hinbox).symm.trans hstep)
    rfl

end Sys2Proof.Machine
end

section
/-! When a step goes on and when it stops (spec/60_exceptions.md R240, R254, R297). -/

namespace Sys2Proof.Machine

/-- R101, R116: request bytes that are no operation are answered, or the step stops with the reason of the decoder, which is then
neither of the two that the spec answers. -/
theorem rejectRequest_cases (why : DecodeError) (s : State) :
    (∃ t, rejectRequest why s = .next t) ∨
    ((∀ code, why ≠ .illegalCommand code) ∧ why ≠ .notASegment ∧ rejectRequest why s = .refused (.malformedRequest why)) := by
  cases why with
  | illegalCommand _ | notASegment => exact .inl ⟨_, rfl⟩
  | emptyRequest | truncatedOperand | badOperand | trailingBytes | wireLength => exact .inr ⟨nofun, nofun, rfl⟩

/-- R240: a step on a request that decodes goes on. -/
theorem step_next_of_decode {s : State} {fmt : Format} {bytes : Bytes} {rest : List HostEvent} {i : Instr}
    (hinbox : s.inbox = .request fmt bytes :: rest) (hdecode : decodeRequest fmt bytes = .ok i) :
    ∃ t, step s = .next t ∧ exec i (s.withInbox rest) = .next t := by
  obtain ⟨rsm, r, hexec⟩ := exec_answersRsm i (s.withInbox rest)
  exact ⟨_, (step_request_of_decode hinbox hdecode).trans hexec, hexec⟩

/-- R240, R297: a step goes on, or its oldest event is a request that it stops on. -/
theorem step_next_or_malformed (s : State) :
    (∃ t, step s = .next t) ∨ ∃ fmt bytes rest why, s.inbox = .request fmt bytes :: rest ∧ decodeRequest fmt bytes = .error why ∧
      (∀ code, why ≠ .illegalCommand code) ∧ why ≠ .notASegment ∧ step s = .refused (.malformedRequest why) := by
  match hinbox : s.inbox with
  | [] => exact .inl ⟨s, step_of_inbox_nil hinbox⟩
  | .reset :: rest => exact .inl ⟨_, step_of_reset hinbox⟩
  | .request fmt bytes :: rest =>
    cases hdecode : decodeRequest fmt bytes with
    | ok i =>
      obtain ⟨t, hstep, -⟩ := step_next_of_decode hinbox hdecode
      exact .inl ⟨t, hstep⟩
    | error why =>
      rw [step_request_of_decode_error hinbox hdecode]
      obtain hnext | ⟨hcode, hmagic, hstop⟩ := rejectRequest_cases why (s.withInbox rest)
      · exact .inl hnext
      · exact .inr ⟨fmt, bytes, rest, why, rfl, hdecode, hcode, hmagic, hstop⟩

/-- Settles O54. -/
theorem stepStopsOnlyOnMalformedRequests : Obligations.StepStopsOnlyOnMalformedRequests := by
  unfold Obligations.StepStopsOnlyOnMalformedRequests
  refine ⟨step_next_or_malformed, fun s hinbox => ⟨s, step_of_inbox_nil hinbox⟩, fun s rest hinbox => ⟨_, step_of_reset hinbox⟩,
    fun s code bs rest hcode hinbox => ⟨_, step_of_unassigned hcode hinbox⟩, fun s B rest hB hmagic hinbox => ?noMagic,
    fun s i rest hwf hinbox => step_next_of_decode hinbox (decodeOfEncodeIsIdentity i hwf)⟩
  case noMagic => exact ⟨_, step_request_of_decode_error hinbox (decodeRequest_wire448_of_not_magic hB hmagic)⟩

end Sys2Proof.Machine
end

section
/-! Reset and hazards (spec/70_reset_and_hazards.md R280, R281, R289): what construction and a later reset leave, and that a reassembly is
read once and keeps duplicates. -/

namespace Sys2Proof.Machine

/-! ### Reset -/

/-- R280, R34 to R38: the reset store latches no error. -/
@[simp] theorem Rsm.reset_error : Rsm.reset.error = none := rfl

@[simp] theorem State.construct_params (p : Params) : (State.construct p).params = p := rfl
@[simp] theorem State.construct_rsm (p : Params) : (State.construct p).rsm = Rsm.reset := rfl

/-- Settles O1. Construction takes its parameters as they are, so the second half reads `Params.default` field by field. -/
theorem resetIsConstruction : Obligations.ResetIsConstruction := by
  unfold Obligations.ResetIsConstruction
  refine ⟨fun p => ⟨State.construct_params p, ?store⟩, ?reset, rfl, rfl, rfl, rfl, rfl, rfl, rfl⟩
  case store =>
    rw [State.construct_rsm]
    exact ⟨Rsm.reset_phase, Rsm.reset_expected, Rsm.reset_entries, Rsm.reset_error, Rsm.reset_skipped⟩
  case reset => rw [State.reset, State.construct_params]

/-- R214, R217, R281: RSM_START and a return to IDLE, with no push between them. -/
theorem runOps_rsmStart_rsmFinish (s : State) :
    runOps [.rsmStart, .rsmFinish] s = .next (s.answeredRsm Rsm.reset .emptyInput) := by
  rw [runOps_cons (exec_rsmStart s), runOps_cons (exec_rsmFinish _), rsmFinish_of_nothing_pushed Rsm.started_phase Rsm.started_expected]
  rfl

/-- Settles O6. -/
theorem laterResetKeepsConfiguration : Obligations.LaterResetKeepsConfiguration := by
  unfold Obligations.LaterResetKeepsConfiguration
  intro s rest hinbox
  refine ⟨_, step_of_reset hinbox, ?params, ?store, _, runOps_rsmStart_rsmFinish s, ?sameStore, ?sameParams⟩
  case params => rw [State.resetInPlace_params, State.withInbox_params]
  case store => rw [State.resetInPlace_rsm, State.construct_rsm]
  case sameStore => rw [State.resetInPlace_rsm]
  case sameParams => rw [State.resetInPlace_params, State.withInbox_params]

/-! ### A transfer is consumed once -/

/-- R37, R213: an IDLE store is the reset store. -/
theorem Rsm.Inv.eq_reset_of_idle {p : Params} {r : Rsm} (hr : r.Inv p) (hphase : r.phase = .idle) : r = Rsm.reset := by
  obtain ⟨hexpected, hentries, hskipped⟩ := hr.idle_empty hphase
  change (⟨r.phase, r.expected, r.entries, r.skipped⟩ : Rsm) = Rsm.reset
  rw [hphase, hexpected, hentries, hskipped, Rsm.reset]

/-- R213, R217: RSM_FINISH leaves the reset store, from every state of it. -/
theorem rsmFinish_store {p : Params} {r : Rsm} (hr : r.Inv p) : (rsmFinish r).1 = Rsm.reset := by
  by_cases hphase : r.phase = .idle
  · rw [rsmFinish_of_idle hphase, hr.eq_reset_of_idle hphase]
  · exact rsmFinish_eq_reset hr hphase

/-! ### Duplicates are kept -/

/-- R218: equal entries are in order. -/
theorem sorted_pair (e : Entry) : Sorted [e, e] := List.pairwise_pair.mpr (BitVec.le_refl _)

/-- R218, R289: a sound buffer twice in a REASSEMBLE gives its payload twice. -/
theorem reassemble_pair {p : Params} (hcap : p.unbounded) {B : Bytes} {h : SegmentHeader} {payload : Bytes}
    (hdecode : segDecode p.payloadSlice B = .ok (h, payload)) (hverify : digestVerify p.digest payload h.checksum = true) :
    reassemble p [B, B] = (Rsm.reset, .reassembled (reassembledOf h.totalSegments [⟨h.seqNum, payload⟩, ⟨h.seqNum, payload⟩] 0)) := by
  have hB : IsSound p B := ⟨h, payload, hdecode, hverify⟩
  have hsound : ∀ C ∈ [B, B], IsSound p C := List.forall_mem_cons.mpr ⟨hB, List.forall_mem_singleton.mpr hB⟩
  have hentries : soundEntries p.payloadSlice p.digest [B, B] = [⟨h.seqNum, payload⟩, ⟨h.seqNum, payload⟩] := by
    rw [soundEntries_cons hdecode hverify, soundEntries_cons hdecode hverify, soundEntries, List.filterMap_nil]
  rw [reassemble_of_sound hcap hdecode hsound, hentries, sortEntries_of_sorted (sorted_pair _)]

/-- Settles O41. The two pushes are the expansion of a REASSEMBLE (O45). -/
theorem consumedOnceAndDuplicatesKept : Obligations.ConsumedOnceAndDuplicatesKept := by
  unfold Obligations.ConsumedOnceAndDuplicatesKept
  refine ⟨?consumedOnce, ?duplicatesKept⟩
  case consumedOnce =>
    intro s t hr hfinish
    obtain rfl := Host.Outcome.next.inj ((exec_rsmFinish s).symm.trans hfinish)
    have hstore := rsmFinish_store hr
    exact ⟨congrArg Rsm.entries hstore, exec_rsmFinish_of_idle (congrArg Rsm.phase hstore)⟩
  case duplicatesKept =>
    intro s B h p hcap hdecode hverify
    rw [exec_segDecode_segment] at hdecode
    rw [exec_digestVerify_bool] at hverify
    have hrun := reassembleIsItsExpansion s [B, B] hcap
    rw [exec_reassemble, reassemble_pair hcap hdecode hverify] at hrun
    refine ⟨_, _, hrun.symm, rfl, ?_⟩
    simp only [reassembledOf, List.map_cons, List.map_nil, List.flatten_cons, List.flatten_nil, List.append_nil]

end Sys2Proof.Machine
end
